-- ==== Sys2Proof/Word.lean ====
section
/-! DEFINITION. The word and byte types of wav12ly-core and their plainest arithmetic. -/

namespace Sys2Proof

/-- A register of the host register block, and a host bus word (10_state.md R17, R18). -/
abbrev Word := BitVec 32

/-- One byte of MEM, of WBUF or of a stream (20_memory.md R36). -/
abbrev Byte := BitVec 8

/-- `clamp(v, lo, hi)` (00_scope.md R13). -/
def clamp (v lo hi : Int) : Int :=
  if v < lo then lo else if hi < v then hi else v

end Sys2Proof
end

