-- ==== Sys2Proof/Syntax.lean ====
section
/-! DEFINITION. The commands of wav12ly-core: one constructor per row of spec/opcode_table.json (30_encoding.md R53), with
the word fields R51 gives it. Addresses, counts and volumes are no fields: they come from the ARG registers (R56). -/

namespace Sys2Proof

/-- A command. `table` is TABLE, `pred` PRED, `voice` VOICE, `add` ADD, `ove` OVE, `is8` IS8, `odd` ODD (30_encoding.md R51). -/
inductive Instr where
  /-- NOP (40_lifecycle.md R68). -/
  | nop
  /-- ENC4 (42_codec.md R95). -/
  | enc4 (table : BitVec 4) (pred : BitVec 2)
  /-- DEC4 (42_codec.md R96). -/
  | dec4 (table : BitVec 4) (pred : BitVec 2) (add ove : Bool)
  /-- ENC8 (42_codec.md R97). -/
  | enc8 (table : BitVec 4) (pred : BitVec 2)
  /-- DEC8 (42_codec.md R98). -/
  | dec8 (table : BitVec 4) (pred : BitVec 2) (add ove : Bool)
  /-- BIND (43_expander.md R102). -/
  | bind (voice table : BitVec 4) (pred : BitVec 2) (is8 odd : Bool)
  /-- EXPAND (43_expander.md R105). -/
  | expand (voice : BitVec 4) (add ove : Bool)
  /-- REWIND (43_expander.md R107). -/
  | rewind (voice : BitVec 4)
  /-- FILL (43_expander.md R109). -/
  | fill (ove : Bool)
  /-- SELECT (44_select.md R110). -/
  | select (is8 : Bool)
  /-- LOOKUP_DIR (45_manifest.md R118). -/
  | lookupDir
  /-- LOOKUP_FILE (45_manifest.md R119). -/
  | lookupFile
deriving DecidableEq, Repr

/-- The command's mnemonic in spec/opcode_table.json. -/
def Instr.mnemonic : Instr → String
  | .nop => "NOP"
  | .enc4 _ _ => "ENC4"
  | .dec4 _ _ _ _ => "DEC4"
  | .enc8 _ _ => "ENC8"
  | .dec8 _ _ _ _ => "DEC8"
  | .bind _ _ _ _ _ => "BIND"
  | .expand _ _ _ => "EXPAND"
  | .rewind _ => "REWIND"
  | .fill _ => "FILL"
  | .select _ => "SELECT"
  | .lookupDir => "LOOKUP_DIR"
  | .lookupFile => "LOOKUP_FILE"

end Sys2Proof
end

