-- ==== Sys2Proof/Decode.lean ====
section
/-! DEFINITION. The decoder of the 32-bit command word, total, rejecting by name, and the encoder (30_encoding.md R51..R55). -/

namespace Sys2Proof

/-- The fields of a command word (30_encoding.md R51). -/
structure Fields where
  rsv   : BitVec 10
  pred  : BitVec 2
  odd   : BitVec 1
  is8   : BitVec 1
  ove   : BitVec 1
  add   : BitVec 1
  table : BitVec 4
  voice : BitVec 4
  opc   : BitVec 8
deriving DecidableEq, Repr

/-- Split a word into its fields (30_encoding.md R51). -/
def Fields.ofWord (w : BitVec 32) : Fields where
  rsv   := w.extractLsb' 22 10
  pred  := w.extractLsb' 20 2
  odd   := w.extractLsb' 19 1
  is8   := w.extractLsb' 18 1
  ove   := w.extractLsb' 17 1
  add   := w.extractLsb' 16 1
  table := w.extractLsb' 12 4
  voice := w.extractLsb' 8 4
  opc   := w.extractLsb' 0 8

/-- Lay the fields out in a word (30_encoding.md R51). -/
def Fields.toWord (f : Fields) : BitVec 32 :=
  f.rsv ++ f.pred ++ f.odd ++ f.is8 ++ f.ove ++ f.add ++ f.table ++ f.voice ++ f.opc

/-- The fields of a word with the opcode alone. -/
def Fields.only (opc : BitVec 8) : Fields := ⟨0, 0, 0, 0, 0, 0, 0, 0, opc⟩

/-- A one-bit field as a flag. -/
def flag (b : BitVec 1) : Bool := b == 1

/-- Why a word is no command (30_encoding.md R55): its opcode is reserved, or a field its opcode does not use, RSV among
them, is not 0. -/
inductive IllegalWord where
  | reservedOpcode (opc : BitVec 8)
  | unusedField (mnemonic : String)
deriving DecidableEq, Repr

/-- The fields with every field named as unused set to 0: what R54 compares a word's fields with. -/
def Fields.keep (f : Fields) (voice table add ove is8 odd pred : Bool) : Fields where
  rsv   := 0
  pred  := if pred then f.pred else 0
  odd   := if odd then f.odd else 0
  is8   := if is8 then f.is8 else 0
  ove   := if ove then f.ove else 0
  add   := if add then f.add else 0
  table := if table then f.table else 0
  voice := if voice then f.voice else 0
  opc   := f.opc

/-- The instruction `i`, if every field its row does not list is 0 (30_encoding.md R54): `used` is `f` with those set to 0. -/
def Fields.guard (f used : Fields) (i : Instr) : Except IllegalWord Instr :=
  if f = used then .ok i else .error (.unusedField i.mnemonic)

/-- Decode by fields (30_encoding.md R53, R54). -/
def Fields.decode (f : Fields) : Except IllegalWord Instr :=
  if f.opc = 0x00 then f.guard (f.keep false false false false false false false) .nop
  else if f.opc = 0x01 then f.guard (f.keep false true false false false false true) (.enc4 f.table f.pred)
  else if f.opc = 0x02 then f.guard (f.keep false true true true false false true) (.dec4 f.table f.pred (flag f.add) (flag f.ove))
  else if f.opc = 0x03 then f.guard (f.keep false true false false false false true) (.enc8 f.table f.pred)
  else if f.opc = 0x04 then f.guard (f.keep false true true true false false true) (.dec8 f.table f.pred (flag f.add) (flag f.ove))
  else if f.opc = 0x10 then
    f.guard (f.keep true true false false true true true) (.bind f.voice f.table f.pred (flag f.is8) (flag f.odd))
  else if f.opc = 0x11 then f.guard (f.keep true false true true false false false) (.expand f.voice (flag f.add) (flag f.ove))
  else if f.opc = 0x12 then f.guard (f.keep true false false false false false false) (.rewind f.voice)
  else if f.opc = 0x13 then f.guard (f.keep false false false true false false false) (.fill (flag f.ove))
  else if f.opc = 0x20 then f.guard (f.keep false false false false true false false) (.select (flag f.is8))
  else if f.opc = 0x30 then f.guard (f.keep false false false false false false false) .lookupDir
  else if f.opc = 0x31 then f.guard (f.keep false false false false false false false) .lookupFile
  else .error (.reservedOpcode f.opc)

/-- Decode a command word: total on every word (30_encoding.md R52, R54, R55). -/
def decode (w : BitVec 32) : Except IllegalWord Instr := (Fields.ofWord w).decode

/-- The fields of an instruction's word (30_encoding.md R51, R53). -/
def Instr.fields : Instr → Fields
  | .nop => .only 0x00
  | .enc4 t p => { Fields.only 0x01 with table := t, pred := p }
  | .dec4 t p a o => { Fields.only 0x02 with table := t, pred := p, add := .ofBool a, ove := .ofBool o }
  | .enc8 t p => { Fields.only 0x03 with table := t, pred := p }
  | .dec8 t p a o => { Fields.only 0x04 with table := t, pred := p, add := .ofBool a, ove := .ofBool o }
  | .bind v t p i8 odd => { Fields.only 0x10 with voice := v, table := t, pred := p, is8 := .ofBool i8, odd := .ofBool odd }
  | .expand v a o => { Fields.only 0x11 with voice := v, add := .ofBool a, ove := .ofBool o }
  | .rewind v => { Fields.only 0x12 with voice := v }
  | .fill o => { Fields.only 0x13 with ove := .ofBool o }
  | .select i8 => { Fields.only 0x20 with is8 := .ofBool i8 }
  | .lookupDir => .only 0x30
  | .lookupFile => .only 0x31

/-- The word of an instruction (30_encoding.md R51, R53). -/
def encode (i : Instr) : BitVec 32 := i.fields.toWord

/-- One row of the opcode table (30_encoding.md R54). -/
structure OpcodeRow where
  mnemonic : String
  value    : BitVec 32
  mask     : BitVec 32
deriving DecidableEq, Repr

/-- The opcode table of 30_encoding.md R54: mnemonic, match, mask. -/
def opcodeTable : List OpcodeRow :=
  [ ⟨"NOP", 0x00000000, 0xFFFFFFFF⟩, ⟨"ENC4", 0x00000001, 0xFFCF0FFF⟩, ⟨"DEC4", 0x00000002, 0xFFCC0FFF⟩,
    ⟨"ENC8", 0x00000003, 0xFFCF0FFF⟩, ⟨"DEC8", 0x00000004, 0xFFCC0FFF⟩, ⟨"BIND", 0x00000010, 0xFFC300FF⟩ ] ++
  [ ⟨"EXPAND", 0x00000011, 0xFFFCF0FF⟩, ⟨"REWIND", 0x00000012, 0xFFFFF0FF⟩, ⟨"FILL", 0x00000013, 0xFFFDFFFF⟩,
    ⟨"SELECT", 0x00000020, 0xFFFBFFFF⟩, ⟨"LOOKUP_DIR", 0x00000030, 0xFFFFFFFF⟩, ⟨"LOOKUP_FILE", 0x00000031, 0xFFFFFFFF⟩ ]

/-- The row selects the word: `(w & mask) == match` (30_encoding.md R54). -/
def OpcodeRow.selects (r : OpcodeRow) (w : BitVec 32) : Bool := w &&& r.mask == r.value

/-- The instruction the decoder reads from the low `nbits` bits of `w`, every bit above them 0 (a command is one 32-bit word,
30_encoding.md R52). -/
def decodeTableWord (nbits w : Nat) : Option Instr :=
  match decode (BitVec.ofNat 32 (w % 2 ^ nbits)) with
  | .ok i => some i
  | .error _ => none

end Sys2Proof
end

