-- ==== Sys2Proof/Config.lean ====
section
/-! DEFINITION. The implementation parameters of 00_scope.md R8, their well-formedness checks R9, and the model's free values. -/

namespace Sys2Proof

/-- One table set t: STEP4[t], DELTA4[t], DELTA8[t] (00_scope.md R8, glossary). -/
structure TableSet where
  step4  : List Int
  delta4 : List Int
  delta8 : List Int
deriving DecidableEq, Repr

/-- One predictor seed PRED_SEED[p] = (prev1, prev2, shift) (00_scope.md R8). -/
structure Seed where
  prev1 : Int
  prev2 : Int
  shift : Nat
deriving DecidableEq, Repr

/-- The OPEN parameters of 00_scope.md R8, before any check. N_TABLES is the number of table sets, N_PRED the number of
seeds. `memIsPlain` says that the platform maps plain memory, and no device, into MEM (20_memory.md R43). -/
structure RawConfig where
  tables     : List TableSet
  seeds      : List Seed
  easing     : Nat
  bufferSize : Nat
  nVoices    : Nat
  memSize    : Nat
  engineBase : Nat
  numDir     : Nat
  numFiles   : Nat
  heapOffset : Nat
  imageSize  : Nat
  memIsPlain : Bool
deriving DecidableEq, Repr

/-- SHIFT_LIMIT4 (00_scope.md R8). -/
def shiftLimit4 : Nat := 12
/-- SHIFT_LIMIT8 (00_scope.md R8). -/
def shiftLimit8 : Nat := 8
/-- VSHIFT (00_scope.md R8). -/
def vshift : Nat := 8
/-- VOLUME_UNITY (00_scope.md R8). -/
def volumeUnity : Nat := 256

namespace RawConfig

/-- N_TABLES. -/
def nTables (c : RawConfig) : Nat := c.tables.length
/-- N_PRED. -/
def nPred (c : RawConfig) : Nat := c.seeds.length

/-- `lo <= v <= hi`. -/
def within (lo hi v : Int) : Bool := decide (lo ≤ v) && decide (v ≤ hi)

/-- WF1 of 00_scope.md R9. -/
def wf1 (c : RawConfig) : Bool := decide (1 ≤ c.nTables) && decide (c.nTables ≤ 16)
/-- WF2 of 00_scope.md R9, with the length STEP4[t][0..15] of R8. -/
def wf2 (c : RawConfig) : Bool := c.tables.all fun t => t.step4.length == 16 && t.step4.all (within (-8) 8)
/-- WF3 of 00_scope.md R9. -/
def wf3 (c : RawConfig) : Bool := c.tables.all fun t => t.step4.any (· == 0)
/-- WF4 of 00_scope.md R9, with the lengths DELTA4[t][0..8] and DELTA8[t][0..127] of R8. -/
def wf4 (c : RawConfig) : Bool := c.tables.all fun t =>
  t.delta4.length == 9 && t.delta4.all (within (-128) 127) &&
  (t.delta8.length == 128 && t.delta8.all (within (-128) 127))
/-- WF5 of 00_scope.md R9. -/
def wf5 (c : RawConfig) : Bool := decide (1 ≤ c.nPred) && decide (c.nPred ≤ 4)
/-- WF6 of 00_scope.md R9. -/
def wf6 (c : RawConfig) : Bool := c.seeds.all fun p =>
  within (-32768) 32767 p.prev1 && within (-32768) 32767 p.prev2 && decide (p.shift ≤ 8)
/-- WF7 of 00_scope.md R9. -/
def wf7 (c : RawConfig) : Bool := decide (1 ≤ c.bufferSize) && decide (c.bufferSize ≤ 4095)
/-- WF8 of 00_scope.md R9. -/
def wf8 (c : RawConfig) : Bool := decide (1 ≤ c.nVoices) && decide (c.nVoices ≤ 8)
/-- WF9 of 00_scope.md R9. -/
def wf9 (c : RawConfig) : Bool := decide (1 ≤ c.memSize) && decide (c.memSize ≤ 2 ^ 31 - 1)
/-- WF10 of 00_scope.md R9. -/
def wf10 (c : RawConfig) : Bool :=
  decide (16 * (c.numDir + c.numFiles) ≤ c.heapOffset) && decide (c.heapOffset ≤ c.imageSize)
/-- WF11 of 00_scope.md R9. -/
def wf11 (c : RawConfig) : Bool := decide (1 ≤ c.easing)
/-- WF12 of 00_scope.md R9. -/
def wf12 (c : RawConfig) : Bool := decide (c.numDir ≤ 65535) && decide (c.numFiles ≤ 65535)
/-- The platform check of 20_memory.md R43 (93_implementation_defined.md I12). -/
def wfPlain (c : RawConfig) : Bool := c.memIsPlain

/-- Every check of 00_scope.md R9 and the platform check of 20_memory.md R43. -/
def wf (c : RawConfig) : Bool :=
  c.wf1 && c.wf2 && c.wf3 && c.wf4 && c.wf5 && c.wf6 && c.wf7 && c.wf8 && c.wf9 && c.wf10 && c.wf11 && c.wf12 && c.wfPlain

end RawConfig

/-- A configuration a machine may be built from: 00_scope.md R9 says that a model refuses any other, so the checks are part
of the type. -/
structure Config where
  raw : RawConfig
  ok  : raw.wf = true
deriving DecidableEq, Repr

namespace Config

/-- Build a configuration, refusing one that fails a check (00_scope.md R9, 93_implementation_defined.md I11). -/
def build (r : RawConfig) : Option Config :=
  if h : r.wf = true then some ⟨r, h⟩ else none

/-- N_TABLES. -/
abbrev nTables (c : Config) : Nat := c.raw.nTables
/-- N_PRED. -/
abbrev nPred (c : Config) : Nat := c.raw.nPred

/-- STEP4[t], the list of 16 multipliers (DESIGN CHOICE outside 0..N_TABLES-1, where no command reads it: the empty list). -/
def step4List (c : Config) (t : Nat) : List Int :=
  match c.raw.tables[t]? with
  | some s => s.step4
  | none => []
/-- STEP4[t][j]. -/
def step4 (c : Config) (t j : Nat) : Int := (c.step4List t).getD j 0
/-- DELTA4[t][k]. -/
def delta4 (c : Config) (t k : Nat) : Int :=
  match c.raw.tables[t]? with
  | some s => s.delta4.getD k 0
  | none => 0
/-- DELTA8[t][m]. -/
def delta8 (c : Config) (t m : Nat) : Int :=
  match c.raw.tables[t]? with
  | some s => s.delta8.getD m 0
  | none => 0
/-- PRED_SEED[p]. -/
def seed (c : Config) (p : Nat) : Seed := c.raw.seeds.getD p ⟨0, 0, 0⟩

/-- The machine's free values: nothing is known of any of them. A step that needs one applies this constant to the counter
`MemPort.draws` of the state and advances the counter (log 6). -/
opaque freeValue : Nat → BitVec 32

/-- Configuration X of 95_test_vectors.md, unchecked. ENGINE_BASE has no value there: 0 (log 3). -/
def rawX : RawConfig where
  tables :=
    [ { step4  := [0, 1, 2, 3, 4, 5, 6, 7, -8, -7, -6, -5, -4, -3, -2, -1]
        delta4 := [-1, -1, 0, 0, 1, 1, 2, 2, 3]
        delta8 := List.replicate 8 (-1) ++ List.replicate 24 0 ++ List.replicate 32 1 ++ List.replicate 64 2 },
      { step4  := [-8, -6, -4, -3, -2, -1, 0, 0, 1, 2, 3, 4, 5, 6, 7, 8]
        delta4 := [-1, 0, 0, 1, 1, 1, 2, 2, 2]
        delta8 := List.replicate 16 (-1) ++ List.replicate 32 0 ++ List.replicate 80 1 } ]
  seeds := [⟨0, 0, 0⟩, ⟨0, 0, 4⟩]
  easing := 32
  bufferSize := 4
  nVoices := 2
  memSize := 0x1000
  engineBase := 0
  numDir := 4
  numFiles := 8
  heapOffset := 0xC0
  imageSize := 0x200
  memIsPlain := true

/-- Configuration X as a configuration: the one `Machine.State.reset` is built from (DESIGN CHOICE, log 3). -/
def x : Config := ⟨rawX, by decide +kernel⟩

end Config

end Sys2Proof
end

