-- ==== Sys2Proof/Machine/State.lean ====
section
/-! DEFINITION. The state of wav12ly-core as plain data, its faults and refusals, and the state after reset. -/

namespace Sys2Proof.Machine

/-- The error codes of STATUS.ECODE (60_exceptions.md R122). The reserved codes 8..15 are never produced. -/
inductive ErrCode where
  | none | illegal | voice | table | align | range | overlap | image
deriving DecidableEq, Repr

/-- The sequencer's phase (10_state.md R28), visible as STATUS.BUSY. -/
inductive Phase where
  | idle | busy
deriving DecidableEq, Repr

/-- A predictor state P (41_datapath.md, introduction): the decoder fields of a voice context (10_state.md R30), and the
shape of the private states E and D (R34). `prev1` and `prev2` are read signed. -/
structure Predictor where
  prev1  : BitVec 16
  prev2  : BitVec 16
  shift  : BitVec 4
  high   : Bool
  held   : Byte
  volsh  : BitVec 24
  voltgt : BitVec 24
deriving DecidableEq, Repr

/-- A voice context V[v] (10_state.md R30). `p` holds PREV1, PREV2, SHIFT, HIGH, HELD, VOLSH and VOLTGT. -/
structure Voice where
  bound  : Bool
  is8    : Bool
  odd    : Bool
  table  : BitVec 4
  pred   : BitVec 2
  base   : Word
  size   : Word
  cursor : Word
  total  : Word
  pos    : Word
  p      : Predictor
deriving DecidableEq, Repr

/-- A byte of the running command's footprint that the host has written since acceptance (20_memory.md R46, O3): the host's
latest value, and the values the byte held before the host's writes. -/
structure Race where
  addr : Nat
  host : Byte
  old  : List Byte
deriving DecidableEq, Repr

/-- MEM as the engine's memory port reaches it (20_memory.md R36): the bytes, in the canonical form of `Cells.wf`, the
racing host writes, and how many free values have been used. -/
structure MemPort where
  cells : List Host.Cell
  races : List Race
  draws : Nat
deriving DecidableEq, Repr

/-- ARG0..ARG7, with a mark for each that the host has written since reset (10_state.md R23). -/
structure ArgFile where
  val     : Vector Word 8
  written : Vector Bool 8
deriving DecidableEq, Repr

/-- What the world outside the block does to it. Register accesses carry the host address and the width in bytes
(10_state.md R17, R18); MEM accesses carry a MEM address (20_memory.md R46). -/
inductive HostAction where
  | readReg (addr width : Nat)
  | writeReg (addr width : Nat) (val : Word)
  | readMem (addr : Nat)
  | writeMem (addr : Nat) (val : Byte)
  /-- The reset input (70_reset_and_hazards.md R134). -/
  | reset
deriving DecidableEq, Repr

/-- One turn of the interleaving of host and engine (70_reset_and_hazards.md R143, 93_implementation_defined.md I16). -/
inductive Turn where
  | host (a : HostAction)
  | engine
deriving DecidableEq, Repr

/-- The architectural state (10_state.md R15), MEM, the configuration, and the model's own fields (`script`, `outbox`, and
the races and draws of `mem`; logs 1, 6, 7). -/
structure State where
  /-- The configuration the machine was built from (00_scope.md R8, R10): no step changes it. -/
  cfg      : Config
  /-- CTRL.IE (10_state.md R20). -/
  ie       : Bool
  /-- STATUS.BUSY (10_state.md R21, R28). -/
  phase    : Phase
  /-- STATUS.DONE (10_state.md R21). -/
  done     : Bool
  /-- STATUS.ERR (10_state.md R21). -/
  err      : Bool
  /-- STATUS.OVR (10_state.md R21). -/
  ovr      : Bool
  /-- STATUS.ECODE (10_state.md R21). -/
  ecode    : ErrCode
  /-- CMD, the latched command word (10_state.md R22, R28). -/
  cmd      : Word
  /-- ARG0..ARG7 (10_state.md R23). -/
  args     : ArgFile
  /-- The snapshot of ARG0..ARG7 taken at acceptance (10_state.md R28). -/
  snapshot : ArgFile
  /-- RES0..RES3 (10_state.md R24). -/
  res      : Vector Word 4
  /-- V[0]..V[7] (10_state.md R30); only V[0]..V[N_VOICES-1] exist (log 16). -/
  voices   : Vector Voice 8
  /-- WBUF (10_state.md R33). -/
  wbuf     : List Byte
  /-- MEM and its port (20_memory.md R36). -/
  mem      : MemPort
  /-- The turns still to come (log 1). -/
  script   : List Turn
  /-- What the host's reads have returned, newest first (log 1). -/
  outbox   : List Word
deriving DecidableEq, Repr

/-- Why the machine stops. Both are safe: the model stops where the hardware may go on. -/
inductive Fault where
  /-- Raised by a command that reads an ARG nothing has written since reset (10_state.md R23, 93_implementation_defined.md
  I3), at the engine's turn. Safe from that turn on; before it, log 21. -/
  | unwrittenArg (k : Fin 8)
  /-- Raised by a host access to a MEM address that does not exist (20_memory.md R36), and by EXPAND or FILL on a voice whose
  stream leaves MEM, which no run reaches (log 10). Safe. -/
  | memHole
deriving DecidableEq, Repr

/-- What the model does not admit. -/
inductive Refusal where
  /-- Raised by `exec` for an instruction that has no meaning yet. Safe. -/
  | notModelled (mnemonic : String)
  /-- Raised by a host register access whose width is not 4 bytes or whose address is not aligned (10_state.md R18,
  93_implementation_defined.md I10). Safe. -/
  | hostAccess
  /-- Raised by a host register access outside the block's 1 KiB (10_state.md R17): it does not reach this block. Safe. -/
  | outsideBlock
deriving DecidableEq, Repr

/-- What a step or a command answers. -/
abbrev Result := Host.Outcome State Fault Refusal

/-- The predictor fields of a voice after reset: unspecified in 10_state.md R30, 0 by DESIGN CHOICE (log 4). -/
def Predictor.reset : Predictor := ⟨0, 0, 0, false, 0, 0, 0⟩

/-- A voice after reset: BOUND = 0 (10_state.md R30), the rest 0 by DESIGN CHOICE (log 4). -/
def Voice.reset : Voice := ⟨false, false, false, 0, 0, 0, 0, 0, 0, 0, .reset⟩

/-- The ARG registers after reset: none written (10_state.md R23), value 0 by DESIGN CHOICE (log 4). -/
def ArgFile.reset : ArgFile := ⟨Vector.replicate 8 0, Vector.replicate 8 false⟩

/-- MEM with nothing listed. -/
def MemPort.empty : MemPort := ⟨[], [], 0⟩

/-- The block right after hardware reset, for any configuration, with nothing listed in MEM (70_reset_and_hazards.md R134). -/
def State.resetOf (c : Config) : State where
  cfg      := c
  ie       := false
  phase    := .idle
  done     := false
  err      := false
  ovr      := false
  ecode    := .none
  cmd      := 0
  args     := .reset
  snapshot := .reset
  res      := Vector.replicate 4 0
  voices   := Vector.replicate 8 .reset
  wbuf     := List.replicate c.raw.bufferSize 0
  mem      := .empty
  script   := []
  outbox   := []

/-- The machine right after reset, built from configuration X (DESIGN CHOICE, log 3). -/
def State.reset : State := State.resetOf Config.x

end Sys2Proof.Machine
end

