-- ==== Sys2Proof/Machine/Flags.lean ====
section
/-! DEFINITION. The STATUS and CTRL words, what a host write to them does, and the interrupt output (10_state.md R20, R21;
60_exceptions.md R122, R126). The engine has no other flags (10_state.md R29). -/

namespace Sys2Proof.Machine

/-- The code of an error in STATUS.ECODE (60_exceptions.md R122). -/
def ErrCode.bits : ErrCode → BitVec 4
  | .none => 0
  | .illegal => 1
  | .voice => 2
  | .table => 3
  | .align => 4
  | .range => 5
  | .overlap => 6
  | .image => 7

/-- STATUS.BUSY (10_state.md R28). -/
def State.busy (s : State) : Bool :=
  match s.phase with
  | .idle => false
  | .busy => true

/-- The STATUS word as the host reads it (10_state.md R21). -/
def State.statusWord (s : State) : Word :=
  (0 : BitVec 20) ++ s.ecode.bits ++ (0 : BitVec 4) ++
    BitVec.ofBool s.ovr ++ BitVec.ofBool s.err ++ BitVec.ofBool s.done ++ BitVec.ofBool s.busy

/-- The CTRL word as the host reads it: IE, and SRST reads 0 (10_state.md R20). -/
def State.ctrlWord (s : State) : Word := (0 : BitVec 31) ++ BitVec.ofBool s.ie

/-- A host write to STATUS: W1C for DONE, ERR and OVR, and ECODE becomes 0 when ERR is cleared (10_state.md R21). This is
the exit from an error (60_exceptions.md R125). -/
def State.writeStatus (s : State) (v : Word) : State :=
  { s with
    done  := s.done && !v.getLsbD 1
    err   := s.err && !v.getLsbD 2
    ecode := if v.getLsbD 2 then .none else s.ecode
    ovr   := s.ovr && !v.getLsbD 3 }

/-- A host write to CTRL with SRST = 0: it only updates IE (70_reset_and_hazards.md R135). -/
def State.writeIE (s : State) (v : Word) : State := { s with ie := v.getLsbD 0 }

/-- The interrupt output IRQ = CTRL.IE & (STATUS.DONE | STATUS.ERR) (60_exceptions.md R126). -/
def State.irq (s : State) : Bool := s.ie && (s.done || s.err)

end Sys2Proof.Machine
end

