-- ==== Sys2Proof/Machine/Ops.lean ====
section
/-! DEFINITION. The named operations over MEM and the registers, the checks of a command, and the command lifecycle:
acceptance, completion, raising an error and leaving it (40_lifecycle.md, 60_exceptions.md). -/

namespace Sys2Proof.Machine

/-! ### MEM -/

/-- What a byte of MEM that is not listed reads as (DESIGN CHOICE, log 5). -/
def unlisted : Byte := 0

/-- The canonical form of a list of cells from address `lo` up: addresses strictly rising, no cell equal to what an unlisted
address reads as. -/
def Cells.wfFrom : Nat → List Host.Cell → Bool
  | _, [] => true
  | lo, (a, v) :: rest => decide (lo ≤ a) && (v != unlisted) && Cells.wfFrom (a + 1) rest

/-- The canonical form of MEM's cells. -/
def Cells.wf (cs : List Host.Cell) : Bool := Cells.wfFrom 0 cs

/-- The canonical form of MEM. -/
def MemPort.wf (p : MemPort) : Bool := Cells.wf p.cells

/-- The byte at an address. -/
def Cells.read : List Host.Cell → Nat → Byte
  | [], _ => unlisted
  | (k, v) :: rest, a => if k = a then v else Cells.read rest a

/-- Write a byte, keeping the canonical form. -/
def Cells.write : List Host.Cell → Nat → Byte → List Host.Cell
  | [], a, b => if b = unlisted then [] else [(a, b)]
  | (k, v) :: rest, a, b =>
    if a < k then (if b = unlisted then (k, v) :: rest else (a, b) :: (k, v) :: rest)
    else if a = k then (if b = unlisted then rest else (a, b) :: rest)
    else (k, v) :: Cells.write rest a b

/-- The byte MEM holds at an address now: the model's read of one byte, without the engine's port. -/
def MemPort.peek (p : MemPort) (a : Nat) : Byte := Cells.read p.cells a

/-- Put a byte into MEM: the host's write outside a running command's footprint (20_memory.md R43, R46 O5). -/
def MemPort.poke (p : MemPort) (a : Nat) (b : Byte) : MemPort := { p with cells := Cells.write p.cells a b }

/-- The racing host write to an address, if there is one (20_memory.md R46, O3). -/
def MemPort.raceAt (p : MemPort) (a : Nat) : Option Race := p.races.find? fun r => r.addr == a

/-- The next free value, and the port with one more used (log 6). -/
def MemPort.draw (p : MemPort) : Word × MemPort := (Config.freeValue p.draws, { p with draws := p.draws + 1 })

/-- One byte read by the engine: what MEM holds (20_memory.md R43), or, for a byte the host has written during the command,
any of its values since acceptance (R46, O3). -/
def MemPort.read (p : MemPort) (a : Nat) : Byte × MemPort :=
  match p.raceAt a with
  | none => (p.peek a, p)
  | some r =>
    let values := p.peek a :: r.host :: r.old
    let (w, p') := p.draw
    (values.getD (w.toNat % values.length) (p.peek a), p')

/-- One byte written by the engine; a byte the host has also written during the command ends with either value
(20_memory.md R46, O3). -/
def MemPort.write (p : MemPort) (a : Nat) (b : Byte) : MemPort :=
  match p.raceAt a with
  | none => p.poke a b
  | some r =>
    let (w, p') := p.draw
    p'.poke a (if w.getLsbD 0 then b else r.host)

/-- `n` bytes read upward from an address. -/
def MemPort.readBytes (p : MemPort) (a : Nat) : Nat → List Byte × MemPort
  | 0 => ([], p)
  | n + 1 =>
    let (b, p') := p.read a
    let (bs, p'') := p'.readBytes (a + 1) n
    (b :: bs, p'')

/-- The little-endian value of some bytes (20_memory.md R38). -/
def leValue : List Byte → Nat
  | [] => 0
  | b :: bs => b.toNat + 256 * leValue bs

/-- `MemRead(addr, n)` (00_scope.md R13): the unsigned little-endian value of `n` bytes. -/
def MemPort.readLE (p : MemPort) (a n : Nat) : Nat × MemPort :=
  let (bs, p') := p.readBytes a n
  (leValue bs, p')

/-- `MemWrite(addr, n, val)` (00_scope.md R13): the low 8n bits, least significant byte first. -/
def MemPort.writeLE (p : MemPort) (a : Nat) : Nat → Nat → MemPort
  | 0, _ => p
  | n + 1, v => (p.write a (BitVec.ofNat 8 v)).writeLE (a + 1) n (v / 256)

/-- Any value in each of `n` bytes from an address up: what a reset that abandons a command leaves in the bytes the command
writes (70_reset_and_hazards.md R136). -/
def MemPort.scramble (p : MemPort) (a : Nat) : Nat → MemPort
  | 0 => p
  | n + 1 =>
    let (w, p') := p.draw
    (p'.poke a (w.setWidth 8)).scramble (a + 1) n

/-! ### Registers and voices -/

/-- ARGk as the running command reads it: the snapshot of its acceptance (10_state.md R28, 40_lifecycle.md R62). -/
def State.arg (s : State) (k : Fin 8) : Word := s.snapshot.val[k]

/-- V[v] (10_state.md R30). -/
def State.voice (s : State) (v : Nat) : Voice := s.voices.toList.getD v .reset

/-- `V[v] <- x`. -/
def State.setVoice (s : State) (v : Nat) (x : Voice) : State := { s with voices := s.voices.setIfInBounds v x }

/-- `RESk <- v` (10_state.md R24). -/
def State.setRes (s : State) (k : Fin 4) (v : Word) : State := { s with res := s.res.set k v }

/-- Write an ARG register and mark it written (10_state.md R23). -/
def ArgFile.write (f : ArgFile) (k : Fin 8) (v : Word) : ArgFile := ⟨f.val.set k v, f.written.set k true⟩

/-! ### Lifecycle -/

/-- Acceptance of a command word (40_lifecycle.md R62): CMD, DONE, ERR, ECODE, the phase, and the snapshot of the ARGs
(10_state.md R28). OVR is unchanged. No race is open yet. -/
def State.accept (s : State) (w : Word) : State :=
  { s with
    cmd := w
    done := false
    err := false
    ecode := .none
    phase := .busy
    snapshot := s.args
    mem := { s.mem with races := [] } }

/-- Completion (40_lifecycle.md R66): DONE is set, the phase is IDLE. The command's races end with it. -/
def State.complete (s : State) : State :=
  { s with
    done := true
    phase := .idle
    mem := { s.mem with races := [] } }

/-- `raise Error(code)`, the entry into an error (40_lifecycle.md R65, 60_exceptions.md R124): ERR and ECODE are set, and the
command completes; nothing else changes. The one operation every error of every command goes through. -/
def State.raiseError (s : State) (c : ErrCode) : State := { s with err := true, ecode := c }.complete

/-- The block at its reset values, everything outside it as it was (70_reset_and_hazards.md R134): MEM, the configuration,
and the model's script and outbox. The bytes of an abandoned command are the caller's (R136). -/
def State.resetBlock (s : State) : State :=
  { State.resetOf s.cfg with
    mem := { s.mem with races := [] }
    script := s.script
    outbox := s.outbox }

/-! ### Validation -/

/-- What a command's validation answers. -/
inductive Verdict where
  | pass
  | error (c : ErrCode)
  | fault (f : Fault)
deriving DecidableEq, Repr

/-- One check of a command (40_lifecycle.md R64): the ARGs it reads, whether it fails, and what follows if it does. -/
structure Check where
  reads : List (Fin 8)
  fails : Bool
  answer : Verdict
deriving DecidableEq, Repr

/-- The check is one of 40_lifecycle.md R64: where it fails it raises an error. The others ask for an ARG that is read after
validation (log 9) or for a stream inside MEM (log 10). -/
def Check.raisesError (c : Check) : Bool :=
  match c.answer with
  | .error _ => true
  | .pass => false
  | .fault _ => false

/-- The checks in their order; the first that fails answers (40_lifecycle.md R64). A check that reads an ARG nothing has
written since reset stops the machine (10_state.md R23, 93_implementation_defined.md I3). -/
def validate (f : ArgFile) : List Check → Verdict
  | [] => .pass
  | c :: cs =>
    match c.reads.find? fun k => !f.written[k] with
    | some k => .fault (.unwrittenArg k)
    | none => if c.fails then c.answer else validate f cs

/-- A command: validation, then its effect, then completion (40_lifecycle.md R64, R65, R66). The effect answers an error
only in a lookup (IMAGE). -/
def command (checks : List Check) (effect : State → Option ErrCode × State) (s : State) : Result :=
  match validate s.snapshot checks with
  | .fault f => .fault f
  | .error c => .next (s.raiseError c)
  | .pass =>
    match effect s with
    | (none, s') => .next s'.complete
    | (some c, s') => .next (s'.raiseError c)

/-- A command whose effect raises no error. -/
def plainCommand (checks : List Check) (effect : State → State) (s : State) : Result :=
  command checks (fun s => (none, effect s)) s

end Sys2Proof.Machine
end

