-- ==== Sys2Proof/Machine/Operands.lean ====
section
/-! DEFINITION. The operands of the commands: what each ARG register means (30_encoding.md R56), the buffers they name with
their lengths (20_memory.md R37, R40, 40_lifecycle.md R69), and the checks over them (40_lifecycle.md R64). -/

namespace Sys2Proof.Machine

/-! ### Buffers -/

/-- A run of MEM bytes: a base address and a length. -/
structure Region where
  base : Nat
  len  : Nat
deriving DecidableEq, Repr

/-- The address lies in the region. -/
def Region.has (r : Region) (a : Nat) : Bool := decide (r.base ≤ a) && decide (a < r.base + r.len)

/-- `InRange(a, len)` (20_memory.md R40). -/
def Region.inRange (memSize : Nat) (r : Region) : Bool := r.len == 0 || decide (r.base + r.len ≤ memSize)

/-- `Overlap(a, la, b, lb)` (20_memory.md R41). -/
def Region.overlaps (r q : Region) : Bool :=
  decide (0 < r.len) && decide (0 < q.len) && (decide (r.base < q.base + q.len) && decide (q.base < r.base + r.len))

/-- The byte count of `n` packed 4-bit codes, ceil(n/2) (20_memory.md R40, 41_datapath.md R86). -/
def packedLen (n : Nat) : Nat := (n + 1) >>> 1

/-- The code buffer length of `n` samples (20_memory.md R40). -/
def codeLen (is8 : Bool) (n : Nat) : Nat := if is8 then n else packedLen n

/-- Bits 15:0 of a register. -/
def lowHalf (w : Word) : Nat := w.toNat % 65536
/-- Bits 31:16 of a register. -/
def highHalf (w : Word) : Nat := w.toNat / 65536

/-! ### Operands of the codec commands and SELECT: ARG0, ARG1, ARG2 -/

/-- ARG0 of a codec command or SELECT: the buffer read. -/
def State.srcBase (s : State) : Nat := (s.arg 0).toNat
/-- ARG1 of a codec command, SELECT or EXPAND: the sample count n. -/
def State.count (s : State) : Nat := (s.arg 1).toNat
/-- ARG2 of a codec command or SELECT: the buffer written. -/
def State.dstBase (s : State) : Nat := (s.arg 2).toNat
/-- The sample buffer of ENC4, ENC8, SELECT: 2n bytes. -/
def State.sampleRegion (s : State) : Region := ⟨s.srcBase, 2 * s.count⟩
/-- The code buffer ENC4, ENC8, SELECT write. -/
def State.codeOut (s : State) (is8 : Bool) : Region := ⟨s.dstBase, codeLen is8 s.count⟩
/-- The code buffer DEC4, DEC8 read. -/
def State.codeIn (s : State) (is8 : Bool) : Region := ⟨s.srcBase, codeLen is8 s.count⟩
/-- The frame buffer DEC4, DEC8 write: 8n bytes. -/
def State.decFrames (s : State) : Region := ⟨s.dstBase, 8 * s.count⟩
/-- ARG3 bits 15:0 of DEC4, DEC8: the volume. -/
def State.decVolume (s : State) : Nat := lowHalf (s.arg 3)

/-! ### Operands of the expander -/

/-- ARG0 of BIND and, for EXPAND, the frame buffer base. -/
def State.base0 (s : State) : Nat := (s.arg 0).toNat
/-- The frame buffer of EXPAND. -/
def State.expandFrames (s : State) : Region := ⟨s.base0, 8 * s.count⟩
/-- The samples EXPAND produces at most: min(n, TOTAL - POS) (43_expander.md R103). -/
def State.wanted (s : State) (v : Nat) : Nat := min s.count ((s.voice v).total.toNat - (s.voice v).pos.toNat)
/-- The frames EXPAND writes: those of the samples it produces (43_expander.md R105). -/
def State.producedFrames (s : State) (v : Nat) : Region := ⟨s.base0, 8 * s.wanted v⟩
/-- ARG2 bits 15:0 of EXPAND: the volume. -/
def State.expandVolume (s : State) : Nat := lowHalf (s.arg 2)
/-- The stream of a voice (20_memory.md R40). -/
def Voice.stream (v : Voice) : Region := ⟨v.base.toNat, v.size.toNat⟩
/-- Bit v of ARG0 of FILL: voice v is mixed. -/
def State.inFill (s : State) (v : Nat) : Bool := (s.arg 0).getLsbD v
/-- Bit v of ARG1 of FILL: voice v loops. -/
def State.loops (s : State) (v : Nat) : Bool := (s.arg 1).getLsbD v
/-- ARG3 of FILL: the frame count. -/
def State.fillCount (s : State) : Nat := (s.arg 3).toNat
/-- The frame buffer of FILL: ARG2 and 8n bytes. -/
def State.fillFrames (s : State) : Region := ⟨(s.arg 2).toNat, 8 * s.fillCount⟩
/-- The ARG that holds the volume of voice v in FILL: ARG(4 + (v >> 1)) (43_expander.md R109). -/
def volumeArg (v : Nat) : Fin 8 := Fin.ofNat 8 (4 + v % 8 / 2)
/-- vol_v of FILL: half v & 1 of its ARG (43_expander.md R109). -/
def State.fillVolume (s : State) (v : Nat) : Nat :=
  if v % 2 = 0 then lowHalf (s.arg (volumeArg v)) else highHalf (s.arg (volumeArg v))
/-- The voices of FILL's mask in increasing order, those the mask can name (bits 7:0). -/
def State.fillVoices (s : State) : List Nat := (List.range 8).filter s.inFill

/-! ### Operands of the lookups -/

/-- The four bytes of a register, least significant first. -/
def wordBytes (w : Word) : List Byte :=
  [w.extractLsb' 0 8, w.extractLsb' 8 8, w.extractLsb' 16 8, w.extractLsb' 24 8]
/-- A name packed into two ARGs, little-endian (30_encoding.md R56). -/
def State.name (s : State) (a b : Fin 8) : List Byte := wordBytes (s.arg a) ++ wordBytes (s.arg b)
/-- The image bytes a lookup's RANGE check covers: [I, I + HEAP_OFFSET) (20_memory.md R40, 45_manifest.md R113). -/
def State.image (s : State) : Region := ⟨s.base0, s.cfg.raw.heapOffset⟩

/-! ### Checks -/

/-- A check that raises an error. -/
def Check.raises (c : ErrCode) (reads : List (Fin 8)) (fails : Bool) : Check := ⟨reads, fails, .error c⟩

/-- An argument is read after validation: no error, but it must have been written (10_state.md R23). -/
def Check.needs (reads : List (Fin 8)) : Check := ⟨reads, false, .pass⟩

/-- TABLE: t >= N_TABLES or p >= N_PRED (60_exceptions.md R122). -/
def checkPair (s : State) (t : BitVec 4) (p : BitVec 2) : Check :=
  .raises .table [] (decide (s.cfg.nTables ≤ t.toNat) || decide (s.cfg.nPred ≤ p.toNat))

/-- ALIGN: a base that is no multiple of `k` (20_memory.md R39). -/
def checkAlign (reads : List (Fin 8)) (base k : Nat) : Check := .raises .align reads (base % k != 0)

/-- RANGE (20_memory.md R40). -/
def checkRange (s : State) (reads : List (Fin 8)) (r : Region) : Check :=
  .raises .range reads (!r.inRange s.cfg.raw.memSize)

/-- OVERLAP: the written buffer against a read one (20_memory.md R41). -/
def checkOverlap (reads : List (Fin 8)) (written read : Region) : Check := .raises .overlap reads (written.overlaps read)

/-- ILLEGAL: bits of an argument that must be 0: those from bit `k` up (30_encoding.md R56). -/
def checkHighBits (k : Fin 8) (s : State) (bit : Nat) : Check :=
  .raises .illegal [k] ((s.arg k) >>> bit != 0)

/-- VOICE: v >= N_VOICES (60_exceptions.md R122). -/
def checkVoice (s : State) (v : Nat) : Check := .raises .voice [] (decide (s.cfg.raw.nVoices ≤ v))

/-- VOICE: V[v] is not bound (60_exceptions.md R122). -/
def checkBound (s : State) (v : Nat) : Check := .raises .voice [] (!(s.voice v).bound)

/-- A bound stream that leaves MEM: no run reaches it, since BIND checks the range (43_expander.md R102); the model stops
rather than read an address that does not exist (20_memory.md R36; log 10). -/
def checkStream (s : State) (v : Nat) : Check := ⟨[], !(s.voice v).stream.inRange s.cfg.raw.memSize, .fault .memHole⟩

end Sys2Proof.Machine
end

