-- ==== Sys2Proof/Machine/Datapath.lean ====
section
/-! DEFINITION. The S4ADPCM datapath: the per-sample primitives of 41_datapath.md over a predictor state. Every intermediate
value is an integer; the only narrowings are `clamp16`, `sat32`, the shift clamps and the magnitude clamp (R93). -/

namespace Sys2Proof.Machine

/-- `clamp16(v)` (00_scope.md R13). -/
def clamp16 (v : Int) : Int := clamp v (-32768) 32767

/-- `sat32(v)` (00_scope.md R13). -/
def sat32 (v : Int) : Int := clamp v (-2147483648) 2147483647

/-- A value in the 16-bit range. -/
def legal16 (v : Int) : Bool := decide (-32768 ≤ v) && decide (v ≤ 32767)

/-! ### Prediction, scale, adaptation -/

/-- `guess(P)` (R72). -/
def Predictor.guess (p : Predictor) : Int := clamp16 (2 * p.prev1.toInt - p.prev2.toInt)

/-- `mult(P) = 1 << P.shift` (R73). -/
def Predictor.mult (p : Predictor) : Int := 2 ^ p.shift.toNat

/-- The history advances by a reconstructed sample (R74). -/
def Predictor.push (p : Predictor) (r : Int) : Predictor := { p with prev2 := p.prev1, prev1 := BitVec.ofInt 16 r }

/-- The shift moves by `delta`, clamped to 0..limit (R75, R76). -/
def Predictor.adapt (p : Predictor) (delta : Int) (limit : Nat) : Predictor :=
  { p with shift := BitVec.ofNat 4 (clamp (p.shift.toNat + delta) 0 limit).toNat }

/-- Shift adaptation after an S4ADPCM-4 sample with code c (R75): indexed by |STEP4[t][c]|. -/
def Predictor.adapt4 (cfg : Config) (t : Nat) (p : Predictor) (c : Nat) : Predictor :=
  p.adapt (cfg.delta4 t (cfg.step4 t c).natAbs) shiftLimit4

/-- Shift adaptation after an S4ADPCM-8 sample with magnitude m (R76). -/
def Predictor.adapt8 (cfg : Config) (t : Nat) (p : Predictor) (m : Nat) : Predictor :=
  p.adapt (cfg.delta8 t m) shiftLimit8

/-! ### S4ADPCM-4 -/

/-- The search of R77 over the step entries from index `j` up: the legal candidate with the smallest error so far, as its
index and reconstruction, the lowest index winning a tie. -/
def search4 (g mu value : Int) : List Int → Nat → Option (Nat × Int) → Option (Nat × Int)
  | [], _, best => best
  | step :: steps, j, best =>
    let r := g + mu * step
    let better := match best with
      | none => true
      | some (_, rBest) => decide ((r - value).natAbs < (rBest - value).natAbs)
    search4 g mu value steps (j + 1) (if legal16 r && better then some (j, r) else best)

/-- The code and reconstruction the 4-bit encoder chooses (R77). A legal candidate always exists (WF3 of 00_scope.md R9);
without one the answer would be code 0 and the guess. -/
def choose4 (cfg : Config) (t : Nat) (p : Predictor) (value : Int) : Nat × Int :=
  (search4 p.guess p.mult value (cfg.step4List t) 0 none).getD (0, p.guess)

/-- The reconstruction of code c by the 4-bit decoder (R78). -/
def reconstruct4 (cfg : Config) (t : Nat) (p : Predictor) (c : Nat) : Int :=
  clamp16 (p.guess + p.mult * cfg.step4 t c)

/-- `Enc4Step(P, t, value) -> (c, p)` and the state after it (R81). -/
def enc4Step (cfg : Config) (t : Nat) (p : Predictor) (value : Int) : BitVec 4 × Int × Predictor :=
  let (c, r) := choose4 cfg t p value
  (BitVec.ofNat 4 c, r, (p.push r).adapt4 cfg t c)

/-- `Dec4Step(P, t, c) -> p` and the state after it (R82). -/
def dec4Step (cfg : Config) (t : Nat) (p : Predictor) (c : BitVec 4) : Int × Predictor :=
  let r := reconstruct4 cfg t p c.toNat
  (r, (p.push r).adapt4 cfg t c.toNat)

/-! ### S4ADPCM-8 -/

/-- `s ? -m : m` (R79, R80). -/
def signed (s : Bool) (m : Nat) : Int := if s then -(m : Int) else m

/-- The magnitude the 8-bit encoder rounds to, at most 127, before the range is looked at (R79). -/
def roundedMag (p : Predictor) (err : Int) : Nat :=
  min ((err.natAbs + ((2 ^ p.shift.toNat - 1) >>> 1)) >>> p.shift.toNat) 127

/-- The sign and magnitude the 8-bit encoder emits (R79): a reconstruction that would leave 16 bits is pulled back by the
re-derived magnitude. -/
def choose8 (p : Predictor) (value : Int) : Bool × Nat :=
  let g := p.guess
  let err := value - g
  let s := decide (err < 0)
  let m := roundedMag p err
  let r := g + signed s m * p.mult
  if r > 32767 then (s, (32767 - g).toNat >>> p.shift.toNat)
  else if r < -32768 then (s, (g + 32768).toNat >>> p.shift.toNat)
  else (s, m)

/-- The code byte of a sign and a magnitude: `(s << 7) | m` (R79, 30_encoding.md R58). -/
def codeByte (s : Bool) (m : Nat) : Byte := BitVec.ofBool s ++ BitVec.ofNat 7 m

/-- The sign of a code byte (30_encoding.md R58). -/
def byteSign (b : Byte) : Bool := b.getLsbD 7
/-- The magnitude of a code byte (30_encoding.md R58). -/
def byteMag (b : Byte) : Nat := b.toNat % 128

/-- The reconstruction of byte b by the 8-bit decoder (R80). -/
def reconstruct8 (p : Predictor) (b : Byte) : Int :=
  clamp16 (p.guess + signed (byteSign b) (byteMag b) * p.mult)

/-- `Enc8Step(P, t, value) -> (b, p)` and the state after it (R83). -/
def enc8Step (cfg : Config) (t : Nat) (p : Predictor) (value : Int) : Byte × Int × Predictor :=
  let (s, m) := choose8 p value
  let b := codeByte s m
  let r := p.guess + signed s m * p.mult
  (b, r, (p.push r).adapt8 cfg t (byteMag b))

/-- `Dec8Step(P, t, b) -> p` and the state after it (R84). -/
def dec8Step (cfg : Config) (t : Nat) (p : Predictor) (b : Byte) : Int × Predictor :=
  let r := reconstruct8 p b
  (r, (p.push r).adapt8 cfg t (byteMag b))

/-! ### Packing -/

/-- A byte of two codes, the earlier in the low nibble (R86). -/
def packCodes (lo hi : BitVec 4) : Byte := hi ++ lo
/-- The low nibble of a byte. -/
def lowNibble (b : Byte) : BitVec 4 := b.extractLsb' 0 4
/-- The high nibble of a byte. -/
def highNibble (b : Byte) : BitVec 4 := b.extractLsb' 4 4

/-- The next code from the held byte, no byte fetched (R87, first case). -/
def Predictor.takeHigh (p : Predictor) : BitVec 4 × Predictor := (highNibble p.held, { p with high := false })
/-- The next code from a fetched byte (R87, second case). -/
def Predictor.takeLow (p : Predictor) (b : Byte) : BitVec 4 × Predictor := (lowNibble b, { p with held := b, high := true })

/-! ### Error metric -/

/-- One term of SSE (R88). -/
def sqErr (value r : Int) : Nat := (value - r).natAbs ^ 2

/-- MSE (R88). -/
def mse (sse n : Nat) : Nat := if 0 < n then sse / n else 0

/-! ### Volume and output -/

/-- `VolSet(P, vol, OVE)` (R89). -/
def Predictor.volSet (p : Predictor) (vol : Nat) (ove : Bool) : Predictor :=
  let target := BitVec.ofNat 24 (vol <<< vshift)
  { p with voltgt := target, volsh := if ove then target else p.volsh }

/-- One easing step (R90). -/
def Predictor.ease (cfg : Config) (p : Predictor) : Predictor :=
  if p.volsh.toNat < p.voltgt.toNat then
    { p with volsh := BitVec.ofNat 24 (min (p.volsh.toNat + cfg.raw.easing) p.voltgt.toNat) }
  else if p.voltgt.toNat < p.volsh.toNat then
    { p with volsh := BitVec.ofNat 24 (max (p.volsh.toNat - cfg.raw.easing) p.voltgt.toNat) }
  else p

/-- The output value of a reconstructed sample (R91). -/
def Predictor.scale (p : Predictor) (r : Int) : Int := (r * p.volsh.toNat) >>> (8 + vshift)

/-- One word of a frame is written, or added into with saturation (R92). -/
def emitWord (add : Bool) (o : Int) (a : Nat) (port : MemPort) : MemPort :=
  if add then
    let (old, port') := port.readLE a 4
    port'.writeLE a 4 (BitVec.ofInt 32 (sat32 ((BitVec.ofNat 32 old).toInt + o))).toNat
  else port.writeLE a 4 (BitVec.ofInt 32 o).toNat

/-- `Emit(d, k, o, ADD)`: frame k of frame buffer d, the left word before the right (R92, 30_encoding.md R59). -/
def emitFrame (add : Bool) (d k : Nat) (o : Int) (port : MemPort) : MemPort :=
  emitWord add o (d + 8 * k + 4) (emitWord add o (d + 8 * k) port)

/-! ### Seeding -/

/-- The predictor fields from PRED_SEED[p], HIGH = 0, HELD = 0 and both volume fields at `vol` (42_codec.md Seed(p),
43_expander.md R102). -/
def seeded (cfg : Config) (pred : Nat) (vol : Nat) : Predictor where
  prev1  := BitVec.ofInt 16 (cfg.seed pred).prev1
  prev2  := BitVec.ofInt 16 (cfg.seed pred).prev2
  shift  := BitVec.ofNat 4 (cfg.seed pred).shift
  high   := false
  held   := 0
  volsh  := BitVec.ofNat 24 vol
  voltgt := BitVec.ofNat 24 vol

/-- Unity volume, `VOLUME_UNITY << VSHIFT` (42_codec.md R96). -/
def unityVol : Nat := volumeUnity <<< vshift

/-- A signed 16-bit sample read from a sample buffer (40_lifecycle.md R69). -/
def readSample (port : MemPort) (a : Nat) : Int × MemPort :=
  let (v, port') := port.readLE a 2
  ((BitVec.ofNat 16 v).toInt, port')

end Sys2Proof.Machine
end

