-- ==== Sys2Proof/Machine/Codec.lean ====
section
/-! DEFINITION. The codec commands ENC4, DEC4, ENC8, DEC8 (42_codec.md R95..R98), each over a private predictor state. -/

namespace Sys2Proof.Machine

/-! ### Encoding -/

/-- What an encoding pass carries: the private state E, SSE, the low nibble not yet written, and MEM. -/
structure EncRun where
  e    : Predictor
  sse  : Nat
  lo   : BitVec 4
  port : MemPort

/-- One sample of ENC4 (R95): sample i is read, coded, and every second code written with the one before it. -/
def enc4Sample (cfg : Config) (t src dst i : Nat) (r : EncRun) : EncRun :=
  let (value, port) := readSample r.port (src + 2 * i)
  let (c, p, e) := enc4Step cfg t r.e value
  let sse := r.sse + sqErr value p
  if i % 2 = 0 then ⟨e, sse, c, port⟩
  else ⟨e, sse, r.lo, port.write (dst + (i >>> 1)) (packCodes r.lo c)⟩

/-- One sample of ENC8 (R97). -/
def enc8Sample (cfg : Config) (t src dst i : Nat) (r : EncRun) : EncRun :=
  let (value, port) := readSample r.port (src + 2 * i)
  let (b, p, e) := enc8Step cfg t r.e value
  ⟨e, r.sse + sqErr value p, r.lo, port.write (dst + i) b⟩

/-- `n` iterations of a loop body from index `i` up (00_scope.md R14). -/
def forUp {α : Type} (body : Nat → α → α) : Nat → Nat → α → α
  | 0, _, a => a
  | n + 1, i, a => forUp body n (i + 1) (body i a)

/-- The encoding pass of ENC4: n samples, then the last half-filled byte with pad nibble 0 when n is odd (R95, 41 R86). -/
def encode4 (cfg : Config) (t pred src n dst : Nat) (port : MemPort) : EncRun :=
  let r := forUp (enc4Sample cfg t src dst) n 0 ⟨seeded cfg pred 0, 0, 0, port⟩
  if n % 2 = 1 then { r with port := r.port.write (dst + (n >>> 1)) (packCodes r.lo 0) } else r

/-- The encoding pass of ENC8 (R97). -/
def encode8 (cfg : Config) (t pred src n dst : Nat) (port : MemPort) : EncRun :=
  forUp (enc8Sample cfg t src dst) n 0 ⟨seeded cfg pred 0, 0, 0, port⟩

/-- The results of an encoding: RES1 and RES2 hold SSE, RES3 the MSE (R95, R97, 44 R110). -/
def State.setError (s : State) (sse n : Nat) : State :=
  ((s.setRes 1 (BitVec.ofNat 32 sse)).setRes 2 (BitVec.ofNat 32 (sse / 2 ^ 32))).setRes 3 (BitVec.ofNat 32 (mse sse n))

/-- The checks of ENC4 and ENC8 in their order (R95, R97). -/
def encChecks (is8 : Bool) (t : BitVec 4) (p : BitVec 2) (s : State) : List Check :=
  [ checkPair s t p,
    checkAlign [0] s.srcBase 2,
    checkRange s [0, 1] s.sampleRegion,
    checkRange s [2, 1] (s.codeOut is8),
    checkOverlap [2, 1, 0] (s.codeOut is8) s.sampleRegion ]

/-- The effect of ENC4 (R95). -/
def enc4Effect (t : BitVec 4) (p : BitVec 2) (s : State) : State :=
  let r := encode4 s.cfg t.toNat p.toNat s.srcBase s.count s.dstBase s.mem
  ({ s with mem := r.port }.setRes 0 (BitVec.ofNat 32 (packedLen s.count))).setError r.sse s.count

/-- The effect of ENC8 (R97). -/
def enc8Effect (t : BitVec 4) (p : BitVec 2) (s : State) : State :=
  let r := encode8 s.cfg t.toNat p.toNat s.srcBase s.count s.dstBase s.mem
  ({ s with mem := r.port }.setRes 0 (BitVec.ofNat 32 s.count)).setError r.sse s.count

/-- ENC4 (R95). -/
def execEnc4 (t : BitVec 4) (p : BitVec 2) (s : State) : Result :=
  plainCommand (encChecks false t p s) (enc4Effect t p) s

/-- ENC8 (R97). -/
def execEnc8 (t : BitVec 4) (p : BitVec 2) (s : State) : Result :=
  plainCommand (encChecks true t p s) (enc8Effect t p) s

/-! ### Decoding -/

/-- What a decoding pass carries: the private state E and MEM. -/
structure DecRun where
  e    : Predictor
  port : MemPort

/-- A reconstructed sample is eased, scaled and emitted as frame i (R96, R98). -/
def decEmit (cfg : Config) (add : Bool) (dst i : Nat) (r : Int) (e : Predictor) (port : MemPort) : DecRun :=
  let e' := e.ease cfg
  ⟨e', emitFrame add dst i (e'.scale r) port⟩

/-- One sample of DEC4 (R96): a byte is read only when HIGH = 0. -/
def dec4Sample (cfg : Config) (t src dst : Nat) (add : Bool) (i : Nat) (r : DecRun) : DecRun :=
  if r.e.high then
    let (c, e) := r.e.takeHigh
    let (p, e) := dec4Step cfg t e c
    decEmit cfg add dst i p e r.port
  else
    let (b, port) := r.port.read (src + (i >>> 1))
    let (c, e) := r.e.takeLow b
    let (p, e) := dec4Step cfg t e c
    decEmit cfg add dst i p e port

/-- One sample of DEC8 (R98). -/
def dec8Sample (cfg : Config) (t src dst : Nat) (add : Bool) (i : Nat) (r : DecRun) : DecRun :=
  let (b, port) := r.port.read (src + i)
  let (p, e) := dec8Step cfg t r.e b
  decEmit cfg add dst i p e port

/-- The state E at the start of a decoding command: the seed, unity volume, then the volume set (R96, R98). -/
def decStart (cfg : Config) (pred vol : Nat) (ove : Bool) : Predictor :=
  (seeded cfg pred unityVol).volSet vol ove

/-- The decoding pass of DEC4 (R96). -/
def decode4 (cfg : Config) (t pred src n dst vol : Nat) (add ove : Bool) (port : MemPort) : DecRun :=
  forUp (dec4Sample cfg t src dst add) n 0 ⟨decStart cfg pred vol ove, port⟩

/-- The decoding pass of DEC8 (R98). -/
def decode8 (cfg : Config) (t pred src n dst vol : Nat) (add ove : Bool) (port : MemPort) : DecRun :=
  forUp (dec8Sample cfg t src dst add) n 0 ⟨decStart cfg pred vol ove, port⟩

/-- The checks of DEC4 and DEC8 in their order (R96, R98). -/
def decChecks (is8 : Bool) (t : BitVec 4) (p : BitVec 2) (s : State) : List Check :=
  [ checkHighBits 3 s 16,
    checkPair s t p,
    checkAlign [2] s.dstBase 4,
    checkRange s [0, 1] (s.codeIn is8),
    checkRange s [2, 1] s.decFrames,
    checkOverlap [2, 1, 0] s.decFrames (s.codeIn is8) ]

/-- The effect of DEC4 (R96). -/
def dec4Effect (t : BitVec 4) (p : BitVec 2) (add ove : Bool) (s : State) : State :=
  let r := decode4 s.cfg t.toNat p.toNat s.srcBase s.count s.dstBase s.decVolume add ove s.mem
  { s with mem := r.port }.setRes 0 (BitVec.ofNat 32 s.count)

/-- The effect of DEC8 (R98). -/
def dec8Effect (t : BitVec 4) (p : BitVec 2) (add ove : Bool) (s : State) : State :=
  let r := decode8 s.cfg t.toNat p.toNat s.srcBase s.count s.dstBase s.decVolume add ove s.mem
  { s with mem := r.port }.setRes 0 (BitVec.ofNat 32 s.count)

/-- DEC4 (R96). -/
def execDec4 (t : BitVec 4) (p : BitVec 2) (add ove : Bool) (s : State) : Result :=
  plainCommand (decChecks false t p s) (dec4Effect t p add ove) s

/-- DEC8 (R98). -/
def execDec8 (t : BitVec 4) (p : BitVec 2) (add ove : Bool) (s : State) : Result :=
  plainCommand (decChecks true t p s) (dec8Effect t p add ove) s

end Sys2Proof.Machine
end

