-- ==== Sys2Proof/Machine/Expander.lean ====
section
/-! DEFINITION. The streaming expander and voice mixer: the fetch unit, BIND, EXPAND, REWIND, FILL (43_expander.md). -/

namespace Sys2Proof.Machine

/-- What a chunk loop carries: the voice, WBUF and MEM. -/
structure VoiceRun where
  v    : Voice
  wbuf : List Byte
  port : MemPort

/-- `Fetch(v, k)` (R100): up to k bytes of the stream into WBUF; the count fetched. -/
def fetch (k : Nat) (r : VoiceRun) : Nat × VoiceRun :=
  let got := min k (r.v.size.toNat - r.v.cursor.toNat)
  let (bytes, port) := r.port.readBytes (r.v.base.toNat + r.v.cursor.toNat) got
  (got, { v := { r.v with cursor := BitVec.ofNat 32 (r.v.cursor.toNat + got) }
          wbuf := bytes ++ r.wbuf.drop got
          port := port })

/-- TOTAL of a stream (R101). -/
def streamTotal (is8 odd : Bool) (size : Nat) : Nat :=
  if is8 then size else 2 * size - (if odd then 1 else 0)

/-- A decoded sample of a voice is eased, scaled and emitted as frame k, and POS advances (R103). -/
def voiceEmit (cfg : Config) (add : Bool) (d k : Nat) (r : Int) (p : Predictor) (x : VoiceRun) : VoiceRun :=
  let p' := p.ease cfg
  { x with
    v := { x.v with p := p', pos := BitVec.ofNat 32 (x.v.pos.toNat + 1) }
    port := emitFrame add d k (p'.scale r) x.port }

/-- Sample i of an 8-bit chunk, WBUF[i], to frame produced + i (R103). -/
def chunkSample8 (cfg : Config) (add : Bool) (d produced i : Nat) (x : VoiceRun) : VoiceRun :=
  let (r, p) := dec8Step cfg x.v.table.toNat x.v.p (x.wbuf.getD i 0)
  voiceEmit cfg add d (produced + i) r p x

/-- Sample i of a 4-bit chunk, from HELD or from WBUF[j], to frame produced + i (R103); `j` counts the bytes taken. -/
def chunkSample4 (cfg : Config) (add : Bool) (d produced i : Nat) (jx : Nat × VoiceRun) : Nat × VoiceRun :=
  let (j, x) := jx
  if x.v.p.high then
    let (c, p) := x.v.p.takeHigh
    let (r, p) := dec4Step cfg x.v.table.toNat p c
    (j, voiceEmit cfg add d (produced + i) r p x)
  else
    let (c, p) := x.v.p.takeLow (x.wbuf.getD j 0)
    let (r, p) := dec4Step cfg x.v.table.toNat p c
    (j + 1, voiceEmit cfg add d (produced + i) r p x)

/-- One chunk of an 8-bit voice (R103); the samples produced by it. -/
def chunk8 (cfg : Config) (add : Bool) (d produced chunk : Nat) (x : VoiceRun) : Nat × VoiceRun :=
  let (got, x) := fetch chunk x
  (got, forUp (chunkSample8 cfg add d produced) got 0 x)

/-- One chunk of a 4-bit voice (R103); the samples produced by it. -/
def chunk4 (cfg : Config) (add : Bool) (d produced chunk : Nat) (x : VoiceRun) : Nat × VoiceRun :=
  let nbytes := (chunk - (if x.v.p.high then 1 else 0) + 1) >>> 1
  let (_, x) := fetch nbytes x
  (chunk, (forUp (chunkSample4 cfg add d produced) chunk 0 (0, x)).2)

/-- CH, the samples of a full chunk (R103). -/
def chunkMax (cfg : Config) (is8 : Bool) : Nat := if is8 then cfg.raw.bufferSize else 2 * cfg.raw.bufferSize

/-- The chunk loop of R103 while produced < want, `fuel` rounds at most; every round produces a sample of a stream that keeps
the invariant R104, so `want` rounds always suffice (log 10). -/
def chunkLoop (cfg : Config) (add : Bool) (d want : Nat) : Nat → Nat → VoiceRun → Nat × VoiceRun
  | 0, produced, x => (produced, x)
  | fuel + 1, produced, x =>
    if produced < want then
      let chunk := min (want - produced) (chunkMax cfg x.v.is8)
      let (got, x') := if x.v.is8 then chunk8 cfg add d produced chunk x else chunk4 cfg add d produced chunk x
      chunkLoop cfg add d want fuel (produced + got) x'
    else (produced, x)

/-- `ExpandCore(v, d, n, vol, add, ove) -> produced` (R103). -/
def expandCore (cfg : Config) (d n vol : Nat) (add ove : Bool) (x : VoiceRun) : Nat × VoiceRun :=
  let x := { x with v := { x.v with p := x.v.p.volSet vol ove } }
  let want := min n (x.v.total.toNat - x.v.pos.toNat)
  chunkLoop cfg add d want want 0 x

/-- `Rewind(v)` (R107): the seed, HIGH, HELD, CURSOR and POS; the volume and the binding stay. -/
def Voice.rewound (cfg : Config) (v : Voice) : Voice :=
  { v with
    p := { seeded cfg v.pred.toNat 0 with volsh := v.p.volsh, voltgt := v.p.voltgt }
    cursor := 0
    pos := 0 }

/-- Run a voice function on V[v], WBUF and MEM of the state. -/
def State.withVoice {α : Type} (s : State) (v : Nat) (f : VoiceRun → α × VoiceRun) : α × State :=
  let (a, x) := f ⟨s.voice v, s.wbuf, s.mem⟩
  (a, { s with wbuf := x.wbuf, mem := x.port }.setVoice v x.v)

/-! ### BIND -/

/-- The checks of BIND in their order (R102). DESIGN CHOICE (log 22): the ILLEGAL check "ODD = 1 and size = 0" reads ARG1 only
when ODD = 1, since with ODD = 0 it fails for no size; ARG1 is then first read by the RANGE check, so a BIND with ODD = 0, ARG1
unwritten and a bad VOICE or TABLE raises that error and does not fault. -/
def bindChecks (v t : BitVec 4) (p : BitVec 2) (is8 odd : Bool) (s : State) : List Check :=
  [ .raises .illegal [] (is8 && odd),
    .raises .illegal (if odd then [1] else []) (odd && s.count == 0),
    checkVoice s v.toNat,
    checkPair s t p,
    checkRange s [0, 1] ⟨s.base0, s.count⟩ ]

/-- The voice context BIND writes (R102). -/
def boundVoice (cfg : Config) (t : BitVec 4) (p : BitVec 2) (is8 odd : Bool) (base size : Word) : Voice where
  bound  := true
  is8    := is8
  odd    := odd
  table  := t
  pred   := p
  base   := base
  size   := size
  cursor := 0
  total  := BitVec.ofNat 32 (streamTotal is8 odd size.toNat)
  pos    := 0
  p      := seeded cfg p.toNat unityVol

/-- The effect of BIND (R102). -/
def bindEffect (v t : BitVec 4) (p : BitVec 2) (is8 odd : Bool) (s : State) : State :=
  let x := boundVoice s.cfg t p is8 odd (s.arg 0) (s.arg 1)
  (s.setVoice v.toNat x).setRes 0 x.total

/-- BIND (R102). -/
def execBind (v t : BitVec 4) (p : BitVec 2) (is8 odd : Bool) (s : State) : Result :=
  plainCommand (bindChecks v t p is8 odd s) (bindEffect v t p is8 odd) s

/-! ### EXPAND -/

/-- The checks of EXPAND in their order (R105). -/
def expandChecks (v : BitVec 4) (s : State) : List Check :=
  [ checkHighBits 2 s 16,
    checkVoice s v.toNat,
    checkBound s v.toNat,
    checkAlign [0] s.base0 4,
    checkRange s [0, 1] s.expandFrames,
    checkOverlap [0, 1] s.expandFrames (s.voice v.toNat).stream,
    checkStream s v.toNat ]

/-- The effect of EXPAND (R105). -/
def expandEffect (v : BitVec 4) (add ove : Bool) (s : State) : State :=
  let (produced, s') := s.withVoice v.toNat (expandCore s.cfg s.base0 s.count s.expandVolume add ove)
  (s'.setRes 0 (BitVec.ofNat 32 produced)).setRes 1 (s'.voice v.toNat).pos

/-- EXPAND (R105). -/
def execExpand (v : BitVec 4) (add ove : Bool) (s : State) : Result :=
  plainCommand (expandChecks v s) (expandEffect v add ove) s

/-! ### REWIND -/

/-- The checks of REWIND in their order (R107). -/
def rewindChecks (v : BitVec 4) (s : State) : List Check := [checkVoice s v.toNat, checkBound s v.toNat]

/-- The effect of REWIND (R107). -/
def rewindEffect (v : BitVec 4) (s : State) : State := s.setVoice v.toNat ((s.voice v.toNat).rewound s.cfg)

/-- REWIND (R107). -/
def execRewind (v : BitVec 4) (s : State) : Result := plainCommand (rewindChecks v s) (rewindEffect v) s

/-! ### FILL -/

/-- The checks of FILL in their order (R109). The volumes are read after them, each only when a voice of its ARG is in the
mask. -/
def fillChecks (s : State) : List Check :=
  [ checkHighBits 0 s 8,
    checkHighBits 1 s 8 ] ++
  s.fillVoices.flatMap (fun v => [checkVoice s v, checkBound s v]) ++
  [ checkAlign [2] s.fillFrames.base 4,
    checkRange s [2, 3] s.fillFrames ] ++
  s.fillVoices.map (fun v => checkOverlap [2, 3] s.fillFrames (s.voice v).stream) ++
  [ .needs (s.fillVoices.map volumeArg) ] ++
  s.fillVoices.map (fun v => checkStream s v)

/-- Frame k is zeroed (R109). -/
def zeroFrame (d k : Nat) (port : MemPort) : MemPort :=
  (port.writeLE (d + 8 * k) 4 0).writeLE (d + 8 * k + 4) 4 0

/-- What became of one voice in a FILL: it ended before n samples, it was rewound (R109). -/
structure FillNote where
  ended   : Bool
  rewound : Bool
deriving DecidableEq, Repr

/-- The `while got < n` loop of one voice (R109), `fuel` rounds at most: every round adds a sample or ends the loop, so `n`
rounds suffice. -/
def refill (cfg : Config) (d n vol : Nat) (ove loop : Bool) : Nat → Nat → Bool → VoiceRun → FillNote × VoiceRun
  | 0, _, rewound, x => (⟨false, rewound⟩, x)
  | fuel + 1, got, rewound, x =>
    if got < n then
      if loop then
        let (g, x') := expandCore cfg (d + 8 * got) (n - got) vol true ove { x with v := x.v.rewound cfg }
        if g = 0 then (⟨true, true⟩, x') else refill cfg d n vol ove loop fuel (got + g) true x'
      else (⟨true, rewound⟩, x)
    else (⟨false, rewound⟩, x)

/-- One voice of FILL: ExpandCore in add mode, then the refills (R109). -/
def fillVoice (cfg : Config) (d n vol : Nat) (ove loop : Bool) (x : VoiceRun) : FillNote × VoiceRun :=
  let (got, x') := expandCore cfg d n vol true ove x
  refill cfg d n vol ove loop n got false x'

/-- Bit v of a mask, if `b`. -/
def maskBit (v : Nat) (b : Bool) : Word := if b then BitVec.ofNat 32 (2 ^ v) else 0

/-- What the voice loop of FILL carries: the ended and rewound masks and the state. -/
structure FillRun where
  ended   : Word
  rewound : Word
  s       : State

/-- One voice of the mask (R109). -/
def fillOne (d n : Nat) (ove : Bool) (r : FillRun) (v : Nat) : FillRun :=
  let (note, s') := r.s.withVoice v (fillVoice r.s.cfg d n (r.s.fillVolume v) ove (r.s.loops v))
  ⟨r.ended ||| maskBit v note.ended, r.rewound ||| maskBit v note.rewound, s'⟩

/-- The effect of FILL (R109): the frames are zeroed, the voices mixed in increasing order. -/
def fillEffect (ove : Bool) (s : State) : State :=
  let d := s.fillFrames.base
  let n := s.fillCount
  let s0 := { s with mem := forUp (zeroFrame d) n 0 s.mem }
  let r := s.fillVoices.foldl (fillOne d n ove) ⟨0, 0, s0⟩
  (r.s.setRes 0 r.ended).setRes 1 r.rewound

/-- FILL (R109). -/
def execFill (ove : Bool) (s : State) : Result := plainCommand (fillChecks s) (fillEffect ove) s

end Sys2Proof.Machine
end

