-- ==== Sys2Proof/Machine/Lookup.lean ====
section
/-! DEFINITION. Image lookup: LOOKUP_DIR and LOOKUP_FILE (45_manifest.md R113..R119). -/

namespace Sys2Proof.Machine

/-- The RES0 value of a lookup that finds nothing (R118, R119). -/
def notFound : Word := 0xFFFFFFFF

/-- The address of directory record k of the image at I (R113). -/
def dirRecord (i k : Nat) : Nat := i + 16 * k
/-- The address of file record j of the image at I (R113). -/
def fileRecord (cfg : Config) (i j : Nat) : Nat := i + 16 * cfg.raw.numDir + 16 * j

/-- `size(w)` of word3 (R114); in a directory record, the file count (R115). -/
def word3Size (w : Word) : Nat := w.toNat % 2 ^ 24
/-- `table(w)` of word3 (R114). -/
def word3Table (w : Word) : BitVec 4 := w.extractLsb' 24 4
/-- `is8(w)` of word3 (R114). -/
def word3Is8 (w : Word) : Bool := w.getLsbD 28
/-- `short(w)` of word3 (R114). -/
def word3Short (w : Word) : Bool := w.getLsbD 29
/-- `pred(w)` of word3 (R114). -/
def word3Pred (w : Word) : BitVec 2 := w.extractLsb' 30 2

/-- `NameEq(a, N)` (R117). -/
def nameEq (a : Nat) (name : List Byte) (port : MemPort) : Bool × MemPort :=
  let (bs, port) := port.readBytes a 8
  (bs == name, port)

/-- `DirScan(I, N)` over `left` records from record `k` up (R117). -/
def dirScan (i : Nat) (name : List Byte) : Nat → Nat → MemPort → Option Nat × MemPort
  | 0, _, port => (none, port)
  | left + 1, k, port =>
    let (bs, port) := port.readBytes (dirRecord i k) 8
    if bs.all (· == 0) then (none, port)
    else
      let (same, port) := nameEq (dirRecord i k) name port
      if same then (some k, port) else dirScan i name left (k + 1) port

/-- The first file index and the file count of directory record k (R115, R118). -/
def dirRun (i k : Nat) (port : MemPort) : (Nat × Nat) × MemPort :=
  let (first, port) := port.readLE (dirRecord i k + 8) 4
  let (w, port) := port.readLE (dirRecord i k + 12) 4
  ((first, word3Size (BitVec.ofNat 32 w)), port)

/-- The file search of R119 over `left` records from record `j` up. -/
def fileScan (cfg : Config) (i : Nat) (name : List Byte) : Nat → Nat → MemPort → Option Nat × MemPort
  | 0, _, port => (none, port)
  | left + 1, j, port =>
    let (same, port) := nameEq (fileRecord cfg i j) name port
    if same then (some j, port) else fileScan cfg i name left (j + 1) port

/-- Write RES0, RES1, RES2. -/
def State.setRes012 (s : State) (a b c : Word) : State := ((s.setRes 0 a).setRes 1 b).setRes 2 c

/-- The checks of both lookups in their order (R118, R119): RANGE, then the name ARGs must have been written. -/
def lookupChecks (names : List (Fin 8)) (s : State) : List Check := [checkRange s [0] s.image, .needs names]

/-- The effect of LOOKUP_DIR (R118). -/
def lookupDirEffect (s : State) : Option ErrCode × State :=
  let (k?, port) := dirScan s.base0 (s.name 1 2) s.cfg.raw.numDir 0 s.mem
  match k? with
  | none => (none, { s with mem := port }.setRes012 notFound 0 0)
  | some k =>
    let ((first, count), port) := dirRun s.base0 k port
    if first + count > s.cfg.raw.numFiles then (some .image, { s with mem := port })
    else (none, { s with mem := port }.setRes012 (BitVec.ofNat 32 k) (BitVec.ofNat 32 first) (BitVec.ofNat 32 count))

/-- The effect of LOOKUP_FILE (R119). -/
def lookupFileEffect (s : State) : Option ErrCode × State :=
  let (k?, port) := dirScan s.base0 (s.name 1 2) s.cfg.raw.numDir 0 s.mem
  match k? with
  | none => (none, ({ s with mem := port }.setRes012 notFound 0 0).setRes 3 0)
  | some k =>
    let ((first, count), port) := dirRun s.base0 k port
    if first + count > s.cfg.raw.numFiles then (some .image, { s with mem := port })
    else
      let (j?, port) := fileScan s.cfg s.base0 (s.name 3 4) count first port
      match j? with
      | none => (none, ({ s with mem := port }.setRes012 notFound 0 0).setRes 3 0)
      | some j =>
        let (off, port) := port.readLE (fileRecord s.cfg s.base0 j + 8) 4
        let (w, port) := port.readLE (fileRecord s.cfg s.base0 j + 12) 4
        (none, ({ s with mem := port }.setRes012 (BitVec.ofNat 32 j) (BitVec.ofNat 32 off) (BitVec.ofNat 32 w)).setRes 3
          (BitVec.ofNat 32 (s.base0 + s.cfg.raw.heapOffset + off)))

/-- LOOKUP_DIR (R118). -/
def execLookupDir (s : State) : Result := command (lookupChecks [1, 2] s) lookupDirEffect s

/-- LOOKUP_FILE (R119). -/
def execLookupFile (s : State) : Result := command (lookupChecks [1, 2, 3, 4] s) lookupFileEffect s

end Sys2Proof.Machine
end

