-- ==== Sys2Proof/Machine/Select.lean ====
section
/-! DEFINITION. Table selection: SELECT (44_select.md R110, R111). -/

namespace Sys2Proof.Machine

/-- What a trial carries: the encoder state E, the decoder state D, the error sum and MEM (R110). -/
structure TrialRun where
  e    : Predictor
  d    : Predictor
  sse  : Nat
  port : MemPort

/-- One sample of a trial (R110): the error is that of the decoded sample. -/
def trialSample (cfg : Config) (is8 : Bool) (t src i : Nat) (r : TrialRun) : TrialRun :=
  let (value, port) := readSample r.port (src + 2 * i)
  if is8 then
    let (b, _, e) := enc8Step cfg t r.e value
    let (q, d) := dec8Step cfg t r.d b
    ⟨e, d, r.sse + sqErr value q, port⟩
  else
    let (c, _, e) := enc4Step cfg t r.e value
    let (q, d) := dec4Step cfg t r.d c
    ⟨e, d, r.sse + sqErr value q, port⟩

/-- `Trial(t, p)` (R110): the error sum, and MEM after its reads. -/
def trial (cfg : Config) (is8 : Bool) (src n t p : Nat) (port : MemPort) : Nat × MemPort :=
  let r := forUp (trialSample cfg is8 t src) n 0 ⟨seeded cfg p 0, seeded cfg p 0, 0, port⟩
  (r.sse, r.port)

/-- A candidate pair and its error sum. -/
structure Candidate where
  t   : Nat
  p   : Nat
  sse : Nat
deriving DecidableEq, Repr

/-- The pairs of the two masks, table-major, both ascending (R111). -/
def candidatePairs (tmask pmask : Word) : List (Nat × Nat) :=
  ((List.range 16).filter tmask.getLsbD).flatMap fun t => ((List.range 4).filter pmask.getLsbD).map fun p => (t, p)

/-- One pair is tried; it becomes the best only with a strictly smaller error sum (R110). -/
def tryPair (cfg : Config) (is8 : Bool) (src n : Nat) (best : Option Candidate × MemPort) (tp : Nat × Nat) :
    Option Candidate × MemPort :=
  let (sse, port) := trial cfg is8 src n tp.1 tp.2 best.2
  match best.1 with
  | none => (some ⟨tp.1, tp.2, sse⟩, port)
  | some b => if sse < b.sse then (some ⟨tp.1, tp.2, sse⟩, port) else (some b, port)

/-- ARG3 of SELECT: the table mask. -/
def State.tableMask (s : State) : Word := s.arg 3
/-- ARG4 of SELECT: the predictor mask. -/
def State.predMask (s : State) : Word := s.arg 4

/-- The winner of the trials (R110, R111), and MEM after their reads. The masks are not empty once validated; without a pair
the answer would be pair (0, 0) with error 0. -/
def bestPair (s : State) (is8 : Bool) : Candidate × MemPort :=
  let (best, port) := (candidatePairs s.tableMask s.predMask).foldl (tryPair s.cfg is8 s.srcBase s.count) (none, s.mem)
  (best.getD ⟨0, 0, 0⟩, port)

/-- The checks of SELECT in their order (R110). -/
def selectChecks (is8 : Bool) (s : State) : List Check :=
  [ checkHighBits 3 s 16,
    checkHighBits 4 s 4,
    .raises .table [3] (s.tableMask == 0),
    .raises .table [4] (s.predMask == 0),
    .raises .table [3] (s.tableMask >>> s.cfg.nTables != 0),
    .raises .table [4] (s.predMask >>> s.cfg.nPred != 0),
    checkAlign [0] s.srcBase 2,
    checkRange s [0, 1] s.sampleRegion,
    checkRange s [2, 1] (s.codeOut is8),
    checkOverlap [2, 1, 0] (s.codeOut is8) s.sampleRegion ]

/-- The effect of SELECT (R110): the trials, then the encoding of the winner, with the winner's trial error as the result. -/
def selectEffect (is8 : Bool) (s : State) : State :=
  let (w, port) := bestPair s is8
  let r := if is8 then encode8 s.cfg w.t w.p s.srcBase s.count s.dstBase port
    else encode4 s.cfg w.t w.p s.srcBase s.count s.dstBase port
  ({ s with mem := r.port }.setRes 0 (BitVec.ofNat 32 (w.t + 256 * w.p))).setError w.sse s.count

/-- SELECT (R110). -/
def execSelect (is8 : Bool) (s : State) : Result := plainCommand (selectChecks is8 s) (selectEffect is8) s

end Sys2Proof.Machine
end

