-- ==== Sys2Proof/Machine/Sequencer.lean ====
section
/-! DEFINITION. NOP (40_lifecycle.md R68). -/

namespace Sys2Proof.Machine

/-- The checks of NOP: none beyond the word's own (R68). -/
def nopChecks (_ : State) : List Check := []

/-- NOP: no data effect; DONE at completion (R68). -/
def execNop (s : State) : Result := plainCommand (nopChecks s) id s

end Sys2Proof.Machine
end

