-- ==== Sys2Proof/Machine/Dispatch.lean ====
section
/-! DEFINITION. The meaning of every command: one arm per constructor of `Instr`, the accepted command run to completion. -/

namespace Sys2Proof.Machine

def exec (i : Instr) (s : State) : Host.Outcome State Fault Refusal :=
  match i with
  | .nop => Sys2Proof.Machine.execNop s
  | .enc4 t p => Sys2Proof.Machine.execEnc4 t p s
  | .dec4 t p add ove => Sys2Proof.Machine.execDec4 t p add ove s
  | .enc8 t p => Sys2Proof.Machine.execEnc8 t p s
  | .dec8 t p add ove => Sys2Proof.Machine.execDec8 t p add ove s
  | .bind v t p is8 odd => Sys2Proof.Machine.execBind v t p is8 odd s
  | .expand v add ove => Sys2Proof.Machine.execExpand v add ove s
  | .rewind v => Sys2Proof.Machine.execRewind v s
  | .fill ove => Sys2Proof.Machine.execFill ove s
  | .select is8 => Sys2Proof.Machine.execSelect is8 s
  | .lookupDir => Sys2Proof.Machine.execLookupDir s
  | .lookupFile => Sys2Proof.Machine.execLookupFile s

end Sys2Proof.Machine
end

