-- ==== Sys2Proof/Machine/Engine.lean ====
section
/-! DEFINITION. One turn of the engine (10_state.md R28, 40_lifecycle.md R64..R67). -/

namespace Sys2Proof.Machine

/-- The accepted word is run to completion: the decoded command, or Error(ILLEGAL) (30_encoding.md R55). -/
def runWord (s : State) : Result :=
  match decode s.cmd with
  | .ok i => exec i s
  | .error _ => .next (s.raiseError .illegal)

/-- One turn of the engine: completion while BUSY (40_lifecycle.md R67); while IDLE nothing changes (60_exceptions.md R133). -/
def engineTurn (s : State) : Result :=
  match s.phase with
  | .idle => .next s
  | .busy => runWord s

/-- The state in which the host has issued the word `w`: every ARG counts as written by the host, with the value it holds (the
assembled command of 30_encoding.md R60, log 12), the word is accepted, and the engine moves next. -/
def State.issued (s : State) (w : Word) : State :=
  { s with
    args := ⟨s.args.val, Vector.replicate 8 true⟩
    script := .engine :: s.script }.accept w

end Sys2Proof.Machine
end

