-- ==== Sys2Proof/Machine/Footprint.lean ====
section
/-! DEFINITION. The footprint of a command: its checks, the buffers it reads and the buffers it writes (20_memory.md R37,
R46 O3; 70_reset_and_hazards.md R136). -/

namespace Sys2Proof.Machine

/-- The checks of a command in their order (40_lifecycle.md R64). -/
def checksOf : Instr → State → List Check
  | .nop, s => nopChecks s
  | .enc4 t p, s => encChecks false t p s
  | .dec4 t p _ _, s => decChecks false t p s
  | .enc8 t p, s => encChecks true t p s
  | .dec8 t p _ _, s => decChecks true t p s
  | .bind v t p is8 odd, s => bindChecks v t p is8 odd s
  | .expand v _ _, s => expandChecks v s
  | .rewind v, s => rewindChecks v s
  | .fill _, s => fillChecks s
  | .select is8, s => selectChecks is8 s
  | .lookupDir, s => lookupChecks [1, 2] s
  | .lookupFile, s => lookupChecks [1, 2, 3, 4] s

/-- The bytes a command writes: its code buffer (ENC4, ENC8, SELECT; 42_codec.md R95, R97, 44_select.md R110), its frame buffer
(DEC4, DEC8, FILL; 42_codec.md R96, R98, 43_expander.md R109), or the frames it produces (EXPAND: "Frames produced .. n-1 of d
are not written", 43_expander.md R105). -/
def bytesWrittenBy : Instr → State → List Region
  | .nop, _ => []
  | .enc4 _ _, s => [s.codeOut false]
  | .dec4 _ _ _ _, s => [s.decFrames]
  | .enc8 _ _, s => [s.codeOut true]
  | .dec8 _ _ _ _, s => [s.decFrames]
  | .bind _ _ _ _ _, _ => []
  | .expand v _ _, s => [s.producedFrames v.toNat]
  | .rewind _, _ => []
  | .fill _, s => [s.fillFrames]
  | .select is8, s => [s.codeOut is8]
  | .lookupDir, _ => []
  | .lookupFile, _ => []

/-- The buffers a command writes, each with its full length (20_memory.md R37, R40; 70_reset_and_hazards.md R136). Only EXPAND
can leave bytes of one unwritten. -/
def writtenBy (i : Instr) (s : State) : List Region :=
  match i with
  | .expand _ _ _ => [s.expandFrames]
  | .nop | .enc4 _ _ | .dec4 _ _ _ _ | .enc8 _ _ | .dec8 _ _ _ _ | .bind _ _ _ _ _ | .rewind _ | .fill _ | .select _ | .lookupDir
  | .lookupFile => bytesWrittenBy i s

/-- The buffers a command reads (20_memory.md R37): samples, codes, the streams of the voices involved, the image. -/
def readBy : Instr → State → List Region
  | .nop, _ => []
  | .enc4 _ _, s => [s.sampleRegion]
  | .dec4 _ _ _ _, s => [s.codeIn false]
  | .enc8 _ _, s => [s.sampleRegion]
  | .dec8 _ _ _ _, s => [s.codeIn true]
  | .bind _ _ _ _ _, _ => []
  | .expand v _ _, s => [(s.voice v.toNat).stream]
  | .rewind _, _ => []
  | .fill _, s => s.fillVoices.map fun v => (s.voice v).stream
  | .select _, s => [s.sampleRegion]
  | .lookupDir, s => [s.image]
  | .lookupFile, s => [s.image]

/-- The command that is running and will access MEM: BUSY, a legal word, and every check of 40_lifecycle.md R64 passed. A
command whose validation raises an error makes no access (R64), so no host access races with it (log 7). Whether an ARG that is
read only after the checks has been written does not matter here: FILL zeroes its frames before it reads a volume
(43_expander.md R109), a lookup reads the image before it compares a name (45_manifest.md R117).

DESIGN CHOICE (log 21): the spec does not say when the fault of an unwritten ARG (10_state.md R23) falls while BUSY. Here a
command whose VALIDATION reads such an ARG faults at the engine's turn, and until then it counts as making no access: a reset
before that turn averts the fault and leaves MEM as it was. -/
def State.running (s : State) : Option Instr :=
  match s.phase, decode s.cmd with
  | .busy, .ok i => if validate s.snapshot ((checksOf i s).filter Check.raisesError) = .pass then some i else none
  | _, _ => none

/-- The buffers the running command writes, which a reset leaves with any value (70_reset_and_hazards.md R136). -/
def State.writtenNow (s : State) : List Region :=
  match s.running with
  | some i => writtenBy i s
  | none => []

/-- The bytes the running command writes, which the host must not read (20_memory.md R46, O3). -/
def State.bytesWrittenNow (s : State) : List Region :=
  match s.running with
  | some i => bytesWrittenBy i s
  | none => []

/-- The footprint of the running command: the union of the buffers its rule names (20_memory.md R46, O3). -/
def State.footprint (s : State) : List Region :=
  match s.running with
  | some i => writtenBy i s ++ readBy i s
  | none => []

end Sys2Proof.Machine
end

