-- ==== Sys2Proof/Machine/HostPort.lean ====
section
/-! DEFINITION. What the host does to the block: register reads and writes, MEM reads and writes, reset (10_state.md R17..R32,
20_memory.md R46, 70_reset_and_hazards.md R134..R139). -/

namespace Sys2Proof.Machine

/-- A register of the block, by name (10_state.md R17). `window v word` is the word at byte offset `word` of voice window v. -/
inductive Reg where
  | ctrl | status | cmd
  | arg (k : Fin 8)
  | res (k : Fin 4)
  | cfg0 | cfg1 | cfg2
  | window (v word : Nat)
  | reserved
deriving DecidableEq, Repr

/-- The register at an offset of the block (10_state.md R17). -/
def regAt (cfg : Config) (off : Nat) : Reg :=
  if off = 0x000 then .ctrl
  else if off = 0x004 then .status
  else if off = 0x008 then .cmd
  else if 0x010 ≤ off ∧ off < 0x030 then .arg (Fin.ofNat 8 ((off - 0x010) / 4))
  else if 0x030 ≤ off ∧ off < 0x040 then .res (Fin.ofNat 4 ((off - 0x030) / 4))
  else if off = 0x040 then .cfg0
  else if off = 0x044 then .cfg1
  else if off = 0x048 then .cfg2
  else if 0x100 ≤ off ∧ (off - 0x100) / 0x40 < cfg.raw.nVoices then .window ((off - 0x100) / 0x40) ((off - 0x100) % 0x40)
  else .reserved

/-- The offset a host register access reaches, if it is admitted: inside the block's 1 KiB (10_state.md R17), 32 bits wide and
aligned (R18). -/
def locate (cfg : Config) (addr width : Nat) : Except Refusal Nat :=
  if addr < cfg.raw.engineBase ∨ cfg.raw.engineBase + 1024 ≤ addr then .error .outsideBlock
  else if width ≠ 4 ∨ (addr - cfg.raw.engineBase) % 4 ≠ 0 then .error .hostAccess
  else .ok (addr - cfg.raw.engineBase)

/-! ### Register reads -/

/-- CFG0 (10_state.md R25). -/
def cfg0Word (c : Config) : Word :=
  BitVec.ofNat 12 c.raw.bufferSize ++ BitVec.ofNat 4 c.nPred ++ BitVec.ofNat 8 c.nTables ++ BitVec.ofNat 8 c.raw.nVoices
/-- CFG1 (10_state.md R26). -/
def cfg1Word (c : Config) : Word := BitVec.ofNat 16 c.raw.numFiles ++ BitVec.ofNat 16 c.raw.numDir
/-- CFG2 (10_state.md R27); the low 32 bits of HEAP_OFFSET (log 17). -/
def cfg2Word (c : Config) : Word := BitVec.ofNat 32 c.raw.heapOffset

/-- The VCTL word of a voice window (10_state.md R31). -/
def Voice.vctl (v : Voice) : Word :=
  (0 : BitVec 8) ++ v.p.held ++ (0 : BitVec 2) ++ v.pred ++ v.table ++ v.p.shift ++
    BitVec.ofBool v.p.high ++ BitVec.ofBool v.odd ++ BitVec.ofBool v.is8 ++ BitVec.ofBool v.bound

/-- The word at an offset of a voice window (10_state.md R31). -/
def Voice.windowWord (v : Voice) (word : Nat) : Word :=
  if word = 0x00 then v.vctl
  else if word = 0x04 then v.p.prev1.signExtend 32
  else if word = 0x08 then v.p.prev2.signExtend 32
  else if word = 0x0C then v.p.volsh.setWidth 32
  else if word = 0x10 then v.p.voltgt.setWidth 32
  else if word = 0x14 then v.base
  else if word = 0x18 then v.size
  else if word = 0x1C then v.cursor
  else if word = 0x20 then v.total
  else if word = 0x24 then v.pos
  else 0

/-- A voice with BOUND = 0 and any value in every other field: what the window of an unbound voice shows (10_state.md R30,
93_implementation_defined.md I5), from the free values `n` up. -/
def anyVoice (n : Nat) : Voice where
  bound  := false
  is8    := (Config.freeValue n).getLsbD 0
  odd    := (Config.freeValue n).getLsbD 1
  table  := (Config.freeValue n).extractLsb' 2 4
  pred   := (Config.freeValue n).extractLsb' 6 2
  base   := Config.freeValue (n + 1)
  size   := Config.freeValue (n + 2)
  cursor := Config.freeValue (n + 3)
  total  := Config.freeValue (n + 4)
  pos    := Config.freeValue (n + 5)
  p :=
    { prev1  := (Config.freeValue (n + 6)).extractLsb' 0 16
      prev2  := (Config.freeValue (n + 6)).extractLsb' 16 16
      shift  := (Config.freeValue n).extractLsb' 8 4
      high   := (Config.freeValue n).getLsbD 12
      held   := (Config.freeValue n).extractLsb' 16 8
      volsh  := (Config.freeValue (n + 7)).extractLsb' 0 24
      voltgt := (Config.freeValue (n + 8)).extractLsb' 0 24 }

/-- Draw one free value. -/
def State.draw (s : State) : Word × State := (s.mem.draw.1, { s with mem := s.mem.draw.2 })

/-- A read of a voice window word: any value while BUSY (10_state.md R32, 93 I4), the fields when the voice is bound, BOUND = 0
and any values when it is not (R30, 93 I5). -/
def State.readWindow (s : State) (v word : Nat) : Word × State :=
  if s.busy then s.draw
  else if (s.voice v).bound then ((s.voice v).windowWord word, s)
  else ((anyVoice s.mem.draws).windowWord word, { s with mem := { s.mem with draws := s.mem.draws + 9 } })

/-- What a host read of a register returns (10_state.md R17..R32, 70_reset_and_hazards.md R138). -/
def State.readReg (s : State) : Reg → Word × State
  | .ctrl => (s.ctrlWord, s)
  | .status => (s.statusWord, s)
  | .cmd => (s.cmd, s)
  | .arg k => (s.args.val[k], s)
  | .res k => if s.busy then s.draw else (s.res[k], s)
  | .cfg0 => (cfg0Word s.cfg, s)
  | .cfg1 => (cfg1Word s.cfg, s)
  | .cfg2 => (cfg2Word s.cfg, s)
  | .window v word => s.readWindow v word
  | .reserved => (0, s)

/-! ### Register writes and reset -/

/-- Every byte of the buffers the running command writes takes any value (70_reset_and_hazards.md R136). -/
def State.abandon (s : State) : State :=
  { s with mem := s.writtenNow.foldl (fun p r => p.scramble r.base r.len) s.mem }

/-- Hardware reset, and the soft reset that has exactly its effect (70_reset_and_hazards.md R134, R135, R136). -/
def State.hardReset (s : State) : State := s.abandon.resetBlock

/-- A host write to CTRL (10_state.md R20, 70_reset_and_hazards.md R135). -/
def State.writeCtrl (s : State) (v : Word) : State := if v.getLsbD 1 then s.hardReset else s.writeIE v

/-- A host write to CMD: a command issue while IDLE, ignored with OVR set while BUSY (10_state.md R22, 40_lifecycle.md R62,
R63). -/
def State.writeCmd (s : State) (v : Word) : State := if s.busy then { s with ovr := true } else s.accept v

/-- A host write to ARGk: ignored with OVR set while BUSY (10_state.md R23, 40_lifecycle.md R63). -/
def State.writeArg (s : State) (k : Fin 8) (v : Word) : State :=
  if s.busy then { s with ovr := true } else { s with args := s.args.write k v }

/-- What a host write to a register does; a write to a read-only or reserved one has no effect (10_state.md R19). -/
def State.writeReg (s : State) (v : Word) : Reg → State
  | .ctrl => s.writeCtrl v
  | .status => s.writeStatus v
  | .cmd => s.writeCmd v
  | .arg k => s.writeArg k v
  | .res _ => s
  | .cfg0 => s
  | .cfg1 => s
  | .cfg2 => s
  | .window _ _ => s
  | .reserved => s

/-! ### MEM -/

/-- A host write into the running command's footprint: a race (20_memory.md R46, O3). MEM holds the host's value, and the
values before it are kept for the engine's reads. -/
def MemPort.race (p : MemPort) (a : Nat) (b : Byte) : MemPort :=
  let entry := match p.raceAt a with
    | none => ⟨a, b, [p.peek a]⟩
    | some r => ⟨a, b, r.host :: r.old⟩
  { p.poke a b with races := entry :: p.races.filter fun r => r.addr != a }

/-- A host write of one MEM byte (20_memory.md R43, R46). -/
def State.writeMem (s : State) (a : Nat) (b : Byte) : State :=
  if s.footprint.any (·.has a) then { s with mem := s.mem.race a b } else { s with mem := s.mem.poke a b }

/-- A host read of one MEM byte: what MEM holds (20_memory.md R43, R46 O5), any value if the running command writes the byte
(R46 O3, 70_reset_and_hazards.md R138). -/
def State.readMem (s : State) (a : Nat) : Byte × State :=
  if s.bytesWrittenNow.any (·.has a) then (s.draw.1.setWidth 8, s.draw.2) else (s.mem.peek a, s)

/-- A value goes back to the host. -/
def State.returned (r : Word × State) : State := { r.2 with outbox := r.1 :: r.2.outbox }

/-- One turn of the host (10_state.md R18: accesses take effect one at a time, in program order). -/
def hostTurn (a : HostAction) (s : State) : Result :=
  match a with
  | .readReg addr width =>
    match locate s.cfg addr width with
    | .error e => .refused e
    | .ok off => .next (State.returned (s.readReg (regAt s.cfg off)))
  | .writeReg addr width v =>
    match locate s.cfg addr width with
    | .error e => .refused e
    | .ok off => .next (s.writeReg v (regAt s.cfg off))
  | .readMem addr =>
    if addr < s.cfg.raw.memSize then .next (State.returned ((s.readMem addr).1.setWidth 32, (s.readMem addr).2))
    else .fault .memHole
  | .writeMem addr b => if addr < s.cfg.raw.memSize then .next (s.writeMem addr b) else .fault .memHole
  | .reset => .next s.hardReset

end Sys2Proof.Machine
end

