-- ==== Sys2Proof/Machine/Step.lean ====
section
/-! DEFINITION. The step: the next turn of the script, and the engine once the script is spent. -/

namespace Sys2Proof.Machine

/-- One turn. -/
def turn (t : Turn) (s : State) : Result :=
  match t with
  | .host a => hostTurn a s
  | .engine => engineTurn s

/-- One step of the machine: the script's next turn, or, when it is spent, the engine (log 1). -/
def step (s : State) : Host.Outcome State Fault Refusal :=
  match s.script with
  | [] => engineTurn s
  | t :: rest => turn t { s with script := rest }

/-- `s` with the command word `w` issued, so that the next step runs it (log 12). -/
def State.withFetchWord (s : State) (nbits w : Nat) : State := s.issued (BitVec.ofNat 32 (w % 2 ^ nbits))

end Sys2Proof.Machine
end

