-- ==== Sys2Proof/Machine/Reference.lean ====
section
/-! DEFINITION. The commands over lists, for the statements: what a command does to whole sample sequences, code sequences
and records, with no loop over MEM, no packing state and no chunks. No meaning calls these; the statements say that the
meanings agree with them. -/

namespace Sys2Proof.Machine

/-- A stateful step run over a list: the outputs and the state after them. -/
def runOver {σ α β : Type} (f : σ → α → β × σ) : σ → List α → List β × σ
  | s, [] => ([], s)
  | s, a :: as =>
    let (b, s') := f s a
    let (bs, s'') := runOver f s' as
    (b :: bs, s'')

/-! ### What MEM holds -/

/-- `n` bytes of MEM. -/
def bytesAt (p : MemPort) (a n : Nat) : List Byte := (List.range n).map fun i => p.peek (a + i)

/-- The signed little-endian sample at an address (20_memory.md R38). -/
def sampleAt (p : MemPort) (a : Nat) : Int := (p.peek (a + 1) ++ p.peek a : BitVec 16).toInt

/-- `n` samples of a sample buffer (40_lifecycle.md R69). -/
def samplesAt (p : MemPort) (a n : Nat) : List Int := (List.range n).map fun i => sampleAt p (a + 2 * i)

/-- The little-endian 32-bit word at an address (20_memory.md R38). -/
def word32At (p : MemPort) (a : Nat) : Word := p.peek (a + 3) ++ p.peek (a + 2) ++ p.peek (a + 1) ++ p.peek a

/-- The signed frame word at an address (30_encoding.md R59). -/
def frameWord (p : MemPort) (a : Nat) : Int := (word32At p a).toInt

/-! ### Encoding -/

/-- Equal in what a reconstruction depends on (41_datapath.md R85). -/
def SameHistory (e d : Predictor) : Prop := e.prev1 = d.prev1 ∧ e.prev2 = d.prev2 ∧ e.shift = d.shift

/-- The codes and reconstructions of a sample sequence, and the state after it (41_datapath.md R81). -/
def encodeAll4 (cfg : Config) (t : Nat) : Predictor → List Int → List (BitVec 4 × Int) × Predictor :=
  runOver fun e v =>
    let (c, r, e') := enc4Step cfg t e v
    ((c, r), e')

/-- The bytes and reconstructions of a sample sequence, and the state after it (41_datapath.md R83). -/
def encodeAll8 (cfg : Config) (t : Nat) : Predictor → List Int → List (Byte × Int) × Predictor :=
  runOver fun e v =>
    let (b, r, e') := enc8Step cfg t e v
    ((b, r), e')

/-- Codes packed into bytes, byte k holding codes 2k and 2k + 1, the pad code 0 where there is none (41_datapath.md R86). -/
def packAll (cs : List (BitVec 4)) : List Byte :=
  (List.range (packedLen cs.length)).map fun k => packCodes (cs.getD (2 * k) 0) (cs.getD (2 * k + 1) 0)

/-- SSE of samples against reconstructions (41_datapath.md R88). -/
def sseOf (values recs : List Int) : Nat := (List.zipWith sqErr values recs).sum

/-- The code bytes of ENC4 (`is8` false) or ENC8 on a sample sequence. -/
def encodedBytes (cfg : Config) (is8 : Bool) (t pred : Nat) (values : List Int) : List Byte :=
  if is8 then (encodeAll8 cfg t (seeded cfg pred 0) values).1.map (·.1)
  else packAll ((encodeAll4 cfg t (seeded cfg pred 0) values).1.map (·.1))

/-- The reconstructions of ENC4 or ENC8 on a sample sequence. -/
def encodedRecs (cfg : Config) (is8 : Bool) (t pred : Nat) (values : List Int) : List Int :=
  if is8 then (encodeAll8 cfg t (seeded cfg pred 0) values).1.map (·.2)
  else (encodeAll4 cfg t (seeded cfg pred 0) values).1.map (·.2)

/-- The SSE of ENC4 or ENC8 on a sample sequence. -/
def encodedSSE (cfg : Config) (is8 : Bool) (t pred : Nat) (values : List Int) : Nat :=
  sseOf values (encodedRecs cfg is8 t pred values)

/-! ### Decoding -/

/-- The reconstructions of a code sequence, and the state after it (41_datapath.md R82). -/
def decodeAll4 (cfg : Config) (t : Nat) : Predictor → List (BitVec 4) → List Int × Predictor := runOver (dec4Step cfg t)

/-- The reconstructions of a byte sequence, and the state after it (41_datapath.md R84). -/
def decodeAll8 (cfg : Config) (t : Nat) : Predictor → List Byte → List Int × Predictor := runOver (dec8Step cfg t)

/-- One code of a stream: a nibble, or a byte. -/
inductive Code where
  | four (c : BitVec 4)
  | eight (b : Byte)
deriving DecidableEq, Repr

/-- One code decoded: the reconstruction and the state after it (41_datapath.md R82, R84). -/
def decodeOne (cfg : Config) (t : Nat) (p : Predictor) : Code → Int × Predictor
  | .four c => dec4Step cfg t p c
  | .eight b => dec8Step cfg t p b

/-- One code decoded, eased and scaled: the output value and the state after it (41_datapath.md R90, R91). -/
def playOne (cfg : Config) (t : Nat) (p : Predictor) (c : Code) : Int × Predictor :=
  let (r, p') := decodeOne cfg t p c
  ((p'.ease cfg).scale r, p'.ease cfg)

/-- A code sequence played: the output values and the state after them. -/
def playAll (cfg : Config) (t : Nat) : Predictor → List Code → List Int × Predictor := runOver (playOne cfg t)

/-- Code q of a stream at an address: a byte, or a nibble of byte q / 2, the low one first (30_encoding.md R57, R58). -/
def codeAt (m : MemPort) (is8 : Bool) (a q : Nat) : Code :=
  if is8 then .eight (m.peek (a + q))
  else .four (if q % 2 = 0 then lowNibble (m.peek (a + q / 2)) else highNibble (m.peek (a + q / 2)))

/-- The codes DEC4 (`is8` false) or DEC8 reads: the first `n` codes of a code buffer. -/
def codesAt (m : MemPort) (is8 : Bool) (a n : Nat) : List Code := (List.range n).map (codeAt m is8 a)

/-- Code q of a voice's stream as the voice will decode it: what MEM holds, except that a held high nibble stays as it was
fetched (20_memory.md R49). -/
def Voice.codeAt (m : MemPort) (v : Voice) (q : Nat) : Code :=
  if v.p.high && q == v.pos.toNat then .four (highNibble v.p.held) else Machine.codeAt m v.is8 v.base.toNat q

/-- The codes a voice has still to play: those at POS .. TOTAL - 1. -/
def Voice.codesLeft (m : MemPort) (v : Voice) : List Code :=
  (List.range (v.total.toNat - v.pos.toNat)).map fun i => v.codeAt m (v.pos.toNat + i)

/-- CURSOR of a voice at position q (43_expander.md R104). -/
def cursorAt (is8 : Bool) (q : Nat) : Nat := if is8 then q else (q + 1) / 2

/-- A voice moved on to position `pos` with predictor `p`: CURSOR and HIGH follow POS (43_expander.md R104), and HELD is the
last byte fetched since (41_datapath.md R87). -/
def Voice.movedTo (m : MemPort) (v : Voice) (p : Predictor) (pos : Nat) : Voice :=
  let cursor := cursorAt v.is8 pos
  { v with
    pos := BitVec.ofNat 32 pos
    cursor := BitVec.ofNat 32 cursor
    p :=
      { p with
        high := !v.is8 && decide (pos % 2 = 1)
        held := if v.is8 || decide (cursor ≤ v.cursor.toNat) then v.p.held else m.peek (v.base.toNat + cursor - 1) } }

/-- `ExpandCore` with no chunks (43_expander.md R103, R104, R106): the output values of the next `n` samples, or of those
left, and the voice after them. -/
def Voice.play (cfg : Config) (m : MemPort) (n vol : Nat) (ove : Bool) (v : Voice) : List Int × Voice :=
  let codes := (v.codesLeft m).take n
  let (outs, p) := playAll cfg v.table.toNat (v.p.volSet vol ove) codes
  (outs, v.movedTo m p (v.pos.toNat + codes.length))

/-- The word of a frame after an output value is written, or added with saturation (41_datapath.md R92). -/
def mixed (add : Bool) (old o : Int) : Int := if add then sat32 (old + o) else o

/-- The voices of FILL, one voice (43_expander.md R109): what is played after the outputs `outs`, the voice being rewound
while it loops and samples are missing. -/
def Voice.playOn (cfg : Config) (m : MemPort) (n vol : Nat) (ove loop : Bool) :
    Nat → List Int → Bool → Voice → FillNote × List Int × Voice
  | 0, outs, rewound, v => (⟨false, rewound⟩, outs, v)
  | fuel + 1, outs, rewound, v =>
    if outs.length < n then
      if loop then
        let (more, v') := (v.rewound cfg).play cfg m (n - outs.length) vol ove
        if more = [] then (⟨true, true⟩, outs, v') else Voice.playOn cfg m n vol ove loop fuel (outs ++ more) true v'
      else (⟨true, rewound⟩, outs, v)
    else (⟨false, rewound⟩, outs, v)

/-- One voice in a FILL of n frames (43_expander.md R109): whether it ended and was rewound, its output values, and the voice
after them. -/
def Voice.playFill (cfg : Config) (m : MemPort) (n vol : Nat) (ove loop : Bool) (v : Voice) : FillNote × List Int × Voice :=
  let (outs, v') := v.play cfg m n vol ove
  v'.playOn cfg m n vol ove loop n outs false

/-- The outputs of one voice mixed into frame values (41_datapath.md R92, add mode). -/
def mixIn : List Int → List Int → List Int
  | f :: fs, o :: os => sat32 (f + o) :: mixIn fs os
  | fs, [] => fs
  | [], _ => []

/-- What FILL does with voice v (43_expander.md R109). -/
def State.fillPlay (s : State) (ove : Bool) (v : Nat) : FillNote × List Int × Voice :=
  (s.voice v).playFill s.cfg s.mem s.fillCount (s.fillVolume v) ove (s.loops v)

/-- The frame values FILL leaves: silence, and the voices of the mask mixed in increasing order (43_expander.md R109). -/
def State.fillMix (s : State) (ove : Bool) : List Int :=
  s.fillVoices.foldl (fun frames v => mixIn frames (s.fillPlay ove v).2.1) (List.replicate s.fillCount 0)

/-- The frames of a frame buffer hold these values, each in both words (30_encoding.md R59). -/
def FramesHold (p : MemPort) (d : Nat) (fs : List Int) : Prop :=
  ∀ k, (h : k < fs.length) → frameWord p (d + 8 * k) = fs[k] ∧ frameWord p (d + 8 * k + 4) = fs[k]

/-- The frames of a frame buffer hold what they held before, mixed with these values (41_datapath.md R92). -/
def FramesMixed (add : Bool) (p q : MemPort) (d : Nat) (outs : List Int) : Prop :=
  ∀ k, (h : k < outs.length) → frameWord q (d + 8 * k) = mixed add (frameWord p (d + 8 * k)) outs[k] ∧
    frameWord q (d + 8 * k + 4) = mixed add (frameWord p (d + 8 * k + 4)) outs[k]

/-! ### Selection -/

/-- The first pair of the list with the least error (44_select.md R111). -/
def FirstLeast (f : Nat × Nat → Nat) (l : List (Nat × Nat)) (w : Nat × Nat) : Prop :=
  ∃ before after, l = before ++ w :: after ∧ (∀ q ∈ before, f w < f q) ∧ ∀ q ∈ after, f w ≤ f q

/-! ### Lookup -/

/-- The 8 name bytes of the record at an address (45_manifest.md R114). -/
def recordName (m : MemPort) (a : Nat) : List Byte := bytesAt m a 8

/-- Directory record k is in use: no record up to it has a name of zeros (45_manifest.md R115). -/
def dirUsed (m : MemPort) (i k : Nat) : Prop := ∀ j ≤ k, recordName m (dirRecord i j) ≠ List.replicate 8 0

/-- Record k is the first of the used directory records with this name (45_manifest.md R117). -/
def isDir (cfg : Config) (m : MemPort) (i : Nat) (name : List Byte) (k : Nat) : Prop :=
  k < cfg.raw.numDir ∧ dirUsed m i k ∧ recordName m (dirRecord i k) = name ∧
    ∀ j < k, recordName m (dirRecord i j) ≠ name

/-- The first file index of directory record k (45_manifest.md R115). -/
def dirFirst (m : MemPort) (i k : Nat) : Nat := (word32At m (dirRecord i k + 8)).toNat
/-- The file count of directory record k (45_manifest.md R115). -/
def dirCount (m : MemPort) (i k : Nat) : Nat := word3Size (word32At m (dirRecord i k + 12))

/-- Record j is the first file record of a run with this name (45_manifest.md R119). -/
def isFile (cfg : Config) (m : MemPort) (i first count : Nat) (name : List Byte) (j : Nat) : Prop :=
  first ≤ j ∧ j < first + count ∧ recordName m (fileRecord cfg i j) = name ∧
    ∀ l, first ≤ l → l < j → recordName m (fileRecord cfg i l) ≠ name

end Sys2Proof.Machine
end

