-- ==== Sys2Proof/Safety.lean ====
section
/-! DEFINITION. What the statements are in terms of: when a command passes its checks, the host's contract, what a safe
outcome is, and the invariant of the machine. -/

namespace Sys2Proof.Machine

/-! ### When a command passes its checks -/

/-- The host has written these ARGs since reset (10_state.md R23). -/
def State.wrote (s : State) (ks : List (Fin 8)) : Prop := ∀ k ∈ ks, s.snapshot.written[k] = true

/-- The checks of ENC4 and ENC8 hold (42_codec.md R95, R97), and the ARGs they read are written. -/
def CanEncode (is8 : Bool) (t : BitVec 4) (p : BitVec 2) (s : State) : Prop :=
  s.wrote [0, 1, 2] ∧ t.toNat < s.cfg.nTables ∧ p.toNat < s.cfg.nPred ∧ s.srcBase % 2 = 0 ∧
    s.sampleRegion.inRange s.cfg.raw.memSize = true ∧ (s.codeOut is8).inRange s.cfg.raw.memSize = true ∧
    (s.codeOut is8).overlaps s.sampleRegion = false

/-- The checks of DEC4 and DEC8 hold (42_codec.md R96, R98), and the ARGs they read are written. -/
def Decodable (is8 : Bool) (t : BitVec 4) (p : BitVec 2) (s : State) : Prop :=
  s.wrote [0, 1, 2, 3] ∧ (s.arg 3).toNat < 2 ^ 16 ∧ t.toNat < s.cfg.nTables ∧ p.toNat < s.cfg.nPred ∧
    s.dstBase % 4 = 0 ∧ (s.codeIn is8).inRange s.cfg.raw.memSize = true ∧
    s.decFrames.inRange s.cfg.raw.memSize = true ∧ s.decFrames.overlaps (s.codeIn is8) = false

/-- The checks of BIND hold (43_expander.md R102), and the ARGs it reads are written. -/
def Bindable (v t : BitVec 4) (p : BitVec 2) (is8 odd : Bool) (s : State) : Prop :=
  s.wrote [0, 1] ∧ ¬(is8 = true ∧ odd = true) ∧ (odd = true → 0 < s.count) ∧ v.toNat < s.cfg.raw.nVoices ∧
    t.toNat < s.cfg.nTables ∧ p.toNat < s.cfg.nPred ∧ (Region.mk s.base0 s.count).inRange s.cfg.raw.memSize = true

/-- The checks of EXPAND hold (43_expander.md R105), the ARGs it reads are written, and the stream lies in MEM, as it does for
every voice BIND has bound (log 10). -/
def Expandable (v : BitVec 4) (s : State) : Prop :=
  s.wrote [0, 1, 2] ∧ (s.arg 2).toNat < 2 ^ 16 ∧ v.toNat < s.cfg.raw.nVoices ∧ (s.voice v.toNat).bound = true ∧
    s.base0 % 4 = 0 ∧ s.expandFrames.inRange s.cfg.raw.memSize = true ∧
    s.expandFrames.overlaps (s.voice v.toNat).stream = false ∧
    (s.voice v.toNat).stream.inRange s.cfg.raw.memSize = true

/-- The checks of REWIND hold (43_expander.md R107). -/
def Rewindable (v : BitVec 4) (s : State) : Prop :=
  v.toNat < s.cfg.raw.nVoices ∧ (s.voice v.toNat).bound = true

/-- The checks of FILL hold (43_expander.md R109), the ARGs it reads are written, and the streams lie in MEM (log 10). -/
def Fillable (s : State) : Prop :=
  s.wrote [0, 1, 2, 3] ∧ (s.arg 0).toNat < 2 ^ 8 ∧ (s.arg 1).toNat < 2 ^ 8 ∧ s.fillFrames.base % 4 = 0 ∧
    s.fillFrames.inRange s.cfg.raw.memSize = true ∧
    ∀ v ∈ s.fillVoices, v < s.cfg.raw.nVoices ∧ (s.voice v).bound = true ∧ s.wrote [volumeArg v] ∧
      s.fillFrames.overlaps (s.voice v).stream = false ∧ (s.voice v).stream.inRange s.cfg.raw.memSize = true

/-- The checks of SELECT hold (44_select.md R110), and the ARGs it reads are written. -/
def Selectable (is8 : Bool) (s : State) : Prop :=
  s.wrote [0, 1, 2, 3, 4] ∧ (s.arg 3).toNat < 2 ^ 16 ∧ (s.arg 4).toNat < 2 ^ 4 ∧ s.tableMask ≠ 0 ∧ s.predMask ≠ 0 ∧
    (s.arg 3).toNat < 2 ^ s.cfg.nTables ∧ (s.arg 4).toNat < 2 ^ s.cfg.nPred ∧ s.srcBase % 2 = 0 ∧
    s.sampleRegion.inRange s.cfg.raw.memSize = true ∧ (s.codeOut is8).inRange s.cfg.raw.memSize = true ∧
    (s.codeOut is8).overlaps s.sampleRegion = false

/-- The check of a lookup holds (45_manifest.md R118, R119), and the ARGs it reads are written. -/
def Lookable (names : List (Fin 8)) (s : State) : Prop :=
  s.wrote (0 :: names) ∧ s.image.inRange s.cfg.raw.memSize = true

/-! ### The conditions of the error codes -/

/-- The six error conditions of a command's rule, in the order of 40_lifecycle.md R64. -/
structure Conditions where
  illegal : Prop := False
  voice   : Prop := False
  table   : Prop := False
  align   : Prop := False
  range   : Prop := False
  overlap : Prop := False

/-- The first condition met, in the order of 40_lifecycle.md R64; `none` when no condition is met. IMAGE is no validation
error. -/
def Conditions.first (m : Conditions) : ErrCode → Prop
  | .illegal => m.illegal
  | .voice => ¬ m.illegal ∧ m.voice
  | .table => ¬ m.illegal ∧ ¬ m.voice ∧ m.table
  | .align => ¬ m.illegal ∧ ¬ m.voice ∧ ¬ m.table ∧ m.align
  | .range => ¬ m.illegal ∧ ¬ m.voice ∧ ¬ m.table ∧ ¬ m.align ∧ m.range
  | .overlap => ¬ m.illegal ∧ ¬ m.voice ∧ ¬ m.table ∧ ¬ m.align ∧ ¬ m.range ∧ m.overlap
  | .none => ¬ m.illegal ∧ ¬ m.voice ∧ ¬ m.table ∧ ¬ m.align ∧ ¬ m.range ∧ ¬ m.overlap
  | .image => False

/-- The pair names a table set or a seed the configuration lacks (60_exceptions.md R122). -/
def noPair (s : State) (t : BitVec 4) (p : BitVec 2) : Prop := s.cfg.nTables ≤ t.toNat ∨ s.cfg.nPred ≤ p.toNat

/-- The buffer leaves MEM (20_memory.md R40). -/
def leavesMem (s : State) (r : Region) : Prop := r.len ≠ 0 ∧ s.cfg.raw.memSize < r.base + r.len

/-- The buffers share a byte (20_memory.md R41). -/
def sharesByte (r q : Region) : Prop := ∃ a, r.has a = true ∧ q.has a = true

/-- The conditions of ENC4 and ENC8 (42_codec.md R95, R97). -/
def encConditions (is8 : Bool) (t : BitVec 4) (p : BitVec 2) (s : State) : Conditions where
  table   := noPair s t p
  align   := s.srcBase % 2 ≠ 0
  range   := leavesMem s s.sampleRegion ∨ leavesMem s (s.codeOut is8)
  overlap := sharesByte (s.codeOut is8) s.sampleRegion

/-- The conditions of DEC4 and DEC8 (42_codec.md R96, R98). -/
def decConditions (is8 : Bool) (t : BitVec 4) (p : BitVec 2) (s : State) : Conditions where
  illegal := 2 ^ 16 ≤ (s.arg 3).toNat
  table   := noPair s t p
  align   := s.dstBase % 4 ≠ 0
  range   := leavesMem s (s.codeIn is8) ∨ leavesMem s s.decFrames
  overlap := sharesByte s.decFrames (s.codeIn is8)

/-- The error conditions of every command (40_lifecycle.md R64, 60_exceptions.md R122), from its own rule. -/
def conditionsOf (i : Instr) (s : State) : Conditions :=
  match i with
  | .nop => {}
  | .enc4 t p => encConditions false t p s
  | .dec4 t p _ _ => decConditions false t p s
  | .enc8 t p => encConditions true t p s
  | .dec8 t p _ _ => decConditions true t p s
  | .bind v t p is8 odd =>
    { illegal := (is8 = true ∧ odd = true) ∨ (odd = true ∧ s.count = 0)
      voice := s.cfg.raw.nVoices ≤ v.toNat
      table := noPair s t p
      range := leavesMem s ⟨s.base0, s.count⟩ }
  | .expand v _ _ =>
    { illegal := 2 ^ 16 ≤ (s.arg 2).toNat
      voice := s.cfg.raw.nVoices ≤ v.toNat ∨ (s.voice v.toNat).bound = false
      align := s.base0 % 4 ≠ 0
      range := leavesMem s s.expandFrames
      overlap := sharesByte s.expandFrames (s.voice v.toNat).stream }
  | .rewind v => { voice := s.cfg.raw.nVoices ≤ v.toNat ∨ (s.voice v.toNat).bound = false }
  | .fill _ =>
    { illegal := 2 ^ 8 ≤ (s.arg 0).toNat ∨ 2 ^ 8 ≤ (s.arg 1).toNat
      voice := ∃ v ∈ s.fillVoices, s.cfg.raw.nVoices ≤ v ∨ (s.voice v).bound = false
      align := s.fillFrames.base % 4 ≠ 0
      range := leavesMem s s.fillFrames
      overlap := ∃ v ∈ s.fillVoices, sharesByte s.fillFrames (s.voice v).stream }
  | .select is8 =>
    { illegal := 2 ^ 16 ≤ (s.arg 3).toNat ∨ 2 ^ 4 ≤ (s.arg 4).toNat
      table := s.tableMask = 0 ∨ s.predMask = 0 ∨ (∃ t, s.tableMask.getLsbD t = true ∧ s.cfg.nTables ≤ t) ∨
        ∃ p, s.predMask.getLsbD p = true ∧ s.cfg.nPred ≤ p
      align := s.srcBase % 2 ≠ 0
      range := leavesMem s s.sampleRegion ∨ leavesMem s (s.codeOut is8)
      overlap := sharesByte (s.codeOut is8) s.sampleRegion }
  | .lookupDir => { range := leavesMem s s.image }
  | .lookupFile => { range := leavesMem s s.image }

/-- The ARGs a command reads (30_encoding.md R56). -/
def argsReadBy (i : Instr) (s : State) : List (Fin 8) :=
  match i with
  | .nop => []
  | .enc4 _ _ => [0, 1, 2]
  | .dec4 _ _ _ _ => [0, 1, 2, 3]
  | .enc8 _ _ => [0, 1, 2]
  | .dec8 _ _ _ _ => [0, 1, 2, 3]
  | .bind _ _ _ _ _ => [0, 1]
  | .expand _ _ _ => [0, 1, 2]
  | .rewind _ => []
  | .fill _ => [0, 1, 2, 3] ++ s.fillVoices.map volumeArg
  | .select _ => [0, 1, 2, 3, 4]
  | .lookupDir => [0, 1, 2]
  | .lookupFile => [0, 1, 2, 3, 4]

/-- The RES registers a command writes (30_encoding.md R56). -/
def resWrittenBy : Instr → List (Fin 4)
  | .nop => []
  | .enc4 _ _ => [0, 1, 2, 3]
  | .dec4 _ _ _ _ => [0]
  | .enc8 _ _ => [0, 1, 2, 3]
  | .dec8 _ _ _ _ => [0]
  | .bind _ _ _ _ _ => [0]
  | .expand _ _ _ => [0, 1]
  | .rewind _ => []
  | .fill _ => [0, 1]
  | .select _ => [0, 1, 2, 3]
  | .lookupDir => [0, 1, 2]
  | .lookupFile => [0, 1, 2, 3]

/-- The voices a command changes (10_state.md R30; 43_expander.md). -/
def voicesWrittenBy (i : Instr) (s : State) : List Nat :=
  match i with
  | .nop => []
  | .enc4 _ _ => []
  | .dec4 _ _ _ _ => []
  | .enc8 _ _ => []
  | .dec8 _ _ _ _ => []
  | .bind v _ _ _ _ => [v.toNat]
  | .expand v _ _ => [v.toNat]
  | .rewind v => [v.toNat]
  | .fill _ => s.fillVoices
  | .select _ => []
  | .lookupDir => []
  | .lookupFile => []

/-- Every bound voice's stream lies in MEM, as BIND leaves it (43_expander.md R102; log 10). -/
def State.streamsInMem (s : State) : Prop :=
  ∀ v, (s.voice v).bound = true → (s.voice v).stream.inRange s.cfg.raw.memSize = true

/-! ### What a completed command leaves -/

/-- The command that led from `s` to `t` completed without an error: DONE is set and the phase is IDLE (40_lifecycle.md R66);
ERR, ECODE and what only the host writes are as they were; no race is left open. -/
structure Completed (s t : State) : Prop where
  cfg      : t.cfg = s.cfg
  ie       : t.ie = s.ie
  phase    : t.phase = .idle
  done     : t.done = true
  err      : t.err = s.err
  ovr      : t.ovr = s.ovr
  ecode    : t.ecode = s.ecode
  cmd      : t.cmd = s.cmd
  args     : t.args = s.args
  snapshot : t.snapshot = s.snapshot
  races    : t.mem.races = []
  script   : t.script = s.script
  outbox   : t.outbox = s.outbox

/-- Every byte of MEM outside the region reads as before. -/
def UnchangedOutside (r : Region) (s t : State) : Prop := ∀ a, r.has a = false → t.mem.peek a = s.mem.peek a

/-- No byte of MEM is changed. -/
def MemUnchanged (s t : State) : Prop := ∀ a, t.mem.peek a = s.mem.peek a

/-- No host write races with the command and MEM is canonical: the engine reads what MEM holds (20_memory.md R46, O3). -/
def State.quiet (s : State) : Prop := s.mem.races = [] ∧ s.mem.wf = true

/-- RES1 and RES2 hold the error sum and RES3 its mean over n samples (41_datapath.md R88). -/
def errorResults (t : State) (sse n : Nat) : Prop :=
  t.res[1].toNat + 2 ^ 32 * t.res[2].toNat = sse ∧ t.res[3].toNat = mse sse n

/-- `s` with the arguments of a command in place, all written. -/
def State.withArgs (s : State) (as : List Word) : State :=
  { s with snapshot := ⟨Vector.ofFn fun k => as.getD k.val 0, Vector.replicate 8 true⟩ }

/-- EXPANDs of the given sizes run one after the other into consecutive frames, with one volume, ADD and OVE
(43_expander.md R106). -/
inductive ExpandRun (v : BitVec 4) (add ove : Bool) (vol : Word) : State → Nat → List Nat → State → Prop where
  | nil (s : State) (d : Nat) : ExpandRun v add ove vol s d [] s
  | cons {s t u : State} {d n : Nat} {ns : List Nat}
      (first : exec (.expand v add ove) (s.withArgs [BitVec.ofNat 32 d, BitVec.ofNat 32 n, vol]) = .next t)
      (rest : ExpandRun v add ove vol t (d + 8 * n) ns u) : ExpandRun v add ove vol s d (n :: ns) u

/-- A pass of the voice is the same from both states (43_expander.md R108): EXPANDs of any sizes at one volume, into frames
where EXPAND may run, complete and leave the same voice and the same frames, those of the samples there are. With ADD the
frames must hold the same values before. -/
def SamePasses (v : BitVec 4) (s t : State) : Prop :=
  ∀ (add ove : Bool) (vol : Word) (d : Nat) (ns : List Nat),
    Expandable v (s.withArgs [BitVec.ofNat 32 d, BitVec.ofNat 32 ns.sum, vol]) → d < 2 ^ 32 → ns.sum < 2 ^ 32 →
    (add = true → ∀ a, d ≤ a → a < d + 8 * ns.sum → s.mem.peek a = t.mem.peek a) →
    ∃ s' t', ExpandRun v add ove vol s d ns s' ∧ ExpandRun v add ove vol t d ns t' ∧ s'.voice v.toNat = t'.voice v.toNat ∧
      ∀ a, d ≤ a → a < d + 8 * min ns.sum ((s.voice v.toNat).total.toNat - (s.voice v.toNat).pos.toNat) →
        s'.mem.peek a = t'.mem.peek a

/-! ### The host's contract and safe outcomes -/

/-- The host action keeps the contract: an aligned 32-bit access inside the block (10_state.md R18), or an access to an
existing MEM byte that does not race with the running command (20_memory.md R46, O3). -/
def HostAction.keepsContract (s : State) : HostAction → Bool
  | .readReg addr width => match locate s.cfg addr width with | .ok _ => true | .error _ => false
  | .writeReg addr width _ => match locate s.cfg addr width with | .ok _ => true | .error _ => false
  | .readMem addr => decide (addr < s.cfg.raw.memSize) && !s.bytesWrittenNow.any (·.has addr)
  | .writeMem addr _ => decide (addr < s.cfg.raw.memSize) && !s.footprint.any (·.has addr)
  | .reset => true

/-- The outcome is a next state. -/
def Safe (o : Result) : Prop := ∃ s', o = .next s'

/-! ### The invariant -/

/-- A bound voice is what BIND, EXPAND, REWIND and FILL leave (43_expander.md R102, R104): its binding passed BIND's checks,
TOTAL follows R101, CURSOR and HIGH follow POS, and every field is in its range. -/
structure VoiceInv (cfg : Config) (v : Voice) : Prop where
  table  : v.table.toNat < cfg.nTables
  pred   : v.pred.toNat < cfg.nPred
  stream : v.stream.inRange cfg.raw.memSize = true
  odd    : v.odd = true → v.is8 = false ∧ 0 < v.size.toNat
  total  : v.total.toNat = streamTotal v.is8 v.odd v.size.toNat
  pos    : v.pos.toNat ≤ v.total.toNat
  cursor : v.cursor.toNat = if v.is8 then v.pos.toNat else (v.pos.toNat + 1) / 2
  high   : v.p.high = (!v.is8 && decide (v.pos.toNat % 2 = 1))
  shift  : v.p.shift.toNat ≤ if v.is8 then shiftLimit8 else shiftLimit4
  volsh  : v.p.volsh.toNat ≤ 65535 * 256
  voltgt : v.p.voltgt.toNat ≤ 65535 * 256

/-- What holds at reset and after every step: MEM is canonical and inside MEM_SIZE, WBUF has its size, an unbound or absent
voice is as after reset, a bound voice keeps `VoiceInv`, ECODE is 0 exactly when ERR is 0 (10_state.md R21), DONE and ERR are
0 while BUSY (70_reset_and_hazards.md R139), the running command's snapshot is the ARGs (40_lifecycle.md R62), and no race is
open while IDLE. -/
structure StateInv (s : State) : Prop where
  memWf     : s.mem.wf = true
  memIn     : ∀ c ∈ s.mem.cells, c.1 < s.cfg.raw.memSize
  wbuf      : s.wbuf.length = s.cfg.raw.bufferSize
  absent    : ∀ v, s.cfg.raw.nVoices ≤ v → s.voice v = .reset
  unbound   : ∀ v, (s.voice v).bound = false → s.voice v = .reset
  bound     : ∀ v, (s.voice v).bound = true → VoiceInv s.cfg (s.voice v)
  ecode     : s.err = false ↔ s.ecode = .none
  busyClear : s.phase = .busy → s.done = false ∧ s.err = false
  busyArgs  : s.phase = .busy → s.snapshot = s.args
  idleRaces : s.phase = .idle → s.mem.races = []

end Sys2Proof.Machine
end

