-- ==== Sys2Proof/Certificates/Slice0/Obligations.lean ====
section
/-! DEFINITION. The statements for the provers, each in terms of Safety.lean and Machine/Reference.lean. "s.quiet" is the premise
that no host write races with the command (20_memory.md R46, O3) and that MEM is canonical; without it a byte read may be any of
the values R46 allows, and the statements then say only what holds whatever is read. -/

open Sys2Proof Sys2Proof.Machine

/-! ### Encoding -/

/-- 30_encoding.md R51, R53, R54: the word of a command decodes to the command, with every field at every value. -/
def Obligations.DecodeOfEncode : Prop :=
  ∀ i : Instr, decode (encode i) = .ok i ∧ decodeTableWord 32 (encode i).toNat = some i

/-- 30_encoding.md R54, R55: a word that decodes is the word of its command, so no two words are one command. -/
def Obligations.EncodeOfDecode : Prop :=
  ∀ (w : BitVec 32) (i : Instr), decode w = .ok i → encode i = w

/-- 30_encoding.md R54: a word selects a command exactly when `(w & mask) == match` for its row, and no word is selected by two
rows. -/
def Obligations.WordSelectsByMask : Prop :=
  (∀ (w : BitVec 32), ∀ r ∈ opcodeTable, (r.selects w = true ↔ w &&& r.mask = r.value) ∧
    (r.selects w = true ↔ ∃ i, decode w = .ok i ∧ i.mnemonic = r.mnemonic)) ∧
    opcodeTable.Pairwise fun r q => ∀ w, ¬ (r.selects w = true ∧ q.selects w = true)

/-- 30_encoding.md R51, R53: words written out bit by bit (RSV, PRED, ODD, IS8, OVE, ADD, TABLE, VOICE, OPC) decode to the
commands they stand for. -/
def Obligations.SpecWordsDecode : Prop :=
  decode 0b0000000000_00_0_0_0_0_0000_0000_00000000#32 = .ok .nop ∧
  decode 0b0000000000_01_0_0_0_0_0001_0000_00000001#32 = .ok (.enc4 1 1) ∧
  decode 0b0000000000_00_0_0_1_0_0000_0000_00000010#32 = .ok (.dec4 0 0 false true) ∧
  decode 0b0000000000_11_0_0_0_0_1111_0000_00000011#32 = .ok (.enc8 15 3) ∧
  decode 0b0000000000_00_0_0_0_1_0000_0000_00000100#32 = .ok (.dec8 0 0 true false) ∧
  decode 0b0000000000_00_1_0_0_0_0000_0000_00010000#32 = .ok (.bind 0 0 0 false true) ∧
  decode 0b0000000000_00_0_0_1_1_0000_0111_00010001#32 = .ok (.expand 7 true true) ∧
  decode 0b0000000000_00_0_0_0_0_0000_0001_00010010#32 = .ok (.rewind 1) ∧
  decode 0b0000000000_00_0_0_1_0_0000_0000_00010011#32 = .ok (.fill true) ∧
  decode 0b0000000000_00_0_1_0_0_0000_0000_00100000#32 = .ok (.select true) ∧
  decode 0b0000000000_00_0_0_0_0_0000_0000_00110000#32 = .ok .lookupDir ∧
  decode 0b0000000000_00_0_0_0_0_0000_0000_00110001#32 = .ok .lookupFile ∧
  decode 0b0000000000_00_0_0_0_0_0000_0001_00000000#32 = .error (.unusedField "NOP") ∧
  decode 0b0000000001_00_0_0_0_0_0000_0000_00000001#32 = .error (.unusedField "ENC4") ∧
  decode 0b0000000000_00_0_0_0_0_0000_0000_00000101#32 = .error (.reservedOpcode 5)

/-- 30_encoding.md R55: a word no row selects raises Error(ILLEGAL), and has no other effect. -/
def Obligations.IllegalWordRaisesIllegal : Prop :=
  ∀ s : State, s.phase = .busy → (∀ r ∈ opcodeTable, r.selects s.cmd = false) →
    engineTurn s = .next { s with
      err := true, ecode := .illegal, done := true, phase := .idle, mem := { s.mem with races := [] } }

/-! ### The step -/

/-- A step runs the decoded command: while BUSY, when CMD decodes to i, the engine's turn is exec i, and the step is that turn
when the script is spent or names it next. The word that `withFetchWord` issues is the command the next step runs, with the ARGs
as they stand (log 12). -/
def Obligations.StepRunsTheDecodedCommand : Prop :=
  ∀ (s : State) (i : Instr),
    (s.phase = .busy → decode s.cmd = .ok i →
      engineTurn s = exec i s ∧ (s.script = [] → step s = exec i s) ∧
        ∀ rest, s.script = .engine :: rest → step s = exec i { s with script := rest }) ∧
    step (s.withFetchWord 32 (encode i).toNat) =
      exec i ({ s with args := ⟨s.args.val, Vector.replicate 8 true⟩ }.accept (encode i))

/-- The host's turns take effect one at a time in the script's order, and an IDLE engine changes nothing (10_state.md R18,
60_exceptions.md R133). -/
def Obligations.HostTurnsInOrder : Prop :=
  ∀ (s : State) (a : HostAction) (rest : List Turn),
    (s.script = .host a :: rest → step s = hostTurn a { s with script := rest }) ∧
      (s.phase = .idle → engineTurn s = .next s ∧ (s.script = [] → step s = .next s) ∧
        (s.script = .engine :: rest → step s = .next { s with script := rest }))

/-! ### Lifecycle -/

/-- 40_lifecycle.md R62: the acceptance of a command word, and that the ARGs cannot change after it. -/
def Obligations.AcceptanceOfACommand : Prop :=
  ∀ (s : State) (w : Word), s.phase = .idle →
    ∃ t, hostTurn (.writeReg (s.cfg.raw.engineBase + 0x008) 4 w) s = .next t ∧
      t.cmd = w ∧ t.done = false ∧ t.err = false ∧ t.ecode = .none ∧ t.ovr = s.ovr ∧ t.phase = .busy ∧
      t.snapshot = s.args ∧ t.args = s.args ∧ t.cfg = s.cfg ∧ t.ie = s.ie ∧ t.res = s.res ∧ t.voices = s.voices ∧
      t.wbuf = s.wbuf ∧ MemUnchanged s t ∧
      ∀ (k : Fin 8) (v : Word) (u : State), hostTurn (.writeReg (s.cfg.raw.engineBase + (0x010 + 4 * k.val)) 4 v) t = .next u →
        u.args = s.args ∧ ∀ j, u.arg j = s.args.val[j]

/-- 40_lifecycle.md R63: a write to CMD or an ARG while BUSY sets OVR and has no other effect; OVR stays until the host clears it
(or a reset does, 70_reset_and_hazards.md R134, R135). -/
def Obligations.WritesWhileBusyAreIgnored : Prop :=
  (∀ (s : State) (v : Word), s.phase = .busy →
    hostTurn (.writeReg (s.cfg.raw.engineBase + 0x008) 4 v) s = .next { s with ovr := true } ∧
      ∀ k : Fin 8, hostTurn (.writeReg (s.cfg.raw.engineBase + (0x010 + 4 * k.val)) 4 v) s = .next { s with ovr := true }) ∧
  ∀ (s s' : State) (t : Turn), turn t s = .next s' → s.ovr = true →
    s'.ovr = true ∨ t = .host .reset ∨ ∃ a v, t = .host (.writeReg a 4 v) ∧
      ((a = s.cfg.raw.engineBase + 0x004 ∧ v.getLsbD 3 = true) ∨ (a = s.cfg.raw.engineBase ∧ v.getLsbD 1 = true))

/-- 40_lifecycle.md R64, 60_exceptions.md R123: with the ARGs written, the error raised is the first met in the order ILLEGAL,
VOICE, TABLE, ALIGN, RANGE, OVERLAP; with none met the command raises none of them. -/
def Obligations.FirstErrorInOrder : Prop :=
  ∀ (i : Instr) (s : State), s.wrote (argsReadBy i s) → s.streamsInMem →
    (∀ c, c ≠ .none → (conditionsOf i s).first c → exec i s = .next (s.raiseError c)) ∧
      ((conditionsOf i s).first .none → ∃ t, exec i s = .next t ∧ ((t.err = s.err ∧ t.ecode = s.ecode) ∨ t.ecode = .image))

/-- 60_exceptions.md R124: errors are precise. Whatever command ends with ERR set, everything but STATUS is as before it. -/
def Obligations.ErrorsArePrecise : Prop :=
  ∀ (i : Instr) (s t : State), exec i s = .next t → s.err = false → t.err = true →
    t.ecode ≠ .none ∧ t.done = true ∧ t.phase = .idle ∧ t.ovr = s.ovr ∧ t.res = s.res ∧ t.voices = s.voices ∧
      t.wbuf = s.wbuf ∧ t.mem.cells = s.mem.cells ∧ t.cmd = s.cmd ∧ t.args = s.args ∧ t.snapshot = s.snapshot ∧
      t.ie = s.ie ∧ t.cfg = s.cfg ∧ t.script = s.script ∧ t.outbox = s.outbox

/-- 10_state.md R23, 93_implementation_defined.md I3: a command that raises no validation error and reads an ARG nothing has
written stops, on such an ARG. -/
def Obligations.UnwrittenArgumentFaults : Prop :=
  ∀ (i : Instr) (s : State) (k : Fin 8), (conditionsOf i s).first .none → s.streamsInMem → k ∈ argsReadBy i s →
    s.snapshot.written[k] = false →
      ∃ j ∈ argsReadBy i s, s.snapshot.written[j] = false ∧ exec i s = .fault (.unwrittenArg j)

/-- 40_lifecycle.md R67: an accepted command completes in one step of the engine, whatever its word and arguments, once its ARGs
are written. -/
def Obligations.EveryCommandCompletes : Prop :=
  ∀ s : State, StateInv s → s.phase = .busy → (∀ i, decode s.cmd = .ok i → s.wrote (argsReadBy i s)) →
    ∃ t, engineTurn s = .next t ∧ t.phase = .idle ∧ t.done = true

/-- 60_exceptions.md R126: the interrupt output, when it rises and when it falls. A write to STATUS that clears both DONE and ERR,
whatever its other bits, brings it down; one that clears less leaves it as the two bits that stay say. -/
def Obligations.InterruptOutput : Prop :=
  ∀ s : State, (s.irq = true ↔ s.ie = true ∧ (s.done = true ∨ s.err = true)) ∧
    (∀ b, { s with ovr := b }.irq = s.irq) ∧
    (∀ t, s.phase = .busy → engineTurn s = .next t → t.irq = s.ie) ∧
    (∀ (v : Word) (t : State), hostTurn (.writeReg (s.cfg.raw.engineBase + 0x004) 4 v) s = .next t →
      t.irq = (s.ie && (s.done && !v.getLsbD 1 || s.err && !v.getLsbD 2)) ∧
        (v.getLsbD 1 = true → v.getLsbD 2 = true → t.irq = false)) ∧
    (∀ (v : Word) (t : State), v.getLsbD 0 = false → hostTurn (.writeReg s.cfg.raw.engineBase 4 v) s = .next t →
      t.irq = false) ∧
    (∀ (v : Word) (t : State), v.getLsbD 0 = true → v.getLsbD 1 = false →
      hostTurn (.writeReg s.cfg.raw.engineBase 4 v) s = .next t → t.irq = (s.done || s.err)) ∧
    (∀ (w : Word) (t : State), s.phase = .idle → hostTurn (.writeReg (s.cfg.raw.engineBase + 0x008) 4 w) s = .next t →
      t.irq = false) ∧
    ∀ t, hostTurn .reset s = .next t → t.irq = false

/-! ### Reset -/

/-- 70_reset_and_hazards.md R134, R136: what the reset input leaves, in either phase. Which buffers the command in progress
writes is the model's reading, log 14 (DEDUCED): none when its word is illegal or its validation fails; and log 21
(DESIGN CHOICE): none when its validation reads an ARG nothing has written. -/
def Obligations.HardwareReset : Prop :=
  ∀ s : State, ∃ t, hostTurn .reset s = .next t ∧ t.ctrlWord = 0 ∧ t.statusWord = 0 ∧ t.cmd = 0 ∧ t.phase = .idle ∧
    (∀ v, (t.voice v).bound = false) ∧ (∀ k : Fin 8, t.args.written[k] = false) ∧ t.cfg = s.cfg ∧ t.irq = false ∧
    (∀ a, (∀ r ∈ s.writtenNow, r.has a = false) → t.mem.peek a = s.mem.peek a) ∧
    (s.phase = .idle → MemUnchanged s t)

/-- 70_reset_and_hazards.md R135: a write of SRST = 1 to CTRL has exactly the effect of the reset input, whatever bit 0 says; a
write of SRST = 0 only updates IE. -/
def Obligations.SoftReset : Prop :=
  ∀ (s : State) (v : Word),
    (v.getLsbD 1 = true → hostTurn (.writeReg s.cfg.raw.engineBase 4 v) s = hostTurn .reset s) ∧
      (v.getLsbD 1 = false → hostTurn (.writeReg s.cfg.raw.engineBase 4 v) s = .next { s with ie := v.getLsbD 0 })

/-! ### Host registers -/

/-- 10_state.md R18: an access to the block that is not 32 bits wide or not aligned is refused, an aligned one is admitted.
Aligned means that the offset from ENGINE_BASE is a multiple of 4, which is the model's choice (log 13, DESIGN CHOICE) where
ENGINE_BASE itself is not. -/
def Obligations.HostAccessWidthAndAlignment : Prop :=
  ∀ (s : State) (off width : Nat) (v : Word), off < 1024 →
    (width ≠ 4 ∨ off % 4 ≠ 0 →
      hostTurn (.readReg (s.cfg.raw.engineBase + off) width) s = .refused .hostAccess ∧
        hostTurn (.writeReg (s.cfg.raw.engineBase + off) width v) s = .refused .hostAccess) ∧
      (width = 4 ∧ off % 4 = 0 →
        (∃ t, hostTurn (.readReg (s.cfg.raw.engineBase + off) width) s = .next t) ∧
          ∃ t, hostTurn (.writeReg (s.cfg.raw.engineBase + off) width v) s = .next t)

/-- 10_state.md R21: the STATUS word, and what writing it does. -/
def Obligations.StatusRegister : Prop :=
  ∀ (s : State),
    (∃ w : Word, hostTurn (.readReg (s.cfg.raw.engineBase + 0x004) 4) s = .next { s with outbox := w :: s.outbox } ∧
      (w.getLsbD 0 = true ↔ s.phase = .busy) ∧ w.getLsbD 1 = s.done ∧ w.getLsbD 2 = s.err ∧ w.getLsbD 3 = s.ovr ∧
      w.extractLsb' 4 4 = 0 ∧ w.extractLsb' 8 4 = s.ecode.bits ∧ w.extractLsb' 12 20 = 0) ∧
    ∀ v : Word, hostTurn (.writeReg (s.cfg.raw.engineBase + 0x004) 4 v) s = .next { s with
      done := s.done && !v.getLsbD 1
      err := s.err && !v.getLsbD 2
      ovr := s.ovr && !v.getLsbD 3
      ecode := if v.getLsbD 2 then .none else s.ecode }

/-- 10_state.md R19: reserved offsets and bits read 0, and writes to them, to read-only registers and to read-only fields have no
effect. -/
def Obligations.ReservedAndReadOnly : Prop :=
  ∀ (s : State) (v : Word),
    (∀ off, off < 1024 → off % 4 = 0 →
      off = 0x00C ∨ (0x04C ≤ off ∧ off < 0x100) ∨ 0x100 + 0x40 * s.cfg.raw.nVoices ≤ off →
        hostTurn (.readReg (s.cfg.raw.engineBase + off) 4) s = .next { s with outbox := 0 :: s.outbox } ∧
          hostTurn (.writeReg (s.cfg.raw.engineBase + off) 4 v) s = .next s) ∧
    (∀ off, off < 1024 → off % 4 = 0 → 0x030 ≤ off → hostTurn (.writeReg (s.cfg.raw.engineBase + off) 4 v) s = .next s) ∧
    s.writeReg v .status = s.writeReg (v &&& 0xE) .status ∧ s.writeReg v .ctrl = s.writeReg (v &&& 3) .ctrl ∧
    s.statusWord &&& 0xFFFFF0F0 = 0 ∧ s.ctrlWord &&& 0xFFFFFFFE = 0 ∧
    ∀ x : Voice, x.vctl &&& 0xFF00C000 = 0 ∧ ∀ word, 0x28 ≤ word → x.windowWord word = 0

/-- 10_state.md R25, R26, R27: the configuration registers read the configuration, in either phase. HEAP_OFFSET has at most 32
bits here (log 17). -/
def Obligations.ConfigurationRegisters : Prop :=
  ∀ s : State, ∃ w0 w1 w2 : Word,
    hostTurn (.readReg (s.cfg.raw.engineBase + 0x040) 4) s = .next { s with outbox := w0 :: s.outbox } ∧
    hostTurn (.readReg (s.cfg.raw.engineBase + 0x044) 4) s = .next { s with outbox := w1 :: s.outbox } ∧
    hostTurn (.readReg (s.cfg.raw.engineBase + 0x048) 4) s = .next { s with outbox := w2 :: s.outbox } ∧
    (w0.extractLsb' 0 8).toNat = s.cfg.raw.nVoices ∧ (w0.extractLsb' 8 8).toNat = s.cfg.nTables ∧
    (w0.extractLsb' 16 4).toNat = s.cfg.nPred ∧ (w0.extractLsb' 20 12).toNat = s.cfg.raw.bufferSize ∧
    (w1.extractLsb' 0 16).toNat = s.cfg.raw.numDir ∧ (w1.extractLsb' 16 16).toNat = s.cfg.raw.numFiles ∧
    (s.cfg.raw.heapOffset < 2 ^ 32 → w2.toNat = s.cfg.raw.heapOffset)

/-- 10_state.md R31, R32: the window of a bound voice while IDLE shows every field of the voice; a write to it has no effect. An
unbound voice shows BOUND = 0 (R30). -/
def Obligations.VoiceWindow : Prop :=
  ∀ (s : State) (v : Nat), s.phase = .idle → v < s.cfg.raw.nVoices →
    let x := s.voice v
    let read := fun word => hostTurn (.readReg (s.cfg.raw.engineBase + (0x100 + 0x40 * v + word)) 4) s
    let shows := fun word value => read word = .next { s with outbox := value :: s.outbox }
    (x.bound = true → (∃ w : Word, shows 0x00 w ∧ w.getLsbD 0 = true ∧ w.getLsbD 1 = x.is8 ∧ w.getLsbD 2 = x.odd ∧
        w.getLsbD 3 = x.p.high ∧ w.extractLsb' 4 4 = x.p.shift ∧ w.extractLsb' 8 4 = x.table ∧ w.extractLsb' 12 2 = x.pred ∧
        w.extractLsb' 14 2 = 0 ∧ w.extractLsb' 16 8 = x.p.held ∧ w.extractLsb' 24 8 = 0) ∧
      (∃ w : Word, shows 0x04 w ∧ w.toInt = x.p.prev1.toInt) ∧ (∃ w : Word, shows 0x08 w ∧ w.toInt = x.p.prev2.toInt) ∧
      (∃ w : Word, shows 0x0C w ∧ w.toNat = x.p.volsh.toNat) ∧ (∃ w : Word, shows 0x10 w ∧ w.toNat = x.p.voltgt.toNat) ∧
      shows 0x14 x.base ∧ shows 0x18 x.size ∧ shows 0x1C x.cursor ∧ shows 0x20 x.total ∧ shows 0x24 x.pos ∧
      ∀ word, 0x28 ≤ word → word < 0x40 → word % 4 = 0 → shows word 0) ∧
    (x.bound = false → ∃ t w, read 0x00 = .next t ∧ t.outbox = w :: s.outbox ∧ w.getLsbD 0 = false) ∧
    ∀ word value, word < 0x40 → word % 4 = 0 →
      hostTurn (.writeReg (s.cfg.raw.engineBase + (0x100 + 0x40 * v + word)) 4 value) s = .next s

/-- 10_state.md R23, R24, R22, 70_reset_and_hazards.md R138: an ARG written while IDLE reads back, and the command reads it; RES
reads the results while IDLE, and any value while BUSY (93_implementation_defined.md I4); CTRL, CMD and ARGs read their values
in either phase. -/
def Obligations.HostRegisterReads : Prop :=
  ∀ s : State,
    (∀ (k : Fin 8) (v : Word), s.phase = .idle →
      ∃ t, hostTurn (.writeReg (s.cfg.raw.engineBase + (0x010 + 4 * k.val)) 4 v) s = .next t ∧ t.args.val[k] = v ∧
        t.args.written[k] = true ∧ (∀ j, j ≠ k → t.args.val[j] = s.args.val[j] ∧ t.args.written[j] = s.args.written[j]) ∧
        { t with args := s.args } = s) ∧
    (∀ k : Fin 8, hostTurn (.readReg (s.cfg.raw.engineBase + (0x010 + 4 * k.val)) 4) s =
      .next { s with outbox := s.args.val[k] :: s.outbox }) ∧
    (∀ k : Fin 4, s.phase = .idle → hostTurn (.readReg (s.cfg.raw.engineBase + (0x030 + 4 * k.val)) 4) s =
      .next { s with outbox := s.res[k] :: s.outbox }) ∧
    (∀ k : Fin 4, ∃ (w : Word) (n : Nat), hostTurn (.readReg (s.cfg.raw.engineBase + (0x030 + 4 * k.val)) 4) s =
      .next { s with outbox := w :: s.outbox, mem := { s.mem with draws := n } }) ∧
    hostTurn (.readReg (s.cfg.raw.engineBase + 0x008) 4) s = .next { s with outbox := s.cmd :: s.outbox } ∧
    hostTurn (.readReg s.cfg.raw.engineBase 4) s = .next { s with outbox := (if s.ie then 1 else 0) :: s.outbox }

/-- Every host action within the contract has a next state (10_state.md R18, 20_memory.md R36), and what a host read of MEM
returns: a byte the running command does not write reads as MEM holds it and nothing but the outbox changes (20_memory.md R43,
R46 O2, O5), so for EXPAND the frames it does not produce (43_expander.md R105); a byte it writes reads as any byte (R46 O3,
70_reset_and_hazards.md R138), and only the outbox and the count of used free values change. That a command whose validation
fails, or reads an unwritten ARG, writes no byte is the model's reading (logs 7, 21). -/
def Obligations.ContractActionsAreAdmitted : Prop :=
  ∀ s : State, (∀ a : HostAction, a.keepsContract s = true → Safe (hostTurn a s)) ∧
    ∀ addr, addr < s.cfg.raw.memSize →
      ((∀ r ∈ s.bytesWrittenNow, r.has addr = false) →
        hostTurn (.readMem addr) s = .next { s with outbox := (s.mem.peek addr).setWidth 32 :: s.outbox }) ∧
      (∃ (w : Word) (n : Nat), hostTurn (.readMem addr) s =
        .next { s with outbox := w :: s.outbox, mem := { s.mem with draws := n } } ∧ w.toNat < 256) ∧
      ∀ v add ove, s.running = some (.expand v add ove) →
        s.base0 + 8 * min s.count ((s.voice v.toNat).total.toNat - (s.voice v.toNat).pos.toNat) ≤ addr →
          hostTurn (.readMem addr) s = .next { s with outbox := (s.mem.peek addr).setWidth 32 :: s.outbox }

/-! ### Memory -/

/-- 20_memory.md R43: MEM is plain memory: a byte reads as last written, a write changes no other byte, and both keep the
canonical form; without a race the engine's port reads and writes it so. -/
def Obligations.MemReadsLastWrite : Prop :=
  ∀ (p : MemPort) (a : Nat) (b : Byte), p.wf = true →
    (p.poke a b).peek a = b ∧ (∀ a', a' ≠ a → (p.poke a b).peek a' = p.peek a') ∧ (p.poke a b).wf = true ∧
      (p.races = [] → p.read a = (p.peek a, p) ∧ p.write a b = p.poke a b)

/-- Two MEMs in canonical form that read alike hold the same cells: a property of the representation of MEM the model chose
(log 5, DESIGN CHOICE). -/
def Obligations.CanonicalMemIsUnique : Prop :=
  ∀ p q : MemPort, p.wf = true → q.wf = true → (∀ a, p.peek a = q.peek a) → p.cells = q.cells

/-- 20_memory.md R38, 00_scope.md R13: values are little-endian, and the first sample of a 4-bit byte is its low nibble. -/
def Obligations.LittleEndian : Prop :=
  ∀ (p : MemPort) (a v n : Nat), p.races = [] → p.wf = true →
    (∀ i < n, (p.writeLE a n v).peek (a + i) = BitVec.ofNat 8 (v / 256 ^ i)) ∧
    (∀ x, x < a ∨ a + n ≤ x → (p.writeLE a n v).peek x = p.peek x) ∧
    (v < 256 ^ n → ((p.writeLE a n v).readLE a n).1 = v) ∧
    (p.readLE a 4).1 = (p.peek a).toNat + 256 * ((p.peek (a + 1)).toNat + 256 * ((p.peek (a + 2)).toNat +
      256 * (p.peek (a + 3)).toNat)) ∧
    (readSample p a).1 = ((p.peek a).toNat + 256 * (p.peek (a + 1)).toNat : Int) -
      (if 128 ≤ (p.peek (a + 1)).toNat then 65536 else 0) ∧
    ∀ lo hi : BitVec 4, (packCodes lo hi).toNat = lo.toNat + 16 * hi.toNat

/-- 20_memory.md R46 (O3, O5): a host write outside the running command's footprint is a plain write. One inside it races: each
engine read of the byte is the old or a written value, and a byte both write ends with the engine's or the last host value,
after one host write and after a second. The model's choices (log 7, DESIGN CHOICE): MEM holds the host's byte while the race
is open, the record `races` keeps the others, and a command whose validation fails has an empty footprint; so has one whose validation reads an ARG nothing has written
(log 21, DESIGN CHOICE). -/
def Obligations.HostWritesRace : Prop :=
  ∀ (s : State) (a : Nat) (b : Byte), a < s.cfg.raw.memSize → s.quiet →
    ∃ t, hostTurn (.writeMem a b) s = .next t ∧ t.mem.peek a = b ∧ (∀ a', a' ≠ a → t.mem.peek a' = s.mem.peek a') ∧
      { t with mem := s.mem } = s ∧
      ((∀ r ∈ s.footprint, r.has a = false) → t.mem.races = []) ∧
      ((∃ r ∈ s.footprint, r.has a = true) →
        ((t.mem.read a).1 = s.mem.peek a ∨ (t.mem.read a).1 = b) ∧
          ∀ c : Byte, ((t.mem.write a c).peek a = b ∨ (t.mem.write a c).peek a = c) ∧
            ∀ a', a' ≠ a → (t.mem.read a').1 = s.mem.peek a' ∧ (t.mem.write a c).peek a' = s.mem.peek a') ∧
      ((∃ r ∈ s.footprint, r.has a = true) → ∀ b2 : Byte, ∃ u, hostTurn (.writeMem a b2) t = .next u ∧ u.mem.peek a = b2 ∧
        (∀ a', a' ≠ a → u.mem.peek a' = s.mem.peek a') ∧ { u with mem := s.mem } = s ∧
        ((u.mem.read a).1 = s.mem.peek a ∨ (u.mem.read a).1 = b ∨ (u.mem.read a).1 = b2) ∧
        ∀ c : Byte, (u.mem.write a c).peek a = b2 ∨ (u.mem.write a c).peek a = c)

/-! ### The datapath -/

/-- 41_datapath.md R72, R73: the prediction and the step multiplier. -/
def Obligations.PredictionAndMultiplier : Prop :=
  ∀ p : Predictor, p.guess = max (-32768) (min 32767 (2 * p.prev1.toInt - p.prev2.toInt)) ∧
    p.mult = 2 ^ p.shift.toNat ∧ (p.shift.toNat ≤ 12 → 1 ≤ p.mult ∧ p.mult ≤ 4096) ∧
      (p.shift.toNat ≤ 8 → 1 ≤ p.mult ∧ p.mult ≤ 256)

/-- 41_datapath.md R75, R76: the shift adapts by the table and is clamped, in the encoder's step and the decoder's. -/
def Obligations.ShiftAdaptation : Prop :=
  ∀ (cfg : Config) (t : Nat) (p : Predictor) (value : Int) (c : BitVec 4) (b : Byte),
    let clamped := fun (x limit : Int) => max 0 (min limit x)
    ((dec4Step cfg t p c).2.shift.toNat : Int) =
      clamped (p.shift.toNat + cfg.delta4 t (cfg.step4 t c.toNat).natAbs) 12 ∧
    ((dec8Step cfg t p b).2.shift.toNat : Int) = clamped (p.shift.toNat + cfg.delta8 t (b.toNat % 128)) 8 ∧
    (t < cfg.nTables → ((enc4Step cfg t p value).2.2.shift.toNat : Int) =
      clamped (p.shift.toNat + cfg.delta4 t (cfg.step4 t (enc4Step cfg t p value).1.toNat).natAbs) 12) ∧
    ((enc8Step cfg t p value).2.2.shift.toNat : Int) =
      clamped (p.shift.toNat + cfg.delta8 t ((enc8Step cfg t p value).1.toNat % 128)) 8

/-- 41_datapath.md R74, R81..R84: every step pushes its reconstruction: prev2 takes prev1, prev1 takes p; the packing and volume
fields stay. -/
def Obligations.HistoryAdvances : Prop :=
  ∀ (cfg : Config) (t : Nat) (p : Predictor) (value : Int) (c : BitVec 4) (b : Byte), t < cfg.nTables →
    let advanced := fun (q : Predictor) (r : Int) =>
      q.prev2 = p.prev1 ∧ q.prev1.toInt = r ∧ q.high = p.high ∧ q.held = p.held ∧ q.volsh = p.volsh ∧ q.voltgt = p.voltgt
    advanced (enc4Step cfg t p value).2.2 (enc4Step cfg t p value).2.1 ∧ advanced (dec4Step cfg t p c).2 (dec4Step cfg t p c).1 ∧
      advanced (enc8Step cfg t p value).2.2 (enc8Step cfg t p value).2.1 ∧ advanced (dec8Step cfg t p b).2 (dec8Step cfg t p b).1

/-- 41_datapath.md R77: the 4-bit encoder's code is the lowest of those with the least error among the legal ones, and its
reconstruction is legal. -/
def Obligations.Encoder4Choice : Prop :=
  ∀ (cfg : Config) (t : Nat) (p : Predictor) (value : Int), t < cfg.nTables →
    let r := fun j => p.guess + p.mult * cfg.step4 t j
    let c := (enc4Step cfg t p value).1.toNat
    (enc4Step cfg t p value).2.1 = r c ∧ -32768 ≤ r c ∧ r c ≤ 32767 ∧
      ∀ j < 16, -32768 ≤ r j → r j ≤ 32767 →
        (r c - value).natAbs ≤ (r j - value).natAbs ∧ (j < c → (r c - value).natAbs < (r j - value).natAbs)

/-- 41_datapath.md R79: the 8-bit encoder's sign and magnitude, the pull back into 16 bits, and its reconstruction. -/
def Obligations.Encoder8Choice : Prop :=
  ∀ (cfg : Config) (t : Nat) (p : Predictor) (value : Int),
    let g := p.guess
    let mu := p.mult
    let s := decide (value < g)
    let m0 : Int := min (((value - g).natAbs + (mu - 1) / 2) / mu) 127
    let r := g + (if s then -m0 else m0) * mu
    let m := if r > 32767 then (32767 - g) / mu else if r < -32768 then (g + 32768) / mu else m0
    let b := (enc8Step cfg t p value).1
    let q := (enc8Step cfg t p value).2.1
    b.getLsbD 7 = s ∧ ((b.toNat % 128 : Nat) : Int) = m ∧ q = g + (if s then -m else m) * mu ∧ -32768 ≤ q ∧ q ≤ 32767

/-- 41_datapath.md R78, R80: the decoders' reconstructions, which are the encoder's own for a code the encoder emits, and the two
codes of a zero delta. -/
def Obligations.DecoderReconstruction : Prop :=
  ∀ (cfg : Config) (t : Nat) (p : Predictor) (value : Int) (c : BitVec 4) (b : Byte),
    let clamped := fun x : Int => max (-32768) (min 32767 x)
    (dec4Step cfg t p c).1 = clamped (p.guess + p.mult * cfg.step4 t c.toNat) ∧
      (dec8Step cfg t p b).1 =
        clamped (p.guess + (if b.getLsbD 7 then -((b.toNat % 128 : Nat) : Int) else ((b.toNat % 128 : Nat) : Int)) * p.mult) ∧
      (dec8Step cfg t p 0x00).1 = p.guess ∧ dec8Step cfg t p 0x80 = dec8Step cfg t p 0x00 ∧
      (t < cfg.nTables → (dec4Step cfg t p (enc4Step cfg t p value).1).1 = (enc4Step cfg t p value).2.1) ∧
      (dec8Step cfg t p (enc8Step cfg t p value).1).1 = (enc8Step cfg t p value).2.1

/-- 41_datapath.md R85: the decoder, fed the codes the encoder emits, reproduces its reconstructions and its state, sample by
sample. -/
def Obligations.Lockstep : Prop :=
  ∀ (cfg : Config) (t : Nat) (e d : Predictor) (values : List Int), t < cfg.nTables → SameHistory e d →
    ∀ k ≤ values.length,
      let enc4 := encodeAll4 cfg t e (values.take k)
      let dec4 := decodeAll4 cfg t d (enc4.1.map (·.1))
      let enc8 := encodeAll8 cfg t e (values.take k)
      let dec8 := decodeAll8 cfg t d (enc8.1.map (·.1))
      dec4.1 = enc4.1.map (·.2) ∧ SameHistory enc4.2 dec4.2 ∧ dec8.1 = enc8.1.map (·.2) ∧ SameHistory enc8.2 dec8.2

/-- 41_datapath.md R86, R87: the codes packed into bytes are the codes the stream yields, in order; an odd count leaves pad code 0
in the last high nibble. -/
def Obligations.PackingRoundTrip : Prop :=
  ∀ (cs : List (BitVec 4)) (m : MemPort) (a : Nat), bytesAt m a (packAll cs).length = packAll cs →
    (packAll cs).length = (cs.length + 1) / 2 ∧ codesAt m false a cs.length = cs.map .four ∧
      (cs.length % 2 = 1 → codeAt m false a cs.length = .four 0)

/-- 41_datapath.md R89, R90: VolSet, and the ramp: after k easing steps volsh is k * EASING nearer to voltgt, or has reached it
and stays. -/
def Obligations.VolumeRamp : Prop :=
  ∀ (cfg : Config) (p : Predictor) (vol : Nat) (ove : Bool) (k : Nat), vol < 65536 →
    let q := p.volSet vol ove
    let r := (fun x : Predictor => x.ease cfg)^[k] q
    q.voltgt.toNat = vol * 256 ∧ q.volsh = (if ove then q.voltgt else p.volsh) ∧ r.voltgt = q.voltgt ∧
      ((q.volsh.toNat : Int) - q.voltgt.toNat).natAbs - k * cfg.raw.easing = ((r.volsh.toNat : Int) - r.voltgt.toNat).natAbs ∧
      (q.volsh.toNat ≤ q.voltgt.toNat → r.volsh.toNat ≤ r.voltgt.toNat) ∧
      (q.voltgt.toNat ≤ q.volsh.toNat → r.voltgt.toNat ≤ r.volsh.toNat)

/-- 41_datapath.md R91: the output value, its size, and that unity is the identity and 0 is silence. -/
def Obligations.OutputScale : Prop :=
  ∀ (p : Predictor) (r : Int), -32768 ≤ r → r ≤ 32767 →
    p.scale r = r * p.volsh.toNat / 65536 ∧ -8388608 ≤ p.scale r ∧ p.scale r < 8388608 ∧
      (p.volsh.toNat ≤ 65535 * 256 → (p.scale r).natAbs < 2 ^ 23) ∧ (p.volsh.toNat = 65536 → p.scale r = r) ∧ (p.volsh.toNat = 0 → p.scale r = 0)

/-- 41_datapath.md R92: a frame's two words take the value, or the saturated sum, each on its own; nothing else changes. -/
def Obligations.FrameOutput : Prop :=
  ∀ (p : MemPort) (add : Bool) (d k : Nat) (o : Int), p.races = [] → p.wf = true → -2147483648 ≤ o → o ≤ 2147483647 →
    let q := emitFrame add d k o p
    let word := fun old : Int => if add then max (-2147483648) (min 2147483647 (old + o)) else o
    frameWord q (d + 8 * k) = word (frameWord p (d + 8 * k)) ∧
      frameWord q (d + 8 * k + 4) = word (frameWord p (d + 8 * k + 4)) ∧
      ∀ a, a < d + 8 * k ∨ d + 8 * k + 8 ≤ a → q.peek a = p.peek a

/-! ### The commands -/

/-- 40_lifecycle.md R68: NOP completes, and changes nothing but DONE and the phase. -/
def Obligations.NopResult : Prop :=
  ∀ s : State, ∃ t, exec .nop s = .next t ∧ Completed s t ∧ t.res = s.res ∧ t.voices = s.voices ∧ t.wbuf = s.wbuf ∧
    t.mem.cells = s.mem.cells

/-- 42_codec.md R95: ENC4. Its checks passed, it completes; RES0 is the byte count; only the code buffer is written; and, with no
race, the code buffer and RES1..RES3 hold the encoding of the samples. -/
def Obligations.Enc4Result : Prop :=
  ∀ (t : BitVec 4) (p : BitVec 2) (s : State), CanEncode false t p s →
    ∃ u, exec (.enc4 t p) s = .next u ∧ Completed s u ∧ u.voices = s.voices ∧ u.wbuf = s.wbuf ∧
      u.res[0].toNat = (s.count + 1) / 2 ∧ UnchangedOutside ⟨s.dstBase, (s.count + 1) / 2⟩ s u ∧
      (s.quiet →
        let values := samplesAt s.mem s.srcBase s.count
        bytesAt u.mem s.dstBase ((s.count + 1) / 2) = encodedBytes s.cfg false t.toNat p.toNat values ∧
          errorResults u (encodedSSE s.cfg false t.toNat p.toNat values) s.count ∧ u.mem.draws = s.mem.draws)

/-- 42_codec.md R97: ENC8, the same with one byte a sample. -/
def Obligations.Enc8Result : Prop :=
  ∀ (t : BitVec 4) (p : BitVec 2) (s : State), CanEncode true t p s →
    ∃ u, exec (.enc8 t p) s = .next u ∧ Completed s u ∧ u.voices = s.voices ∧ u.wbuf = s.wbuf ∧
      u.res[0].toNat = s.count ∧ UnchangedOutside ⟨s.dstBase, s.count⟩ s u ∧
      (s.quiet →
        let values := samplesAt s.mem s.srcBase s.count
        bytesAt u.mem s.dstBase s.count = encodedBytes s.cfg true t.toNat p.toNat values ∧
          errorResults u (encodedSSE s.cfg true t.toNat p.toNat values) s.count ∧ u.mem.draws = s.mem.draws)

/-- 42_codec.md R96: DEC4. Its checks passed, it completes; RES0 is n; only the frame buffer is written; and, with no race, each
frame holds the played value, written or added. -/
def Obligations.Dec4Result : Prop :=
  ∀ (t : BitVec 4) (p : BitVec 2) (add ove : Bool) (s : State), Decodable false t p s →
    ∃ u, exec (.dec4 t p add ove) s = .next u ∧ Completed s u ∧ u.voices = s.voices ∧ u.wbuf = s.wbuf ∧
      u.res[0].toNat = s.count ∧ u.res[1] = s.res[1] ∧ u.res[2] = s.res[2] ∧ u.res[3] = s.res[3] ∧
      UnchangedOutside ⟨s.dstBase, 8 * s.count⟩ s u ∧
      (s.quiet →
        FramesMixed add s.mem u.mem s.dstBase (playAll s.cfg t.toNat ((seeded s.cfg p.toNat 0x10000).volSet s.decVolume ove)
          (codesAt s.mem false s.srcBase s.count)).1 ∧ u.mem.draws = s.mem.draws)

/-- 42_codec.md R98: DEC8, the same with one byte a sample. -/
def Obligations.Dec8Result : Prop :=
  ∀ (t : BitVec 4) (p : BitVec 2) (add ove : Bool) (s : State), Decodable true t p s →
    ∃ u, exec (.dec8 t p add ove) s = .next u ∧ Completed s u ∧ u.voices = s.voices ∧ u.wbuf = s.wbuf ∧
      u.res[0].toNat = s.count ∧ u.res[1] = s.res[1] ∧ u.res[2] = s.res[2] ∧ u.res[3] = s.res[3] ∧
      UnchangedOutside ⟨s.dstBase, 8 * s.count⟩ s u ∧
      (s.quiet →
        FramesMixed add s.mem u.mem s.dstBase (playAll s.cfg t.toNat ((seeded s.cfg p.toNat 0x10000).volSet s.decVolume ove)
          (codesAt s.mem true s.srcBase s.count)).1 ∧ u.mem.draws = s.mem.draws)

/-- 43_expander.md R101, R102: BIND writes the whole voice context and RES0, and nothing else. -/
def Obligations.BindResult : Prop :=
  ∀ (v t : BitVec 4) (p : BitVec 2) (is8 odd : Bool) (s : State), Bindable v t p is8 odd s →
    ∃ u, exec (.bind v t p is8 odd) s = .next u ∧ Completed s u ∧ u.wbuf = s.wbuf ∧ u.mem.cells = s.mem.cells ∧
      u.res[0].toNat = (if is8 then s.count else 2 * s.count - if odd then 1 else 0) ∧
      u.res[1] = s.res[1] ∧ u.res[2] = s.res[2] ∧ u.res[3] = s.res[3] ∧ (∀ w, w ≠ v.toNat → u.voice w = s.voice w) ∧
      ∃ q : Predictor, u.voice v.toNat =
        { bound := true, is8 := is8, odd := odd, table := t, pred := p, base := s.arg 0, size := s.arg 1, cursor := 0
          total := u.res[0], pos := 0, p := q } ∧
        q.prev1.toInt = (s.cfg.seed p.toNat).prev1 ∧ q.prev2.toInt = (s.cfg.seed p.toNat).prev2 ∧
        q.shift.toNat = (s.cfg.seed p.toNat).shift ∧ q.high = false ∧ q.held = 0 ∧ q.volsh = 0x10000 ∧ q.voltgt = 0x10000

/-- 43_expander.md R103, R104, R105: EXPAND. Its checks passed, it completes, and writes only its frames, WBUF, its voice and RES0,
RES1. On a voice that keeps the invariant it produces min(n, TOTAL - POS) samples and the voice still keeps it; with no race the
frames produced and the voice are those of playing the codes left, and no frame beyond them is written. -/
def Obligations.ExpandResult : Prop :=
  ∀ (v : BitVec 4) (add ove : Bool) (s : State), Expandable v s →
    let x := s.voice v.toNat
    let g := min s.count (x.total.toNat - x.pos.toNat)
    ∃ u, exec (.expand v add ove) s = .next u ∧ Completed s u ∧ u.res[2] = s.res[2] ∧ u.res[3] = s.res[3] ∧
      u.res[1] = (u.voice v.toNat).pos ∧ (∀ w, w ≠ v.toNat → u.voice w = s.voice w) ∧
      UnchangedOutside ⟨s.base0, 8 * s.count⟩ s u ∧
      (VoiceInv s.cfg x → u.res[0].toNat = g ∧ u.res[1].toNat = x.pos.toNat + g ∧ VoiceInv s.cfg (u.voice v.toNat) ∧
        (s.quiet → UnchangedOutside ⟨s.base0, 8 * g⟩ s u ∧
          FramesMixed add s.mem u.mem s.base0 (x.play s.cfg s.mem s.count s.expandVolume ove).1 ∧
          (x.play s.cfg s.mem s.count s.expandVolume ove).1.length = g ∧
          u.voice v.toNat = (x.play s.cfg s.mem s.count s.expandVolume ove).2 ∧
          (u.voice v.toNat).codesLeft u.mem = (x.codesLeft s.mem).drop g ∧ u.mem.draws = s.mem.draws))

/-- 43_expander.md R107: REWIND restores the seed, HIGH, HELD, CURSOR and POS of its voice, and keeps its binding and volume. -/
def Obligations.RewindResult : Prop :=
  ∀ (v : BitVec 4) (s : State), Rewindable v s →
    ∃ u, exec (.rewind v) s = .next u ∧ Completed s u ∧ u.res = s.res ∧ u.wbuf = s.wbuf ∧ u.mem.cells = s.mem.cells ∧
      (∀ w, w ≠ v.toNat → u.voice w = s.voice w) ∧
      ∃ q : Predictor, u.voice v.toNat = { s.voice v.toNat with cursor := 0, pos := 0, p := q } ∧
        q.prev1.toInt = (s.cfg.seed (s.voice v.toNat).pred.toNat).prev1 ∧
        q.prev2.toInt = (s.cfg.seed (s.voice v.toNat).pred.toNat).prev2 ∧
        q.shift.toNat = (s.cfg.seed (s.voice v.toNat).pred.toNat).shift ∧ q.high = false ∧ q.held = 0 ∧
        q.volsh = (s.voice v.toNat).p.volsh ∧ q.voltgt = (s.voice v.toNat).p.voltgt

/-- 43_expander.md R109: FILL. Its checks passed, it completes, and writes only its frames, WBUF, its voices and RES0, RES1. With
voices that keep the invariant and no race, every frame holds silence mixed with the voices in increasing order, each voice is
what playing leaves, and RES0 and RES1 are the ended and rewound masks. -/
def Obligations.FillResult : Prop :=
  ∀ (ove : Bool) (s : State), Fillable s →
    ∃ u, exec (.fill ove) s = .next u ∧ Completed s u ∧ u.res[2] = s.res[2] ∧ u.res[3] = s.res[3] ∧
      (∀ v, s.inFill v = false → u.voice v = s.voice v) ∧ UnchangedOutside ⟨(s.arg 2).toNat, 8 * s.fillCount⟩ s u ∧
      ((∀ v ∈ s.fillVoices, VoiceInv s.cfg (s.voice v)) →
        (∀ v ∈ s.fillVoices, VoiceInv s.cfg (u.voice v)) ∧
        (s.quiet → FramesHold u.mem (s.arg 2).toNat (s.fillMix ove) ∧ (s.fillMix ove).length = s.fillCount ∧
          (∀ v ∈ s.fillVoices, u.voice v = (s.fillPlay ove v).2.2) ∧
          (∀ v, u.res[0].getLsbD v = (decide (v ∈ s.fillVoices) && (s.fillPlay ove v).1.ended)) ∧
          (∀ v, u.res[1].getLsbD v = (decide (v ∈ s.fillVoices) && (s.fillPlay ove v).1.rewound)) ∧
          u.mem.draws = s.mem.draws))

/-- 44_select.md R110, R111: SELECT. Its checks passed, it completes, and writes only the code buffer and RES0..RES3. With no race
the winner is the first pair, table-major, with the least error, and the code buffer and the error results are its encoding's. -/
def Obligations.SelectResult : Prop :=
  ∀ (is8 : Bool) (s : State), Selectable is8 s →
    ∃ u, exec (.select is8) s = .next u ∧ Completed s u ∧ u.voices = s.voices ∧ u.wbuf = s.wbuf ∧
      UnchangedOutside (s.codeOut is8) s u ∧
      (s.quiet →
        let values := samplesAt s.mem s.srcBase s.count
        ∃ t p, FirstLeast (fun tp => encodedSSE s.cfg is8 tp.1 tp.2 values) (candidatePairs (s.arg 3) (s.arg 4)) (t, p) ∧
          t < 16 ∧ p < 4 ∧ u.res[0].toNat = t + 256 * p ∧ errorResults u (encodedSSE s.cfg is8 t p values) s.count ∧
          bytesAt u.mem s.dstBase (s.codeOut is8).len = encodedBytes s.cfg is8 t p values ∧ u.mem.draws = s.mem.draws)

/-- 44_select.md R111: the pairs SELECT tries are exactly those of its masks, each once, t ascending and p ascending within t. -/
def Obligations.SelectTriesTheMasks : Prop :=
  ∀ tmask pmask : Word,
    (∀ t p, (t, p) ∈ candidatePairs tmask pmask ↔
      (t < 16 ∧ tmask.getLsbD t = true) ∧ p < 4 ∧ pmask.getLsbD p = true) ∧
    (candidatePairs tmask pmask).Pairwise fun a b => a.1 < b.1 ∨ (a.1 = b.1 ∧ a.2 < b.2)

/-- 44_select.md R110, R112: SELECT over one pair writes the code buffer and the error results that ENC4 or ENC8 writes for it. -/
def Obligations.SelectOfOnePairIsEncode : Prop :=
  ∀ (is8 : Bool) (t : BitVec 4) (p : BitVec 2) (s : State), Selectable is8 s → s.quiet →
    s.arg 3 = BitVec.ofNat 32 (2 ^ t.toNat) → s.arg 4 = BitVec.ofNat 32 (2 ^ p.toNat) →
    ∃ u w, exec (.select is8) s = .next u ∧ exec (if is8 then .enc8 t p else .enc4 t p) s = .next w ∧
      u.mem.cells = w.mem.cells ∧ u.res[1] = w.res[1] ∧ u.res[2] = w.res[2] ∧ u.res[3] = w.res[3] ∧
      u.res[0].toNat = t.toNat + 256 * p.toNat

/-- 45_manifest.md R117, R118: LOOKUP_DIR. Its check passed, it completes and changes no voice and no byte. With no race: a record
found whose run fits the file table gives its index, first file and count; one whose run does not raises Error(IMAGE); no record
gives 0xFFFFFFFF, 0, 0. -/
def Obligations.LookupDirResult : Prop :=
  ∀ s : State, Lookable [1, 2] s →
    (∃ u, exec .lookupDir s = .next u ∧ u.phase = .idle ∧ u.done = true ∧ u.voices = s.voices ∧ u.wbuf = s.wbuf ∧
      u.mem.cells = s.mem.cells ∧ u.res[3] = s.res[3]) ∧
    (s.quiet →
      (∀ k, isDir s.cfg s.mem s.base0 (s.name 1 2) k →
        (dirFirst s.mem s.base0 k + dirCount s.mem s.base0 k ≤ s.cfg.raw.numFiles →
          ∃ u, exec .lookupDir s = .next u ∧ Completed s u ∧ u.res[0].toNat = k ∧
            u.res[1].toNat = dirFirst s.mem s.base0 k ∧ u.res[2].toNat = dirCount s.mem s.base0 k) ∧
        (s.cfg.raw.numFiles < dirFirst s.mem s.base0 k + dirCount s.mem s.base0 k →
          exec .lookupDir s = .next (s.raiseError .image))) ∧
      ((∀ k, ¬ isDir s.cfg s.mem s.base0 (s.name 1 2) k) →
        ∃ u, exec .lookupDir s = .next u ∧ Completed s u ∧ u.res[0] = 0xFFFFFFFF ∧ u.res[1] = 0 ∧ u.res[2] = 0))

/-- 45_manifest.md R117, R119: LOOKUP_FILE, likewise, and the search of the directory's run. -/
def Obligations.LookupFileResult : Prop :=
  ∀ s : State, Lookable [1, 2, 3, 4] s →
    (∃ u, exec .lookupFile s = .next u ∧ u.phase = .idle ∧ u.done = true ∧ u.voices = s.voices ∧ u.wbuf = s.wbuf ∧
      u.mem.cells = s.mem.cells) ∧
    (s.quiet →
      let notFoundIn := fun u => exec .lookupFile s = .next u ∧ Completed s u ∧ u.res[0] = 0xFFFFFFFF ∧ u.res[1] = 0 ∧
        u.res[2] = 0 ∧ u.res[3] = 0
      (∀ k, isDir s.cfg s.mem s.base0 (s.name 1 2) k →
        let first := dirFirst s.mem s.base0 k
        let count := dirCount s.mem s.base0 k
        (s.cfg.raw.numFiles < first + count → exec .lookupFile s = .next (s.raiseError .image)) ∧
        (first + count ≤ s.cfg.raw.numFiles →
          (∀ j, isFile s.cfg s.mem s.base0 first count (s.name 3 4) j →
            ∃ u, exec .lookupFile s = .next u ∧ Completed s u ∧ u.res[0].toNat = j ∧
              u.res[1] = word32At s.mem (fileRecord s.cfg s.base0 j + 8) ∧
              u.res[2] = word32At s.mem (fileRecord s.cfg s.base0 j + 12) ∧
              u.res[3] = BitVec.ofNat 32 (s.base0 + s.cfg.raw.heapOffset +
                (word32At s.mem (fileRecord s.cfg s.base0 j + 8)).toNat)) ∧
          ((∀ j, ¬ isFile s.cfg s.mem s.base0 first count (s.name 3 4) j) → ∃ u, notFoundIn u))) ∧
      ((∀ k, ¬ isDir s.cfg s.mem s.base0 (s.name 1 2) k) → ∃ u, notFoundIn u))

/-! ### Whole-machine rules -/

/-- 20_memory.md R37, 40_lifecycle.md R69, 10_state.md R16, R24, 43_expander.md: whatever command runs, it writes no byte outside
the buffers its rule names (EXPAND: outside the frames it produces, R105), no RES register and no voice its rule does not name, and none of the registers only the host
writes. -/
def Obligations.CommandFrame : Prop :=
  ∀ (i : Instr) (s t : State), exec i s = .next t →
    (∀ a, (∀ r ∈ bytesWrittenBy i s, r.has a = false) → t.mem.peek a = s.mem.peek a) ∧
    (∀ k : Fin 4, k ∉ resWrittenBy i → t.res[k] = s.res[k]) ∧ (∀ v, v ∉ voicesWrittenBy i s → t.voice v = s.voice v) ∧
    t.args = s.args ∧ t.snapshot = s.snapshot ∧ t.cmd = s.cmd ∧ t.ie = s.ie ∧ t.ovr = s.ovr ∧ t.cfg = s.cfg ∧
    t.script = s.script ∧ t.outbox = s.outbox ∧ t.phase = .idle ∧ t.done = true

/-- 00_scope.md R10: no step changes the configuration. -/
def Obligations.ConfigurationIsImmutable : Prop :=
  ∀ s t : State, step s = .next t → t.cfg = s.cfg

/-- The invariant holds after reset, for every configuration. -/
def Obligations.InvariantAtReset : Prop :=
  (∀ c : Config, StateInv (State.resetOf c)) ∧ StateInv State.reset

/-- Every step keeps the invariant: MEM is canonical and inside MEM_SIZE, every bound voice keeps the stream invariant
(43_expander.md R104) and its field ranges, ECODE is 0 exactly when ERR is (10_state.md R21), DONE and ERR are 0 while BUSY
(70_reset_and_hazards.md R139), and the running command's arguments are the ARGs (40_lifecycle.md R62). -/
def Obligations.InvariantIsKept : Prop :=
  ∀ s t : State, StateInv s → step s = .next t → StateInv t

/-- 42_codec.md R99 (b), (c): decoding at unity volume what an encode wrote gives the encoder's reconstructions in both words of
every frame, so the error of the decoded frames is the error the encoder reported. -/
def Obligations.EncodeThenDecode : Prop :=
  ∀ (is8 ove : Bool) (t : BitVec 4) (p : BitVec 2) (s d : State), CanEncode is8 t p s → s.quiet → Decodable is8 t p d →
    d.quiet → d.cfg = s.cfg → d.srcBase = s.dstBase → d.count = s.count → d.arg 3 = 256 →
    ∃ u, exec (if is8 then .enc8 t p else .enc4 t p) s = .next u ∧
      ((∀ a, s.dstBase ≤ a → a < s.dstBase + codeLen is8 s.count → d.mem.peek a = u.mem.peek a) →
        ∃ w, exec (if is8 then .dec8 t p false ove else .dec4 t p false ove) d = .next w ∧
          let values := samplesAt s.mem s.srcBase s.count
          let recs := encodedRecs s.cfg is8 t.toNat p.toNat values
          FramesHold w.mem d.dstBase recs ∧ recs.length = s.count ∧ errorResults u (sseOf values recs) s.count)

/-- 43_expander.md R106: EXPANDs of any sizes that sum to N <= TOTAL - POS, with one volume and OVE = 0, into consecutive frames,
leave the frames and the voice that one EXPAND of N leaves. -/
def Obligations.ChunkEquivalence : Prop :=
  ∀ (v : BitVec 4) (add : Bool) (vol : Word) (s u w : State) (d : Nat) (ns : List Nat),
    let whole := s.withArgs [BitVec.ofNat 32 d, BitVec.ofNat 32 ns.sum, vol]
    s.quiet → VoiceInv s.cfg (s.voice v.toNat) → d < 2 ^ 32 → Expandable v whole →
    ns.sum ≤ (s.voice v.toNat).total.toNat - (s.voice v.toNat).pos.toNat →
    ExpandRun v add false vol s d ns u → exec (.expand v add false) whole = .next w → ns ≠ [] →
      u.voice v.toNat = w.voice v.toNat ∧ ∀ a, u.mem.peek a = w.mem.peek a

/-- 43_expander.md R106: the output of EXPAND does not depend on BUFFER_SIZE. -/
def Obligations.BufferSizeIsInvisible : Prop :=
  ∀ (v : BitVec 4) (add ove : Bool) (s : State) (c : Config) (wbuf : List Byte), Expandable v s → s.quiet →
    VoiceInv s.cfg (s.voice v.toNat) → c.raw = { s.cfg.raw with bufferSize := c.raw.bufferSize } →
    ∃ t u, exec (.expand v add ove) s = .next t ∧ exec (.expand v add ove) { s with cfg := c, wbuf := wbuf } = .next u ∧
      u.voices = t.voices ∧ u.res = t.res ∧ ∀ a, u.mem.peek a = t.mem.peek a

/-- 43_expander.md R107, R108: REWIND leaves the voice as a fresh BIND of the same stream does, but for the volume state, which it
keeps. So the same pass follows, every frame and the voice, when the volume state at the start of both passes is equal: both at
unity after BIND, or both at one settled target vol << 8, to which an EXPAND of no sample with OVE = 1 sets the fresh voice. -/
def Obligations.RewindIsRebind : Prop :=
  ∀ (v : BitVec 4) (s b : State), Rewindable v s → VoiceInv s.cfg (s.voice v.toNat) →
    let x := s.voice v.toNat
    b.cfg = s.cfg → b.arg 0 = x.base → b.arg 1 = x.size → b.wrote [0, 1] →
    ∃ t u, exec (.rewind v) s = .next t ∧ exec (.bind v x.table x.pred x.is8 x.odd) b = .next u ∧
      (let fresh := u.voice v.toNat
       t.voice v.toNat = { fresh with p := { fresh.p with volsh := x.p.volsh, voltgt := x.p.voltgt } }) ∧
      (x.p.volsh = 0x10000 → x.p.voltgt = 0x10000 → t.voice v.toNat = u.voice v.toNat) ∧
      (s.quiet → b.quiet → (∀ a, x.stream.has a = true → s.mem.peek a = b.mem.peek a) →
        (x.p.volsh = 0x10000 → x.p.voltgt = 0x10000 → SamePasses v t u) ∧
        ∀ vol d : Word, vol.toNat < 2 ^ 16 → d.toNat % 4 = 0 → x.p.volsh.toNat = vol.toNat * 256 → x.p.voltgt = x.p.volsh →
          ∃ w, exec (.expand v false true) (u.withArgs [d, 0, vol]) = .next w ∧ w.voice v.toNat = t.voice v.toNat ∧
            SamePasses v t w)
end

