-- ==== Sys2Proof/Laws/Memory.lean ====
section
/-! SUPPORT. The laws of MEM: read after write, the canonical form, and `Within`, which says once what any engine access does
to MEM. -/

namespace Sys2Proof.Machine

/-! ### Cells -/

theorem Cells.read_below {cs : List Host.Cell} {lo a : Nat} (h : Cells.wfFrom lo cs = true) (ha : a < lo) :
    Cells.read cs a = unlisted := by
  induction cs generalizing lo with
  | nil => rfl
  | cons c rest ih =>
    obtain ⟨k, v⟩ := c
    simp only [Cells.wfFrom, Bool.and_eq_true, decide_eq_true_eq] at h
    have : k ≠ a := by omega
    simp [Cells.read, this, ih h.2 (by omega)]

theorem Cells.read_write_other (cs : List Host.Cell) {a a' : Nat} (b : Byte) (h : a' ≠ a) :
    Cells.read (Cells.write cs a b) a' = Cells.read cs a' := by
  induction cs with
  | nil => by_cases hb : b = unlisted <;> simp [Cells.write, Cells.read, hb, Ne.symm h]
  | cons c rest ih =>
    obtain ⟨k, v⟩ := c
    unfold Cells.write
    split
    · split <;> simp [Cells.read, Ne.symm h]
    · split
      · subst_vars
        split <;> simp [Cells.read, Ne.symm h]
      · simp [Cells.read, ih]

theorem Cells.read_write_same {cs : List Host.Cell} {lo : Nat} (a : Nat) (b : Byte)
    (h : Cells.wfFrom lo cs = true) : Cells.read (Cells.write cs a b) a = b := by
  induction cs generalizing lo with
  | nil => by_cases hb : b = unlisted <;> simp [Cells.write, Cells.read, hb]
  | cons c rest ih =>
    obtain ⟨k, v⟩ := c
    simp only [Cells.wfFrom, Bool.and_eq_true, decide_eq_true_eq] at h
    unfold Cells.write
    split
    · have hk : k ≠ a := by omega
      have := Cells.read_below h.2 (a := a) (by omega)
      split <;> simp_all [Cells.read]
    · split
      · subst_vars
        have := Cells.read_below h.2 (a := k) (by omega)
        split <;> simp_all [Cells.read]
      · have hk : k ≠ a := by omega
        simp [Cells.read, hk, ih h.2]

theorem Cells.wfFrom_mono {cs : List Host.Cell} {lo lo' : Nat} (h : Cells.wfFrom lo cs = true) (hl : lo' ≤ lo) :
    Cells.wfFrom lo' cs = true := by
  cases cs with
  | nil => rfl
  | cons c rest =>
    obtain ⟨k, v⟩ := c
    simp only [Cells.wfFrom, Bool.and_eq_true, decide_eq_true_eq] at h ⊢
    exact ⟨⟨by omega, h.1.2⟩, h.2⟩

theorem Cells.wfFrom_write {cs : List Host.Cell} {lo : Nat} {a : Nat} (b : Byte) (h : Cells.wfFrom lo cs = true)
    (ha : lo ≤ a) : Cells.wfFrom lo (Cells.write cs a b) = true := by
  induction cs generalizing lo with
  | nil => by_cases hb : b = unlisted <;> simp [Cells.write, Cells.wfFrom, hb, ha]
  | cons c rest ih =>
    obtain ⟨k, v⟩ := c
    have h' := h
    simp only [Cells.wfFrom, Bool.and_eq_true, decide_eq_true_eq] at h
    unfold Cells.write
    split
    · split
      · exact h'
      · rename_i hak hb
        simp only [Cells.wfFrom, Bool.and_eq_true, decide_eq_true_eq, bne_iff_ne, ne_eq]
        exact ⟨⟨ha, hb⟩, ⟨by omega, by simpa using h.1.2⟩, h.2⟩
    · split
      · subst_vars
        split
        · exact Cells.wfFrom_mono h.2 (by omega)
        · rename_i hb
          simp only [Cells.wfFrom, Bool.and_eq_true, decide_eq_true_eq, bne_iff_ne, ne_eq]
          exact ⟨⟨ha, hb⟩, h.2⟩
      · simp only [Cells.wfFrom, Bool.and_eq_true, decide_eq_true_eq]
        exact ⟨h.1, ih h.2 (by omega)⟩

theorem Cells.mem_write {cs : List Host.Cell} {a : Nat} {b : Byte} {c : Host.Cell} (h : c ∈ Cells.write cs a b) :
    c ∈ cs ∨ c.1 = a := by
  induction cs with
  | nil => by_cases hb : b = unlisted <;> simp_all [Cells.write]
  | cons d rest ih =>
    obtain ⟨k, v⟩ := d
    unfold Cells.write at h
    split at h
    · split at h
      · exact .inl h
      · rcases List.mem_cons.1 h with rfl | h
        · exact .inr rfl
        · exact .inl h
    · split at h
      · split at h
        · exact .inl (List.mem_cons_of_mem _ h)
        · rcases List.mem_cons.1 h with rfl | h
          · exact .inr rfl
          · exact .inl (List.mem_cons_of_mem _ h)
      · rcases List.mem_cons.1 h with rfl | h
        · exact .inl List.mem_cons_self
        · rcases ih h with h | h
          · exact .inl (List.mem_cons_of_mem _ h)
          · exact .inr h

/-! ### Bytes of MEM -/

@[simp] theorem MemPort.peek_poke_other (p : MemPort) {a a' : Nat} (b : Byte) (h : a' ≠ a) :
    (p.poke a b).peek a' = p.peek a' := Cells.read_write_other _ _ h

theorem MemPort.peek_poke_same {p : MemPort} (a : Nat) (b : Byte) (h : p.wf = true) : (p.poke a b).peek a = b :=
  Cells.read_write_same a b h

theorem MemPort.wf_poke {p : MemPort} (a : Nat) (b : Byte) (h : p.wf = true) : (p.poke a b).wf = true :=
  Cells.wfFrom_write b h (Nat.zero_le a)

@[simp] theorem MemPort.poke_races (p : MemPort) (a : Nat) (b : Byte) : (p.poke a b).races = p.races := rfl
@[simp] theorem MemPort.poke_draws (p : MemPort) (a : Nat) (b : Byte) : (p.poke a b).draws = p.draws := rfl
@[simp] theorem MemPort.draw_cells (p : MemPort) : p.draw.2.cells = p.cells := rfl
@[simp] theorem MemPort.draw_races (p : MemPort) : p.draw.2.races = p.races := rfl
@[simp] theorem MemPort.draw_peek (p : MemPort) (a : Nat) : p.draw.2.peek a = p.peek a := rfl
@[simp] theorem MemPort.peek_noRaces (p : MemPort) (rs : List Race) (a : Nat) :
    ({ p with races := rs } : MemPort).peek a = p.peek a := rfl

theorem MemPort.raceAt_quiet {p : MemPort} (h : p.races = []) (a : Nat) : p.raceAt a = none := by
  simp [MemPort.raceAt, h]

/-! ### What an engine access does to MEM -/

/-- `q` comes from `p` by engine accesses that write inside `r` only: every byte outside keeps its value, the races stay, the
canonical form is kept, no cell appears outside `r`, no free value is used unless a race is open, and the cells are the same
when `r` is empty. -/
structure Within (r : Region) (p q : MemPort) : Prop where
  peek  : ∀ a, r.has a = false → q.peek a = p.peek a
  races : q.races = p.races
  wf    : p.wf = true → q.wf = true
  cells : ∀ c ∈ q.cells, c ∈ p.cells ∨ r.has c.1 = true
  quiet : p.races = [] → q.draws = p.draws
  empty : r.len = 0 → q.cells = p.cells

theorem Within.refl (r : Region) (p : MemPort) : Within r p p :=
  ⟨fun _ _ => rfl, rfl, id, fun _ h => .inl h, fun _ => rfl, fun _ => rfl⟩

theorem Within.trans {r : Region} {p q u : MemPort} (h : Within r p q) (k : Within r q u) : Within r p u where
  peek a ha := (k.peek a ha).trans (h.peek a ha)
  races := k.races.trans h.races
  wf hp := k.wf (h.wf hp)
  cells c hc := (k.cells c hc).elim (fun hq => h.cells c hq) .inr
  quiet hp := (k.quiet (h.races.trans hp)).trans (h.quiet hp)
  empty hl := (k.empty hl).trans (h.empty hl)

theorem Within.mono {r r' : Region} {p q : MemPort} (h : Within r p q)
    (hr : ∀ a, r.has a = true → r'.has a = true) : Within r' p q where
  peek a ha := h.peek a (by
    cases hra : r.has a with
    | false => rfl
    | true => rw [hr a hra] at ha; exact absurd ha (by simp))
  races := h.races
  wf := h.wf
  cells c hc := (h.cells c hc).imp_right (hr _)
  quiet := h.quiet
  empty hl := h.empty (by
    by_contra h0
    have := hr r.base (by simp [Region.has]; omega)
    simp only [Region.has, hl, Bool.and_eq_true, decide_eq_true_eq] at this
    omega)

/-- An access that writes nothing is within any region. -/
theorem Within.of_cells {r : Region} {p q : MemPort} (hc : q.cells = p.cells) (hr : q.races = p.races)
    (hd : p.races = [] → q.draws = p.draws) : Within r p q where
  peek a _ := by simp [MemPort.peek, hc]
  races := hr
  wf h := by rw [MemPort.wf, hc]; exact h
  cells c h := .inl (hc ▸ h)
  quiet := hd
  empty _ := hc

theorem Region.has_mk {b l a : Nat} : (Region.mk b l).has a = true ↔ b ≤ a ∧ a < b + l := by
  simp [Region.has]

theorem Region.inRange_iff {m : Nat} {r : Region} : r.inRange m = true ↔ r.len = 0 ∨ r.base + r.len ≤ m := by
  simp [Region.inRange]

theorem Region.overlaps_eq_false {r q : Region} : r.overlaps q = false ↔
    ¬ (0 < r.len ∧ 0 < q.len ∧ r.base < q.base + q.len ∧ q.base < r.base + r.len) := by
  simp only [Region.overlaps, ← Bool.decide_and, and_assoc, decide_eq_false_iff_not]

theorem MemPort.read_cells (p : MemPort) (a : Nat) : (p.read a).2.cells = p.cells := by
  unfold MemPort.read; split <;> rfl

theorem MemPort.read_races (p : MemPort) (a : Nat) : (p.read a).2.races = p.races := by
  unfold MemPort.read; split <;> rfl

theorem MemPort.read_quiet {p : MemPort} (h : p.races = []) (a : Nat) : p.read a = (p.peek a, p) := by
  simp [MemPort.read, raceAt_quiet h]

theorem MemPort.read_within (r : Region) (p : MemPort) (a : Nat) : Within r p (p.read a).2 :=
  .of_cells (read_cells p a) (read_races p a) fun h => by rw [read_quiet h]

theorem MemPort.write_quiet {p : MemPort} (h : p.races = []) (a : Nat) (b : Byte) : p.write a b = p.poke a b := by
  simp [MemPort.write, raceAt_quiet h]

theorem MemPort.poke_within {p : MemPort} {r : Region} {a : Nat} (b : Byte) (ha : r.has a = true) :
    Within r p (p.poke a b) where
  peek a' ha' := peek_poke_other _ _ (by rintro rfl; simp [ha] at ha')
  races := rfl
  wf := wf_poke a b
  cells c hc := (Cells.mem_write hc).imp_right fun h => by rw [h]; exact ha
  quiet _ := rfl
  empty hl := by
    simp only [Region.has, hl, Bool.and_eq_true, decide_eq_true_eq] at ha
    omega

theorem MemPort.write_within {p : MemPort} {r : Region} {a : Nat} (b : Byte) (ha : r.has a = true) :
    Within r p (p.write a b) := by
  unfold MemPort.write
  split
  · exact poke_within b ha
  · rename_i q hq
    have hd : Within r p p.draw.2 := .of_cells rfl rfl fun h => by simp [raceAt_quiet h] at hq
    exact hd.trans (poke_within _ ha)

theorem MemPort.readBytes_within (r : Region) (p : MemPort) (a n : Nat) : Within r p (p.readBytes a n).2 := by
  induction n generalizing p a with
  | zero => exact .refl _ _
  | succ n ih => exact (read_within r p a).trans (ih _ _)

theorem MemPort.readLE_within (r : Region) (p : MemPort) (a n : Nat) : Within r p (p.readLE a n).2 :=
  readBytes_within r p a n

theorem MemPort.writeLE_within {p : MemPort} {r : Region} {a n : Nat} (v : Nat)
    (h : ∀ x, a ≤ x → x < a + n → r.has x = true) : Within r p (p.writeLE a n v) := by
  induction n generalizing p a v with
  | zero => exact .refl _ _
  | succ n ih =>
    exact (write_within _ (h a (by omega) (by omega))).trans
      (ih (v / 256) fun x h1 h2 => h x (by omega) (by omega))

theorem MemPort.readBytes_quiet {p : MemPort} (h : p.races = []) (a n : Nat) :
    p.readBytes a n = ((List.range n).map fun i => p.peek (a + i), p) := by
  induction n generalizing a with
  | zero => rfl
  | succ n ih =>
    simp only [MemPort.readBytes, read_quiet h, ih, List.range_succ_eq_map, List.map_cons, List.map_map]
    congr 2
    apply List.map_congr_left
    intro i _
    simp [Nat.add_comm, Nat.add_left_comm]

theorem leValue_lt (bs : List Byte) : leValue bs < 256 ^ bs.length := by
  induction bs with
  | nil => simp [leValue]
  | cons b bs ih =>
    simp only [leValue, List.length_cons, Nat.pow_succ]
    have := b.isLt
    omega

theorem MemPort.readLE_quiet {p : MemPort} (h : p.races = []) (a n : Nat) :
    p.readLE a n = (leValue ((List.range n).map fun i => p.peek (a + i)), p) := by
  simp [MemPort.readLE, readBytes_quiet h]

/-- Reading back little-endian what was written little-endian, byte by byte (00_scope.md R13). -/
theorem MemPort.peek_writeLE {p : MemPort} (hw : p.wf = true) (hq : p.races = []) (a n v i : Nat) (hi : i < n) :
    (p.writeLE a n v).peek (a + i) = BitVec.ofNat 8 (v / 256 ^ i) := by
  induction n generalizing p a v i with
  | zero => omega
  | succ n ih =>
    simp only [MemPort.writeLE, write_quiet hq]
    cases i with
    | zero =>
      have := (writeLE_within (p := p.poke a (BitVec.ofNat 8 v)) (r := ⟨a + 1, n⟩) (a := a + 1) (n := n) (v / 256)
        (fun x h1 h2 => Region.has_mk.2 ⟨h1, h2⟩)).peek a (by simp [Region.has])
      simpa [this] using peek_poke_same a _ hw
    | succ i =>
      have := ih (p := p.poke a (BitVec.ofNat 8 v)) (wf_poke _ _ hw) hq (a + 1) (v / 256) i (by omega)
      rw [show a + (i + 1) = a + 1 + i by omega, this, Nat.div_div_eq_div_mul, Nat.pow_succ, Nat.mul_comm]

theorem MemPort.scramble_peek (p : MemPort) (a n x : Nat) (h : x < a ∨ a + n ≤ x) :
    (p.scramble a n).peek x = p.peek x := by
  induction n generalizing p a with
  | zero => rfl
  | succ n ih =>
    simp only [MemPort.scramble]
    rw [ih _ _ (by omega), peek_poke_other _ _ (by omega), draw_peek]

theorem MemPort.scramble_races (p : MemPort) (a n : Nat) : (p.scramble a n).races = p.races := by
  induction n generalizing p a with
  | zero => rfl
  | succ n ih => simp [MemPort.scramble, ih]

theorem MemPort.scramble_wf {p : MemPort} (a n : Nat) (h : p.wf = true) : (p.scramble a n).wf = true := by
  induction n generalizing p a with
  | zero => exact h
  | succ n ih => exact ih _ (wf_poke _ _ h)

theorem MemPort.scramble_cells (p : MemPort) (a n : Nat) (c : Host.Cell) (h : c ∈ (p.scramble a n).cells) :
    c ∈ p.cells ∨ (a ≤ c.1 ∧ c.1 < a + n) := by
  induction n generalizing p a with
  | zero => exact .inl h
  | succ n ih =>
    rcases ih _ _ h with h | h
    · rcases Cells.mem_write h with h | h
      · exact .inl h
      · exact .inr (by omega)
    · exact .inr (by omega)

end Sys2Proof.Machine
end

