-- ==== Sys2Proof/Laws/Datapath.lean ====
section
/-! SUPPORT. The datapath primitives: their ranges, what each field of the predictor becomes, and the checks of a
configuration as facts. -/

namespace Sys2Proof

theorem clamp_le {v lo hi : Int} (h : lo ≤ hi) : clamp v lo hi ≤ hi := by unfold clamp; split <;> [skip; split] <;> omega
theorem le_clamp {v lo hi : Int} (h : lo ≤ hi) : lo ≤ clamp v lo hi := by unfold clamp; split <;> [skip; split] <;> omega
theorem clamp_of_mem {v lo hi : Int} (h1 : lo ≤ v) (h2 : v ≤ hi) : clamp v lo hi = v := by
  unfold clamp; split <;> [skip; split] <;> omega

/-! ### The checks of a configuration -/

namespace Config

theorem checks (c : Config) :
    c.raw.wf1 = true ∧ c.raw.wf2 = true ∧ c.raw.wf3 = true ∧ c.raw.wf4 = true ∧ c.raw.wf5 = true ∧ c.raw.wf6 = true ∧
      c.raw.wf7 = true ∧ c.raw.wf8 = true ∧ c.raw.wf9 = true ∧ c.raw.wf10 = true ∧ c.raw.wf11 = true ∧
      c.raw.wf12 = true ∧ c.raw.wfPlain = true := by
  have h := c.ok
  simp only [RawConfig.wf, Bool.and_eq_true] at h
  tauto

theorem nTables_bounds (c : Config) : 1 ≤ c.nTables ∧ c.nTables ≤ 16 := by
  simpa [RawConfig.wf1] using c.checks.1
theorem nPred_bounds (c : Config) : 1 ≤ c.nPred ∧ c.nPred ≤ 4 := by
  simpa [RawConfig.wf5] using c.checks.2.2.2.2.1
theorem bufferSize_bounds (c : Config) : 1 ≤ c.raw.bufferSize ∧ c.raw.bufferSize ≤ 4095 := by
  simpa [RawConfig.wf7] using c.checks.2.2.2.2.2.2.1
theorem nVoices_bounds (c : Config) : 1 ≤ c.raw.nVoices ∧ c.raw.nVoices ≤ 8 := by
  simpa [RawConfig.wf8] using c.checks.2.2.2.2.2.2.2.1
theorem memSize_bounds (c : Config) : 1 ≤ c.raw.memSize ∧ c.raw.memSize ≤ 2147483647 := by
  simpa [RawConfig.wf9] using c.checks.2.2.2.2.2.2.2.2.1
theorem heapOffset_bounds (c : Config) :
    16 * (c.raw.numDir + c.raw.numFiles) ≤ c.raw.heapOffset ∧ c.raw.heapOffset ≤ c.raw.imageSize := by
  simpa [RawConfig.wf10] using c.checks.2.2.2.2.2.2.2.2.2.1
theorem easing_pos (c : Config) : 1 ≤ c.raw.easing := by
  simpa [RawConfig.wf11] using c.checks.2.2.2.2.2.2.2.2.2.2.1
theorem image_bounds (c : Config) : c.raw.numDir ≤ 65535 ∧ c.raw.numFiles ≤ 65535 := by
  simpa [RawConfig.wf12] using c.checks.2.2.2.2.2.2.2.2.2.2.2.1

theorem seed_bounds (c : Config) (p : Nat) :
    -32768 ≤ (c.seed p).prev1 ∧ (c.seed p).prev1 ≤ 32767 ∧ -32768 ≤ (c.seed p).prev2 ∧ (c.seed p).prev2 ≤ 32767 ∧
      (c.seed p).shift ≤ 8 := by
  by_cases h : p < c.raw.seeds.length
  · have hm : c.raw.seeds[p] ∈ c.raw.seeds := List.getElem_mem h
    have h6 := c.checks.2.2.2.2.2.1
    simp only [RawConfig.wf6, List.all_eq_true, RawConfig.within, Bool.and_eq_true, decide_eq_true_eq] at h6
    have := h6 _ hm
    simp only [Config.seed, List.getD_eq_getElem?_getD, List.getElem?_eq_getElem h, Option.getD_some]
    omega
  · simp [Config.seed, List.getD_eq_getElem?_getD, List.getElem?_eq_none (Nat.le_of_not_lt h)]

theorem step4List_of_lt (c : Config) {t : Nat} (h : t < c.nTables) :
    (c.step4List t).length = 16 ∧ (∀ x ∈ c.step4List t, -8 ≤ x ∧ x ≤ 8) ∧ (0 : Int) ∈ c.step4List t := by
  have h' : t < c.raw.tables.length := h
  have hm : c.raw.tables[t] ∈ c.raw.tables := List.getElem_mem h'
  have h2 := c.checks.2.1
  have h3 := c.checks.2.2.1
  simp only [RawConfig.wf2, RawConfig.wf3, List.all_eq_true, RawConfig.within, Bool.and_eq_true, decide_eq_true_eq,
    beq_iff_eq, List.any_eq_true] at h2 h3
  obtain ⟨x, hx, rfl⟩ := h3 _ hm
  simp only [Config.step4List, List.getElem?_eq_getElem h']
  exact ⟨(h2 _ hm).1, (h2 _ hm).2, hx⟩

theorem step4_bounds (c : Config) (t j : Nat) : -8 ≤ c.step4 t j ∧ c.step4 t j ≤ 8 := by
  by_cases h : t < c.nTables
  · by_cases hj : j < (c.step4List t).length
    · have := (c.step4List_of_lt h).2.1 _ (List.getElem_mem hj)
      simpa [Config.step4, List.getD_eq_getElem?_getD, List.getElem?_eq_getElem hj] using this
    · simp [Config.step4, List.getD_eq_getElem?_getD, List.getElem?_eq_none (Nat.le_of_not_lt hj)]
  · have : c.step4List t = [] := by
      simp [Config.step4List, List.getElem?_eq_none (Nat.le_of_not_lt h)]
    simp [Config.step4, this]

end Config

namespace Machine

/-! ### Ranges -/

theorem clamp16_bounds (v : Int) : -32768 ≤ clamp16 v ∧ clamp16 v ≤ 32767 :=
  ⟨le_clamp (by decide), clamp_le (by decide)⟩
theorem clamp16_of_mem {v : Int} (h1 : -32768 ≤ v) (h2 : v ≤ 32767) : clamp16 v = v := clamp_of_mem h1 h2
theorem sat32_bounds (v : Int) : -2147483648 ≤ sat32 v ∧ sat32 v ≤ 2147483647 :=
  ⟨le_clamp (by decide), clamp_le (by decide)⟩
theorem legal16_iff {v : Int} : legal16 v = true ↔ -32768 ≤ v ∧ v ≤ 32767 := by simp [legal16]

theorem toInt_ofInt16 {v : Int} (h1 : -32768 ≤ v) (h2 : v ≤ 32767) : (BitVec.ofInt 16 v).toInt = v := by
  rw [BitVec.toInt_ofInt]
  exact Int.bmod_eq_of_le (by norm_num; omega) (by norm_num; omega)
theorem toInt_ofInt32 {v : Int} (h1 : -2147483648 ≤ v) (h2 : v ≤ 2147483647) : (BitVec.ofInt 32 v).toInt = v := by
  rw [BitVec.toInt_ofInt]
  exact Int.bmod_eq_of_le (by norm_num; omega) (by norm_num; omega)

theorem Predictor.guess_bounds (p : Predictor) : -32768 ≤ p.guess ∧ p.guess ≤ 32767 := clamp16_bounds _

theorem Predictor.mult_pos (p : Predictor) : 0 < p.mult := by unfold Predictor.mult; positivity

theorem Predictor.mult_eq (p : Predictor) : p.mult = ((2 ^ p.shift.toNat : Nat) : Int) := by
  simp [Predictor.mult]

theorem codeByte_sign (s : Bool) (m : Nat) : byteSign (codeByte s m) = s := by
  have h : ∀ (s : Bool) (x : BitVec 7), (BitVec.ofBool s ++ x).getLsbD 7 = s := by decide
  exact h s _

theorem codeByte_mag (s : Bool) {m : Nat} (h : m ≤ 127) : byteMag (codeByte s m) = m := by
  have h' : ∀ (s : Bool) (x : BitVec 7), (BitVec.ofBool s ++ x).toNat % 128 = x.toNat := by decide
  rw [byteMag, codeByte, h', BitVec.toNat_ofNat, Nat.mod_eq_of_lt (by omega)]

theorem lowNibble_pack (lo hi : BitVec 4) : lowNibble (packCodes lo hi) = lo := by
  revert lo hi
  decide

theorem highNibble_pack (lo hi : BitVec 4) : highNibble (packCodes lo hi) = hi := by
  revert lo hi
  decide

/-! ### What the steps do to the predictor -/

variable (p : Predictor) (cfg : Config) (t : Nat)

@[simp] theorem Predictor.adapt_prev1 (d : Int) (l : Nat) : (p.adapt d l).prev1 = p.prev1 := rfl
@[simp] theorem Predictor.adapt_prev2 (d : Int) (l : Nat) : (p.adapt d l).prev2 = p.prev2 := rfl
@[simp] theorem Predictor.adapt_high (d : Int) (l : Nat) : (p.adapt d l).high = p.high := rfl
@[simp] theorem Predictor.adapt_held (d : Int) (l : Nat) : (p.adapt d l).held = p.held := rfl
@[simp] theorem Predictor.adapt_volsh (d : Int) (l : Nat) : (p.adapt d l).volsh = p.volsh := rfl
@[simp] theorem Predictor.adapt_voltgt (d : Int) (l : Nat) : (p.adapt d l).voltgt = p.voltgt := rfl
@[simp] theorem Predictor.push_prev1 (r : Int) : (p.push r).prev1 = BitVec.ofInt 16 r := rfl
@[simp] theorem Predictor.push_prev2 (r : Int) : (p.push r).prev2 = p.prev1 := rfl
@[simp] theorem Predictor.push_shift (r : Int) : (p.push r).shift = p.shift := rfl
@[simp] theorem Predictor.push_high (r : Int) : (p.push r).high = p.high := rfl
@[simp] theorem Predictor.push_held (r : Int) : (p.push r).held = p.held := rfl
@[simp] theorem Predictor.push_volsh (r : Int) : (p.push r).volsh = p.volsh := rfl
@[simp] theorem Predictor.push_voltgt (r : Int) : (p.push r).voltgt = p.voltgt := rfl

/-- A shift adaptation leaves the shift within its limit. -/
theorem Predictor.adapt_shift_le (d : Int) {l : Nat} (h : l < 16) : (p.adapt d l).shift.toNat ≤ l := by
  have h1 := clamp_le (v := (p.shift.toNat : Int) + d) (lo := 0) (hi := (l : Int)) (by omega)
  have h2 := le_clamp (v := (p.shift.toNat : Int) + d) (lo := 0) (hi := (l : Int)) (by omega)
  simp only [Predictor.adapt, BitVec.toNat_ofNat]
  have : (clamp (↑p.shift.toNat + d) 0 ↑l).toNat ≤ l := by omega
  rw [Nat.mod_eq_of_lt (by omega)]
  exact this

/-- A shift adaptation, its value. -/
theorem Predictor.adapt_shift (d : Int) {l : Nat} (h : l < 16) :
    ((p.adapt d l).shift.toNat : Int) = clamp (p.shift.toNat + d) 0 l := by
  have h1 := clamp_le (v := (p.shift.toNat : Int) + d) (lo := 0) (hi := (l : Int)) (by omega)
  have h2 := le_clamp (v := (p.shift.toNat : Int) + d) (lo := 0) (hi := (l : Int)) (by omega)
  simp only [Predictor.adapt, BitVec.toNat_ofNat]
  rw [Nat.mod_eq_of_lt (by omega)]
  omega

@[simp] theorem Predictor.ease_prev1 : (p.ease cfg).prev1 = p.prev1 := by unfold Predictor.ease; split <;> [skip; split] <;> rfl
@[simp] theorem Predictor.ease_prev2 : (p.ease cfg).prev2 = p.prev2 := by unfold Predictor.ease; split <;> [skip; split] <;> rfl
@[simp] theorem Predictor.ease_shift : (p.ease cfg).shift = p.shift := by unfold Predictor.ease; split <;> [skip; split] <;> rfl
@[simp] theorem Predictor.ease_high : (p.ease cfg).high = p.high := by unfold Predictor.ease; split <;> [skip; split] <;> rfl
@[simp] theorem Predictor.ease_held : (p.ease cfg).held = p.held := by unfold Predictor.ease; split <;> [skip; split] <;> rfl
@[simp] theorem Predictor.ease_voltgt : (p.ease cfg).voltgt = p.voltgt := by unfold Predictor.ease; split <;> [skip; split] <;> rfl

/-- An easing step, its value (41_datapath.md R90). -/
theorem Predictor.ease_volsh : (p.ease cfg).volsh.toNat =
    if p.volsh.toNat < p.voltgt.toNat then min (p.volsh.toNat + cfg.raw.easing) p.voltgt.toNat
    else max (p.volsh.toNat - cfg.raw.easing) p.voltgt.toNat := by
  have h1 := p.volsh.isLt
  have h2 := p.voltgt.isLt
  unfold Predictor.ease
  split
  · simp only [BitVec.toNat_ofNat]
    rw [Nat.mod_eq_of_lt (by omega)]
  · split
    · simp only [BitVec.toNat_ofNat]
      rw [Nat.mod_eq_of_lt (by omega)]
    · omega

/-- An output value fits in 24 signed bits (41_datapath.md R91). -/
theorem Predictor.scale_bounds {r : Int} (h1 : -32768 ≤ r) (h2 : r ≤ 32767) :
    -8388608 ≤ p.scale r ∧ p.scale r ≤ 8388607 := by
  have hv := p.volsh.isLt
  unfold Predictor.scale vshift
  rw [Int.shiftRight_eq_div_pow]
  norm_num
  have hb : (p.volsh.toNat : Int) ≤ 16777215 := by omega
  have h0 : (0 : Int) ≤ p.volsh.toNat := by omega
  constructor
  · rw [Int.le_ediv_iff_mul_le (by norm_num)]; nlinarith
  · have : r * (p.volsh.toNat : Int) ≤ 32767 * 16777215 := by nlinarith
    omega

/-- A reconstruction of either decoder lies in 16 bits. -/
theorem dec4Step_bounds (c : BitVec 4) : -32768 ≤ (dec4Step cfg t p c).1 ∧ (dec4Step cfg t p c).1 ≤ 32767 :=
  clamp16_bounds _
theorem dec8Step_bounds (b : Byte) : -32768 ≤ (dec8Step cfg t p b).1 ∧ (dec8Step cfg t p b).1 ≤ 32767 :=
  clamp16_bounds _

/-! ### Frames -/

theorem emitWord_within (add : Bool) (o : Int) {r : Region} {a : Nat} {port : MemPort}
    (h : ∀ x, a ≤ x → x < a + 4 → r.has x = true) : Within r port (emitWord add o a port) := by
  unfold emitWord
  split
  · exact (MemPort.readLE_within r port a 4).trans (MemPort.writeLE_within _ h)
  · exact MemPort.writeLE_within _ h

theorem emitFrame_within (add : Bool) (d k : Nat) (o : Int) {r : Region} {port : MemPort}
    (h : ∀ x, d + 8 * k ≤ x → x < d + 8 * k + 8 → r.has x = true) : Within r port (emitFrame add d k o port) :=
  (emitWord_within add o fun x h1 h2 => h x (by omega) (by omega)).trans
    (emitWord_within add o fun x h1 h2 => h x (by omega) (by omega))

theorem readSample_within (r : Region) (port : MemPort) (a : Nat) : Within r port (readSample port a).2 :=
  MemPort.readLE_within r port a 2

end Machine

end Sys2Proof
end

