-- ==== Sys2Proof/Laws/Loops.lean ====
section
/-! SUPPORT. The loops of the commands: the loop rule, and that every pass writes only the buffer it is given. -/

namespace Sys2Proof.Machine

/-- The loop rule: a property that the body carries from index j to j + 1 holds at the end. -/
theorem forUp_rule {α : Type} (P : Nat → α → Prop) (body : Nat → α → α) (n i : Nat) (a : α) (h0 : P i a)
    (hs : ∀ j x, i ≤ j → j < i + n → P j x → P (j + 1) (body j x)) : P (i + n) (forUp body n i a) := by
  induction n generalizing i a with
  | zero => exact h0
  | succ n ih =>
    have := ih (i + 1) (body i a) (hs i a (Nat.le_refl _) (by omega) h0) fun j x h1 h2 => hs j x (by omega) (by omega)
    rwa [show i + (n + 1) = i + 1 + n by omega]

theorem forUp_succ {α : Type} (body : Nat → α → α) (n i : Nat) (a : α) :
    forUp body (n + 1) i a = body (i + n) (forUp body n i a) := by
  induction n generalizing i a with
  | zero => rfl
  | succ n ih =>
    rw [forUp, ih, forUp]
    congr 1
    omega

theorem forUp_add {α : Type} (body : Nat → α → α) (m n i : Nat) (a : α) :
    forUp body (m + n) i a = forUp body n (i + m) (forUp body m i a) := by
  induction m generalizing i a with
  | zero => simp [forUp]
  | succ m ih =>
    rw [show m + 1 + n = (m + n) + 1 by omega, forUp, ih, forUp, show i + 1 + m = i + (m + 1) by omega]

theorem packedLen_eq (n : Nat) : packedLen n = (n + 1) / 2 := by
  simp [packedLen, Nat.shiftRight_eq_div_pow]

/-! ### Codec -/

theorem enc4Sample_within (cfg : Config) (t src dst i : Nat) (r : EncRun) {g : Region}
    (h : i % 2 = 1 → g.has (dst + i / 2) = true) : Within g r.port (enc4Sample cfg t src dst i r).port := by
  unfold enc4Sample
  have hr := readSample_within g r.port (src + 2 * i)
  dsimp only
  split
  · exact hr
  · rename_i hi
    refine hr.trans (MemPort.write_within _ ?_)
    rw [Nat.shiftRight_eq_div_pow]
    exact h (by omega)

theorem encode4_within (cfg : Config) (t pred src n dst : Nat) (port : MemPort) :
    Within ⟨dst, packedLen n⟩ port (encode4 cfg t pred src n dst port).port := by
  have hl := packedLen_eq n
  have hloop := forUp_rule (fun _ (r : EncRun) => Within ⟨dst, packedLen n⟩ port r.port) (enc4Sample cfg t src dst) n 0
    ⟨seeded cfg pred 0, 0, 0, port⟩ (.refl _ _)
    (fun j x _ hj hx => hx.trans (enc4Sample_within cfg t src dst j x fun hodd => Region.has_mk.2 (by omega)))
  unfold encode4
  dsimp only
  split
  · refine hloop.trans (MemPort.write_within _ (Region.has_mk.2 ?_))
    rw [Nat.shiftRight_eq_div_pow]
    omega
  · exact hloop

theorem encode8_within (cfg : Config) (t pred src n dst : Nat) (port : MemPort) :
    Within ⟨dst, n⟩ port (encode8 cfg t pred src n dst port).port :=
  forUp_rule (fun _ (r : EncRun) => Within ⟨dst, n⟩ port r.port) (enc8Sample cfg t src dst) n 0
    ⟨seeded cfg pred 0, 0, 0, port⟩ (.refl _ _)
    (fun _ x _ _ hx => hx.trans ((readSample_within _ x.port _).trans (MemPort.write_within _ (Region.has_mk.2 (by omega)))))

theorem decEmit_within (cfg : Config) (add : Bool) (dst i n : Nat) (r : Int) (e : Predictor) (port : MemPort) (h : i < n) :
    Within ⟨dst, 8 * n⟩ port (decEmit cfg add dst i r e port).port :=
  emitFrame_within _ _ _ _ fun _ _ _ => Region.has_mk.2 (by omega)

theorem decode4_within (cfg : Config) (t pred src n dst vol : Nat) (add ove : Bool) (port : MemPort) :
    Within ⟨dst, 8 * n⟩ port (decode4 cfg t pred src n dst vol add ove port).port := by
  refine forUp_rule (fun _ (r : DecRun) => Within ⟨dst, 8 * n⟩ port r.port) (dec4Sample cfg t src dst add) n 0
    ⟨decStart cfg pred vol ove, port⟩ (.refl _ _) (fun j x _ hj hx => ?_)
  unfold dec4Sample
  split
  · exact hx.trans (decEmit_within _ _ _ _ _ _ _ _ (by omega))
  · exact hx.trans ((MemPort.read_within _ _ _).trans (decEmit_within _ _ _ _ _ _ _ _ (by omega)))

theorem decode8_within (cfg : Config) (t pred src n dst vol : Nat) (add ove : Bool) (port : MemPort) :
    Within ⟨dst, 8 * n⟩ port (decode8 cfg t pred src n dst vol add ove port).port := by
  refine forUp_rule (fun _ (r : DecRun) => Within ⟨dst, 8 * n⟩ port r.port) (dec8Sample cfg t src dst add) n 0
    ⟨decStart cfg pred vol ove, port⟩ (.refl _ _) (fun j x _ hj hx => ?_)
  exact hx.trans ((MemPort.read_within _ _ _).trans (decEmit_within _ _ _ _ _ _ _ _ (by omega)))

/-! ### SELECT -/

theorem trial_within (g : Region) (cfg : Config) (is8 : Bool) (src n t p : Nat) (port : MemPort) :
    Within g port (trial cfg is8 src n t p port).2 := by
  refine forUp_rule (fun _ (r : TrialRun) => Within g port r.port) (trialSample cfg is8 t src) n 0
    ⟨seeded cfg p 0, seeded cfg p 0, 0, port⟩ (.refl _ _) (fun j x _ _ hx => ?_)
  have := hx.trans (readSample_within g x.port (src + 2 * j))
  unfold trialSample
  dsimp only
  split <;> exact this

theorem tryPair_within (g : Region) (cfg : Config) (is8 : Bool) (src n : Nat) (best : Option Candidate × MemPort)
    (tp : Nat × Nat) : Within g best.2 (tryPair cfg is8 src n best tp).2 := by
  have h := trial_within g cfg is8 src n tp.1 tp.2 best.2
  unfold tryPair
  dsimp only
  split
  · exact h
  · split <;> exact h

theorem bestPair_within (g : Region) (s : State) (is8 : Bool) : Within g s.mem (bestPair s is8).2 := by
  have h : ∀ (l : List (Nat × Nat)) (b : Option Candidate × MemPort),
      Within g b.2 (l.foldl (tryPair s.cfg is8 s.srcBase s.count) b).2 := by
    intro l
    induction l with
    | nil => exact fun b => .refl _ _
    | cons tp l ih => exact fun b => (tryPair_within g _ _ _ _ b tp).trans (ih _)
  exact h _ (none, s.mem)

/-! ### Lookup -/

theorem nameEq_within (g : Region) (a : Nat) (name : List Byte) (port : MemPort) : Within g port (nameEq a name port).2 :=
  MemPort.readBytes_within g port a 8

theorem dirScan_within (g : Region) (i : Nat) (name : List Byte) (left k : Nat) (port : MemPort) :
    Within g port (dirScan i name left k port).2 := by
  induction left generalizing k port with
  | zero => exact .refl _ _
  | succ left ih =>
    have h1 := MemPort.readBytes_within g port (dirRecord i k) 8
    have h2 := nameEq_within g (dirRecord i k) name (port.readBytes (dirRecord i k) 8).2
    rw [dirScan]
    generalize port.readBytes (dirRecord i k) 8 = q at h1 h2 ⊢
    obtain ⟨bs, q⟩ := q
    dsimp only at h1 h2 ⊢
    generalize nameEq (dirRecord i k) name q = e at h2 ⊢
    obtain ⟨same, e⟩ := e
    dsimp only at h2 ⊢
    split
    · exact h1
    · split
      · exact h1.trans h2
      · exact (h1.trans h2).trans (ih _ _)

theorem fileScan_within (g : Region) (cfg : Config) (i : Nat) (name : List Byte) (left j : Nat) (port : MemPort) :
    Within g port (fileScan cfg i name left j port).2 := by
  induction left generalizing j port with
  | zero => exact .refl _ _
  | succ left ih =>
    have h := nameEq_within g (fileRecord cfg i j) name port
    rw [fileScan]
    generalize nameEq (fileRecord cfg i j) name port = e at h ⊢
    obtain ⟨same, e⟩ := e
    dsimp only at h ⊢
    split
    · exact h
    · exact h.trans (ih _ _)

theorem dirRun_within (g : Region) (i k : Nat) (port : MemPort) : Within g port (dirRun i k port).2 := by
  have h1 := MemPort.readLE_within g port (dirRecord i k + 8) 4
  have h2 := MemPort.readLE_within g (port.readLE (dirRecord i k + 8) 4).2 (dirRecord i k + 12) 4
  rw [dirRun]
  generalize port.readLE (dirRecord i k + 8) 4 = q at h1 h2 ⊢
  obtain ⟨first, q⟩ := q
  dsimp only at h1 h2 ⊢
  generalize q.readLE (dirRecord i k + 12) 4 = e at h2 ⊢
  exact h1.trans h2

/-! ### Expander -/

/-- A voice keeps its binding: everything BIND records but the position (43_expander.md R102). -/
structure SameBinding (v w : Voice) : Prop where
  bound : w.bound = v.bound
  is8   : w.is8 = v.is8
  odd   : w.odd = v.odd
  table : w.table = v.table
  pred  : w.pred = v.pred
  base  : w.base = v.base
  size  : w.size = v.size
  total : w.total = v.total

theorem SameBinding.refl (v : Voice) : SameBinding v v := ⟨rfl, rfl, rfl, rfl, rfl, rfl, rfl, rfl⟩

theorem SameBinding.trans {u v w : Voice} (h : SameBinding u v) (k : SameBinding v w) : SameBinding u w :=
  ⟨k.bound.trans h.bound, k.is8.trans h.is8, k.odd.trans h.odd, k.table.trans h.table, k.pred.trans h.pred,
    k.base.trans h.base, k.size.trans h.size, k.total.trans h.total⟩

/-- What any part of the expander does to what it carries: it keeps the binding and WBUF's size, and writes inside `g`. -/
structure RunWithin (cfg : Config) (g : Region) (x y : VoiceRun) : Prop where
  binding : SameBinding x.v y.v
  wbuf    : x.wbuf.length = cfg.raw.bufferSize → y.wbuf.length = cfg.raw.bufferSize
  port    : Within g x.port y.port

theorem RunWithin.refl (cfg : Config) (g : Region) (x : VoiceRun) : RunWithin cfg g x x := ⟨.refl _, id, .refl _ _⟩

theorem RunWithin.trans {cfg : Config} {g : Region} {x y z : VoiceRun} (h : RunWithin cfg g x y)
    (k : RunWithin cfg g y z) : RunWithin cfg g x z :=
  ⟨h.binding.trans k.binding, fun hl => k.wbuf (h.wbuf hl), h.port.trans k.port⟩

theorem readBytes_length (p : MemPort) (a n : Nat) : (p.readBytes a n).1.length = n := by
  induction n generalizing p a with
  | zero => rfl
  | succ n ih => simp [MemPort.readBytes, ih]

theorem fetch_within (cfg : Config) (g : Region) (k : Nat) (x : VoiceRun) (hk : k ≤ cfg.raw.bufferSize) :
    RunWithin cfg g x (fetch k x).2 where
  binding := ⟨rfl, rfl, rfl, rfl, rfl, rfl, rfl, rfl⟩
  wbuf hl := by
    simp only [fetch, List.length_append, readBytes_length, List.length_drop]
    omega
  port := MemPort.readBytes_within g _ _ _

theorem voiceEmit_within (cfg : Config) (add : Bool) (d k : Nat) (r : Int) (p : Predictor) (x : VoiceRun) {g : Region}
    (h : ∀ a, d + 8 * k ≤ a → a < d + 8 * k + 8 → g.has a = true) : RunWithin cfg g x (voiceEmit cfg add d k r p x) :=
  ⟨⟨rfl, rfl, rfl, rfl, rfl, rfl, rfl, rfl⟩, id, emitFrame_within _ _ _ _ h⟩

theorem chunkSample8_within (cfg : Config) (add : Bool) (d produced i n : Nat) (x : VoiceRun) (h : produced + i < n) :
    RunWithin cfg ⟨d, 8 * n⟩ x (chunkSample8 cfg add d produced i x) :=
  voiceEmit_within _ _ _ _ _ _ _ fun _ _ _ => Region.has_mk.2 (by omega)

theorem chunkSample4_within (cfg : Config) (add : Bool) (d produced i n : Nat) (jx : Nat × VoiceRun) (h : produced + i < n) :
    RunWithin cfg ⟨d, 8 * n⟩ jx.2 (chunkSample4 cfg add d produced i jx).2 := by
  unfold chunkSample4
  dsimp only
  split <;> exact voiceEmit_within _ _ _ _ _ _ _ fun _ _ _ => Region.has_mk.2 (by omega)

theorem chunk8_within (cfg : Config) (add : Bool) (d produced chunk n : Nat) (x : VoiceRun)
    (hc : chunk ≤ cfg.raw.bufferSize) (h : produced + chunk ≤ n) :
    RunWithin cfg ⟨d, 8 * n⟩ x (chunk8 cfg add d produced chunk x).2 := by
  have hgot : (fetch chunk x).1 ≤ chunk := by simp only [fetch]; omega
  refine (fetch_within cfg _ chunk x hc).trans ?_
  exact forUp_rule (fun _ y => RunWithin cfg ⟨d, 8 * n⟩ (fetch chunk x).2 y) _ _ 0 _ (.refl _ _ _)
    fun j y _ hj hy => hy.trans (chunkSample8_within _ _ _ _ _ _ _ (by omega))

theorem chunk4_within (cfg : Config) (add : Bool) (d produced chunk n : Nat) (x : VoiceRun)
    (hc : chunk ≤ 2 * cfg.raw.bufferSize) (h : produced + chunk ≤ n) :
    RunWithin cfg ⟨d, 8 * n⟩ x (chunk4 cfg add d produced chunk x).2 := by
  have hk : (chunk - (if x.v.p.high then 1 else 0) + 1) >>> 1 ≤ cfg.raw.bufferSize := by
    rw [Nat.shiftRight_eq_div_pow]
    split <;> omega
  refine (fetch_within cfg _ _ x hk).trans ?_
  exact forUp_rule (fun _ (y : Nat × VoiceRun) => RunWithin cfg ⟨d, 8 * n⟩ (fetch _ x).2 y.2) _ _ 0 (0, _) (.refl _ _ _)
    fun j y _ hj hy => hy.trans (chunkSample4_within _ _ _ _ _ _ _ (by omega))

theorem chunkLoop_within (cfg : Config) (add : Bool) (d want n fuel produced : Nat) (x : VoiceRun) (hn : want ≤ n) :
    RunWithin cfg ⟨d, 8 * n⟩ x (chunkLoop cfg add d want fuel produced x).2 := by
  induction fuel generalizing produced x with
  | zero => exact .refl _ _ _
  | succ fuel ih =>
    unfold chunkLoop
    split
    · dsimp only
      split
      · rename_i h8
        exact (chunk8_within cfg add d produced _ n x (by simp [chunkMax, h8]) (by omega)).trans (ih _ _)
      · rename_i h8
        exact (chunk4_within cfg add d produced _ n x (by simp [chunkMax, h8]) (by omega)).trans (ih _ _)
    · exact .refl _ _ _

/-- ExpandCore writes the frames of the samples it can produce, and no other byte (43_expander.md R105). -/
theorem expandCore_produced (cfg : Config) (d n vol : Nat) (add ove : Bool) (x : VoiceRun) :
    RunWithin cfg ⟨d, 8 * min n (x.v.total.toNat - x.v.pos.toNat)⟩ x (expandCore cfg d n vol add ove x).2 :=
  have h : RunWithin cfg ⟨d, 8 * min n (x.v.total.toNat - x.v.pos.toNat)⟩ x
      { x with v := { x.v with p := x.v.p.volSet vol ove } } :=
    ⟨⟨rfl, rfl, rfl, rfl, rfl, rfl, rfl, rfl⟩, id, .refl _ _⟩
  h.trans (chunkLoop_within _ _ _ _ _ _ _ _ le_rfl)

theorem expandCore_within (cfg : Config) (d n vol : Nat) (add ove : Bool) (x : VoiceRun) :
    RunWithin cfg ⟨d, 8 * n⟩ x (expandCore cfg d n vol add ove x).2 :=
  have h := expandCore_produced cfg d n vol add ove x
  ⟨h.binding, h.wbuf, h.port.mono fun a ha => by rw [Region.has_mk] at ha ⊢; omega⟩

theorem expandCore_within_mono (cfg : Config) (d d' n n' vol : Nat) (add ove : Bool) (x : VoiceRun)
    (h : d ≤ d') (h' : d' + 8 * n' ≤ d + 8 * n) :
    RunWithin cfg ⟨d, 8 * n⟩ x (expandCore cfg d' n' vol add ove x).2 := by
  have := expandCore_within cfg d' n' vol add ove x
  exact ⟨this.binding, this.wbuf, this.port.mono fun a ha => by rw [Region.has_mk] at ha ⊢; omega⟩

theorem refill_within (cfg : Config) (d n vol : Nat) (ove loop : Bool) (fuel got : Nat) (rw : Bool) (x : VoiceRun) :
    RunWithin cfg ⟨d, 8 * n⟩ x (refill cfg d n vol ove loop fuel got rw x).2 := by
  induction fuel generalizing got rw x with
  | zero => exact .refl _ _ _
  | succ fuel ih =>
    have h0 : RunWithin cfg ⟨d, 8 * n⟩ x { x with v := x.v.rewound cfg } :=
      ⟨⟨rfl, rfl, rfl, rfl, rfl, rfl, rfl, rfl⟩, id, .refl _ _⟩
    unfold refill
    split
    · split
      · have h1 := h0.trans (expandCore_within_mono cfg d (d + 8 * got) n (n - got) vol true ove _ (by omega) (by omega))
        dsimp only
        split
        · exact h1
        · exact h1.trans (ih _ _ _)
      · exact .refl _ _ _
    · exact .refl _ _ _

theorem fillVoice_within (cfg : Config) (d n vol : Nat) (ove loop : Bool) (x : VoiceRun) :
    RunWithin cfg ⟨d, 8 * n⟩ x (fillVoice cfg d n vol ove loop x).2 :=
  (expandCore_within cfg d n vol true ove x).trans (refill_within _ _ _ _ _ _ _ _ _ _)

theorem zeroFrame_within (d k n : Nat) (port : MemPort) (h : k < n) : Within ⟨d, 8 * n⟩ port (zeroFrame d k port) :=
  (MemPort.writeLE_within 0 fun _ _ _ => Region.has_mk.2 (by omega)).trans
    (MemPort.writeLE_within 0 fun _ _ _ => Region.has_mk.2 (by omega))

theorem zeroFrames_within (d n : Nat) (port : MemPort) : Within ⟨d, 8 * n⟩ port (forUp (zeroFrame d) n 0 port) :=
  forUp_rule (fun _ p => Within ⟨d, 8 * n⟩ port p) _ n 0 port (.refl _ _)
    fun j p _ hj hp => hp.trans (zeroFrame_within d j n p (by omega))

end Sys2Proof.Machine
end

