-- ==== Sys2Proof/Laws/Reference.lean ====
section
/-! SUPPORT. The laws of the reference functions: stateful steps over lists, and the words, samples and frames of MEM. -/

namespace Sys2Proof.Machine

/-! ### Stateful steps over lists -/

section Run
variable {σ α β : Type} (f : σ → α → β × σ)

theorem runOver_append (s : σ) (as bs : List α) :
    runOver f s (as ++ bs) =
      ((runOver f s as).1 ++ (runOver f (runOver f s as).2 bs).1, (runOver f (runOver f s as).2 bs).2) := by
  induction as generalizing s with
  | nil => rfl
  | cons a as ih => simp [runOver, ih]

@[simp] theorem runOver_length (s : σ) (as : List α) : (runOver f s as).1.length = as.length := by
  induction as generalizing s with
  | nil => rfl
  | cons a as ih => simp [runOver, ih]

/-- The run over one element more. -/
theorem runOver_take_succ (s : σ) (as : List α) {i : Nat} (h : i < as.length) :
    runOver f s (as.take (i + 1)) =
      ((runOver f s (as.take i)).1 ++ [(f (runOver f s (as.take i)).2 as[i]).1],
        (f (runOver f s (as.take i)).2 as[i]).2) := by
  rw [← List.take_append_getElem h, runOver_append]
  rfl

theorem runOver_take_fst (s : σ) (as : List α) (i : Nat) : (runOver f s (as.take i)).1 = (runOver f s as).1.take i := by
  induction as generalizing s i with
  | nil => simp [runOver]
  | cons a as ih => cases i <;> simp [runOver, ih]

/-- Output i is that of the step from the state after the elements before it. -/
theorem runOver_getElem (s : σ) (as : List α) {i : Nat} (h : i < as.length) :
    (runOver f s as).1[i]'(by simpa using h) = (f (runOver f s (as.take i)).2 as[i]).1 := by
  have h1 := runOver_take_fst f s as (i + 1)
  have hl : ((runOver f s (as.take i)).1).length = i := by simp; omega
  rw [runOver_take_succ f s as h] at h1
  have h2 : ((runOver f s as).1.take (i + 1))[i]'(by simp; omega) = (runOver f s as).1[i]'(by simpa using h) := by
    simp
  rw [← h2]
  simp only [← h1]
  rw [List.getElem_append_right (by omega)]
  simp [hl]

end Run

/-! ### Words and samples of MEM -/

theorem byte_append_toNat {n : Nat} (a : BitVec n) (b : Byte) : (a ++ b).toNat = b.toNat + 256 * a.toNat := by
  have := b.isLt
  rw [BitVec.toNat_append, Nat.shiftLeft_eq, ← Nat.shiftLeft_eq, ← Nat.shiftLeft_add_eq_or_of_lt (by simpa using b.isLt),
    Nat.shiftLeft_eq]
  omega

theorem word32At_toNat (p : MemPort) (a : Nat) : (word32At p a).toNat =
    leValue ((List.range 4).map fun i => p.peek (a + i)) := by
  simp only [word32At, byte_append_toNat, List.range_succ_eq_map, List.range_zero, List.map_nil, List.map_cons,
    leValue, Nat.add_zero]
  rfl

theorem readLE4_quiet {p : MemPort} (h : p.races = []) (a : Nat) : p.readLE a 4 = ((word32At p a).toNat, p) := by
  rw [MemPort.readLE_quiet h, word32At_toNat]

theorem readSample_quiet {p : MemPort} (h : p.races = []) (a : Nat) : readSample p a = (sampleAt p a, p) := by
  have : leValue ((List.range 2).map fun i => p.peek (a + i)) = (p.peek (a + 1) ++ p.peek a : BitVec 16).toNat := by
    rw [byte_append_toNat]
    simp [List.range_succ_eq_map, leValue]
  simp only [readSample, MemPort.readLE_quiet h, this, sampleAt]
  congr 2
  simp

theorem sampleAt_bounds (p : MemPort) (a : Nat) : -32768 ≤ sampleAt p a ∧ sampleAt p a ≤ 32767 := by
  have h1 := BitVec.le_toInt (p.peek (a + 1) ++ p.peek a : BitVec 16)
  have h2 := BitVec.toInt_lt (x := (p.peek (a + 1) ++ p.peek a : BitVec 16))
  simp only [sampleAt]
  norm_num at h1 h2
  omega

/-- Words depend on their bytes only. -/
theorem word32At_congr {p q : MemPort} {a : Nat} (h : ∀ i < 4, q.peek (a + i) = p.peek (a + i)) :
    word32At q a = word32At p a := by
  have h0 := h 0 (by omega)
  simp only [Nat.add_zero] at h0
  simp [word32At, h0, h 1, h 2, h 3]

theorem frameWord_congr {p q : MemPort} {a : Nat} (h : ∀ i < 4, q.peek (a + i) = p.peek (a + i)) :
    frameWord q a = frameWord p a := by rw [frameWord, frameWord, word32At_congr h]

/-- The word written is the word read. -/
theorem word32At_writeLE {p : MemPort} (hw : p.wf = true) (hq : p.races = []) (a : Nat) (w : Word) :
    word32At (p.writeLE a 4 w.toNat) a = w := by
  have h := fun i hi => MemPort.peek_writeLE hw hq a 4 w.toNat i hi
  have h0 := h 0 (by omega)
  simp only [Nat.add_zero] at h0
  apply BitVec.eq_of_toNat_eq
  have := w.isLt
  simp only [word32At, byte_append_toNat, h0, h 1 (by omega), h 2 (by omega), h 3 (by omega), BitVec.toNat_ofNat]
  omega

theorem toInt_bounds32 (w : Word) : -2147483648 ≤ w.toInt ∧ w.toInt ≤ 2147483647 := by
  have h1 := BitVec.le_toInt w
  have h2 := BitVec.toInt_lt (x := w)
  norm_num at h1 h2
  omega

theorem mixed_bounds (add : Bool) (old : Int) {o : Int} (h1 : -2147483648 ≤ o) (h2 : o ≤ 2147483647) :
    -2147483648 ≤ mixed add old o ∧ mixed add old o ≤ 2147483647 := by
  unfold mixed
  split
  · exact sat32_bounds _
  · exact ⟨h1, h2⟩

/-- `emitWord` without races: one word written. -/
theorem emitWord_quiet {p : MemPort} (hq : p.races = []) (add : Bool) (o : Int) (a : Nat) :
    emitWord add o a p = p.writeLE a 4 (BitVec.ofInt 32 (mixed add (frameWord p a) o)).toNat := by
  unfold emitWord mixed
  rw [readLE4_quiet hq]
  cases add <;> simp [frameWord]

theorem frameWord_emitWord {p : MemPort} (hw : p.wf = true) (hq : p.races = []) (add : Bool) {o : Int} (a : Nat)
    (h1 : -2147483648 ≤ o) (h2 : o ≤ 2147483647) :
    frameWord (emitWord add o a p) a = mixed add (frameWord p a) o := by
  rw [emitWord_quiet hq, frameWord, word32At_writeLE hw hq]
  have := mixed_bounds add (frameWord p a) h1 h2
  exact toInt_ofInt32 this.1 this.2

/-- What a frame becomes: both words mixed, nothing else changed (41_datapath.md R92). -/
theorem emitFrame_spec {p : MemPort} (hw : p.wf = true) (hq : p.races = []) (add : Bool) {o : Int} (d k : Nat)
    (h1 : -2147483648 ≤ o) (h2 : o ≤ 2147483647) :
    frameWord (emitFrame add d k o p) (d + 8 * k) = mixed add (frameWord p (d + 8 * k)) o ∧
      frameWord (emitFrame add d k o p) (d + 8 * k + 4) = mixed add (frameWord p (d + 8 * k + 4)) o ∧
      Within ⟨d + 8 * k, 8⟩ p (emitFrame add d k o p) := by
  have hL : Within ⟨d + 8 * k, 4⟩ p (emitWord add o (d + 8 * k) p) :=
    emitWord_within add o fun x h1 h2 => Region.has_mk.2 ⟨h1, h2⟩
  have hR : Within ⟨d + 8 * k + 4, 4⟩ (emitWord add o (d + 8 * k) p) (emitFrame add d k o p) :=
    emitWord_within add o fun x h1 h2 => Region.has_mk.2 ⟨h1, h2⟩
  refine ⟨?_, ?_, ?_⟩
  · rw [← frameWord_emitWord hw hq add _ h1 h2]
    exact frameWord_congr fun i hi => hR.peek _ (by simp [Region.has]; omega)
  · rw [show frameWord (emitFrame add d k o p) (d + 8 * k + 4) = _ from
      frameWord_emitWord (hL.wf hw) (hL.races.trans hq) add _ h1 h2]
    congr 1
    exact frameWord_congr fun i hi => hL.peek _ (by simp [Region.has])
  · exact emitFrame_within _ _ _ _ fun x h1 h2 => Region.has_mk.2 ⟨h1, h2⟩

/-! ### Frames written in a row -/

/-- The frames of a list of output values from frame k up. -/
def emitAll (add : Bool) (d : Nat) : Nat → List Int → MemPort → MemPort
  | _, [], p => p
  | k, o :: os, p => emitAll add d (k + 1) os (emitFrame add d k o p)

theorem emitAll_append (add : Bool) (d k : Nat) (os us : List Int) (p : MemPort) :
    emitAll add d k (os ++ us) p = emitAll add d (k + os.length) us (emitAll add d k os p) := by
  induction os generalizing k p with
  | nil => rfl
  | cons o os ih => simp [emitAll, ih, Nat.add_comm, Nat.add_left_comm]

theorem emitAll_within (add : Bool) (d k : Nat) (os : List Int) (p : MemPort) :
    Within ⟨d + 8 * k, 8 * os.length⟩ p (emitAll add d k os p) := by
  induction os generalizing k p with
  | nil => exact .refl _ _
  | cons o os ih =>
    refine (emitFrame_within add d k o fun x h1 h2 => Region.has_mk.2 ⟨h1, ?_⟩).trans
      ((ih (k + 1) _).mono fun a ha => ?_)
    · simp; omega
    · rw [Region.has_mk] at ha ⊢
      simp only [List.length_cons]
      omega

/-- What frame k + i becomes: both words mixed with value i. -/
theorem emitAll_frame {p : MemPort} (hw : p.wf = true) (hq : p.races = []) (add : Bool) (d k : Nat) (os : List Int)
    (hb : ∀ o ∈ os, -2147483648 ≤ o ∧ o ≤ 2147483647) {i : Nat} (hi : i < os.length) {w : Nat} (hwd : w = 0 ∨ w = 4) :
    frameWord (emitAll add d k os p) (d + 8 * (k + i) + w) = mixed add (frameWord p (d + 8 * (k + i) + w)) os[i] := by
  induction os generalizing k p i with
  | nil => simp at hi
  | cons o os ih =>
    have ho := hb o (by simp)
    have hs := emitFrame_spec hw hq add d k ho.1 ho.2
    have hrest := emitAll_within add d (k + 1) os (emitFrame add d k o p)
    cases i with
    | zero =>
      have : frameWord (emitAll add d (k + 1) os (emitFrame add d k o p)) (d + 8 * (k + 0) + w) =
          frameWord (emitFrame add d k o p) (d + 8 * (k + 0) + w) :=
        frameWord_congr fun j hj => hrest.peek _ (by simp [Region.has]; omega)
      simp only [emitAll, this, List.getElem_cons_zero]
      rcases hwd with rfl | rfl
      · exact hs.1
      · exact hs.2.1
    | succ i =>
      have := ih (k := k + 1) (p := emitFrame add d k o p) (i := i) (hs.2.2.wf hw) (hs.2.2.races.trans hq)
        (fun o ho => hb o (by simp [ho])) (by simpa using hi)
      simp only [emitAll, List.getElem_cons_succ]
      rw [show k + (i + 1) = k + 1 + i by omega, this]
      congr 1
      exact frameWord_congr fun j hj => hs.2.2.peek _ (by simp [Region.has]; omega)

/-- Played values fit in 24 bits. -/
theorem decodeOne_bounds (cfg : Config) (t : Nat) (p : Predictor) (c : Code) :
    -32768 ≤ (decodeOne cfg t p c).1 ∧ (decodeOne cfg t p c).1 ≤ 32767 := by
  cases c
  · exact dec4Step_bounds _ _ _ _
  · exact dec8Step_bounds _ _ _ _

theorem playOne_bounds (cfg : Config) (t : Nat) (p : Predictor) (c : Code) :
    -2147483648 ≤ (playOne cfg t p c).1 ∧ (playOne cfg t p c).1 ≤ 2147483647 := by
  have h := decodeOne_bounds cfg t p c
  have := ((decodeOne cfg t p c).2.ease cfg).scale_bounds h.1 h.2
  simp only [playOne]
  omega

theorem playAll_bounds (cfg : Config) (t : Nat) (p : Predictor) (cs : List Code) :
    ∀ o ∈ (playAll cfg t p cs).1, -2147483648 ≤ o ∧ o ≤ 2147483647 := by
  intro o ho
  obtain ⟨i, hi, rfl⟩ := List.getElem_of_mem ho
  have hi' : i < cs.length := by simpa [playAll] using hi
  have := runOver_getElem (playOne cfg t) p cs hi'
  simp only [playAll]
  rw [this]
  exact playOne_bounds _ _ _ _

end Sys2Proof.Machine
end

