-- ==== Sys2Proof/Laws/Codec.lean ====
section
/-! SUPPORT. The codec passes without races: the encoders write the packed codes, the decoders the played values; the encoder's
choices (41_datapath.md R77, R79) and the lockstep of encoder and decoder (R85), one sample at a time. -/

namespace Sys2Proof.Machine

/-! ### The 4-bit encoder's choice -/

/-- What the search of R77 keeps: the best legal candidate among those before index `j`. -/
def SearchInv (g mu value : Int) (done : List Int) (best : Option (Nat × Int)) : Prop :=
  match best with
  | none => ∀ i, (h : i < done.length) → legal16 (g + mu * done[i]) = false
  | some (c, r) => ∃ h : c < done.length, r = g + mu * done[c] ∧ legal16 r = true ∧
      (∀ i, (h : i < done.length) → legal16 (g + mu * done[i]) = true →
        (r - value).natAbs ≤ (g + mu * done[i] - value).natAbs) ∧
      ∀ i, (h : i < done.length) → i < c → legal16 (g + mu * done[i]) = true →
        (r - value).natAbs < (g + mu * done[i] - value).natAbs

theorem search4_inv (g mu value : Int) (steps done : List Int) (best : Option (Nat × Int))
    (h : SearchInv g mu value done best) :
    SearchInv g mu value (done ++ steps) (search4 g mu value steps done.length best) := by
  induction steps generalizing done best with
  | nil => simpa [search4] using h
  | cons step steps ih =>
    rw [show done ++ step :: steps = (done ++ [step]) ++ steps by simp]
    unfold search4
    have hl : done.length + 1 = (done ++ [step]).length := by simp
    dsimp only
    rw [hl]
    apply ih
    by_cases hleg : legal16 (g + mu * step) = true
    · cases best with
      | none =>
        simp only [hleg, Bool.and_true, if_true, SearchInv] at h ⊢
        refine ⟨by simp, by simp, trivial, fun i hi hl => ?_, fun i hi hc hl => ?_⟩
        · rcases Nat.lt_or_ge i done.length with h' | h'
          · simp [List.getElem_append_left h', h i h'] at hl
          · simp only [List.length_append, List.length_cons, List.length_nil] at hi
            have : i = done.length := by omega
            subst this
            simp
        · have := h i hc
          simp [List.getElem_append_left hc, this] at hl
      | some b =>
        obtain ⟨c, r⟩ := b
        obtain ⟨hc, hr, hlr, hmin, hfirst⟩ := h
        by_cases hb : (g + mu * step - value).natAbs < (r - value).natAbs
        · simp only [hleg, hb, decide_true, Bool.and_true, if_true, SearchInv]
          refine ⟨by simp, by simp, trivial, fun i hi hl => ?_, fun i hi hc hl => ?_⟩
          · rcases Nat.lt_or_ge i done.length with h' | h'
            · simp only [List.getElem_append_left h'] at hl ⊢
              exact le_of_lt (lt_of_lt_of_le hb (hmin i h' hl))
            · simp only [List.length_append, List.length_cons, List.length_nil] at hi
              have : i = done.length := by omega
              subst this
              simp
          · simp only [List.getElem_append_left hc] at hl ⊢
            exact lt_of_lt_of_le hb (hmin i hc hl)
        · simp only [hleg, hb, decide_false, Bool.and_false, SearchInv, Bool.false_eq_true, if_false]
          refine ⟨by simp; omega, by rw [List.getElem_append_left hc]; exact hr, hlr, fun i hi hl => ?_, fun i hi hc' hl => ?_⟩
          · rcases Nat.lt_or_ge i done.length with h' | h'
            · simp only [List.getElem_append_left h'] at hl ⊢
              exact hmin i h' hl
            · simp only [List.length_append, List.length_cons, List.length_nil] at hi
              have : i = done.length := by omega
              subst this
              simp only [List.getElem_append_right (Nat.le_refl _), Nat.sub_self, List.getElem_cons_zero]
              omega
          · simp only [List.getElem_append_left (show i < done.length by omega)] at hl ⊢
            exact hfirst i (by omega) hc' hl
    · have hleg' : legal16 (g + mu * step) = false := by simpa using hleg
      have hlast : ∀ i, i < (done ++ [step]).length → ¬ i < done.length → i = done.length := by
        intro i h1 h2; simp at h1; omega
      cases best with
      | none =>
        simp only [hleg', Bool.false_and, SearchInv, Bool.false_eq_true, if_false] at h ⊢
        intro i hi
        by_cases h' : i < done.length
        · rw [List.getElem_append_left h']; exact h i h'
        · have := hlast i hi h'
          subst this
          simpa using hleg'
      | some b =>
        obtain ⟨c, r⟩ := b
        obtain ⟨hc, hr, hlr, hmin, hfirst⟩ := h
        simp only [hleg', Bool.false_and, SearchInv, Bool.false_eq_true, if_false]
        refine ⟨by simp; omega, by rw [List.getElem_append_left hc]; exact hr, hlr, fun i hi hl => ?_, fun i hi hc' hl => ?_⟩
        · by_cases h' : i < done.length
          · simp only [List.getElem_append_left h'] at hl ⊢
            exact hmin i h' hl
          · have := hlast i hi h'
            subst this
            simp [hleg'] at hl
        · simp only [List.getElem_append_left (show i < done.length by omega)] at hl ⊢
          exact hfirst i (by omega) hc' hl

/-- The 4-bit encoder's choice for a table set that exists: a legal code with the least error, the lowest of them. -/
theorem choose4_spec (cfg : Config) {t : Nat} (p : Predictor) (value : Int) (ht : t < cfg.nTables) :
    ∃ c r, choose4 cfg t p value = (c, r) ∧ c < 16 ∧ r = p.guess + p.mult * cfg.step4 t c ∧ legal16 r = true ∧
      (∀ j < 16, legal16 (p.guess + p.mult * cfg.step4 t j) = true →
        (r - value).natAbs ≤ (p.guess + p.mult * cfg.step4 t j - value).natAbs) ∧
      ∀ j < c, legal16 (p.guess + p.mult * cfg.step4 t j) = true →
        (r - value).natAbs < (p.guess + p.mult * cfg.step4 t j - value).natAbs := by
  obtain ⟨hlen, -, h0⟩ := cfg.step4List_of_lt ht
  have hinv := search4_inv p.guess p.mult value (cfg.step4List t) [] none (by simp [SearchInv])
  simp only [List.nil_append, List.length_nil] at hinv
  have hget : ∀ j, (h : j < (cfg.step4List t).length) → (cfg.step4List t)[j] = cfg.step4 t j := by
    intro j h
    simp [Config.step4, List.getD_eq_getElem?_getD, List.getElem?_eq_getElem h]
  cases hs : search4 p.guess p.mult value (cfg.step4List t) 0 none with
  | none =>
    exfalso
    rw [hs] at hinv
    obtain ⟨j, hj, hz⟩ := List.getElem_of_mem h0
    have := hinv j hj
    rw [hz, mul_zero, add_zero] at this
    have hg := p.guess_bounds
    simp [legal16] at this
    omega
  | some b =>
    obtain ⟨c, r⟩ := b
    rw [hs] at hinv
    obtain ⟨hc, hr, hlr, hmin, hfirst⟩ := hinv
    rw [hlen] at hc
    refine ⟨c, r, by simp [choose4, hs], hc, by rw [hr, hget], hlr, fun j hj hl => ?_, fun j hj hl => ?_⟩
    · rw [← hget j (by omega)] at hl ⊢
      exact hmin j (by omega) hl
    · rw [← hget j (by omega)] at hl ⊢
      exact hfirst j (by omega) hj hl

/-! ### The 8-bit encoder's choice -/

/-- The magnitude is at most 127, and the reconstruction it gives stays in 16 bits. -/
theorem choose8_spec (p : Predictor) (value : Int) :
    (choose8 p value).2 ≤ 127 ∧ -32768 ≤ p.guess + signed (choose8 p value).1 (choose8 p value).2 * p.mult ∧
      p.guess + signed (choose8 p value).1 (choose8 p value).2 * p.mult ≤ 32767 := by
  have hg := p.guess_bounds
  have hm : roundedMag p (value - p.guess) ≤ 127 := by unfold roundedMag; omega
  have hmu := p.mult_eq
  have pull : ∀ {x : Int} {m : Nat}, 0 ≤ x → x < (m : Int) * p.mult →
      x.toNat >>> p.shift.toNat < m ∧ 0 ≤ ((x.toNat >>> p.shift.toNat : Nat) : Int) * p.mult ∧
        ((x.toNat >>> p.shift.toNat : Nat) : Int) * p.mult ≤ x := by
    intro x m hx hlt
    rw [Nat.shiftRight_eq_div_pow]
    rw [hmu] at hlt ⊢
    have hpos : 0 < 2 ^ p.shift.toNat := by positivity
    generalize 2 ^ p.shift.toNat = mu at hlt hpos ⊢
    have hq := Nat.div_mul_le_self x.toNat mu
    have hq' : ((x.toNat / mu : Nat) : Int) * mu ≤ x := by
      have : ((x.toNat / mu * mu : Nat) : Int) ≤ (x.toNat : Int) := by exact_mod_cast hq
      rw [Int.toNat_of_nonneg hx] at this
      exact_mod_cast this
    have hqm : ((x.toNat / mu : Nat) : Int) < m := lt_of_mul_lt_mul_right (lt_of_le_of_lt hq' hlt) (by positivity)
    exact ⟨by exact_mod_cast hqm, by positivity, hq'⟩
  have hpos : ∀ m : Nat, 0 ≤ (m : Int) * p.mult := fun m => by rw [hmu]; positivity
  unfold choose8
  dsimp only
  generalize roundedMag p (value - p.guess) = m at hm
  have := hpos m
  by_cases hs : value - p.guess < 0
  · simp only [hs, decide_true, signed, if_true, neg_mul]
    split
    · omega
    · split
      · obtain ⟨h1, h2, h3⟩ := pull (x := p.guess + 32768) (m := m) (by omega) (by omega)
        simp only [if_true, neg_mul]
        omega
      · simp only [if_true, neg_mul]
        omega
  · simp only [hs, decide_false, signed, Bool.false_eq_true, if_false]
    split
    · obtain ⟨h1, h2, h3⟩ := pull (x := 32767 - p.guess) (m := m) (by omega) (by omega)
      simp only [Bool.false_eq_true, if_false]
      omega
    · split
      · omega
      · simp only [Bool.false_eq_true, if_false]
        omega

/-! ### Lockstep, one sample -/

theorem SameHistory.guess {e d : Predictor} (h : SameHistory e d) : e.guess = d.guess := by
  simp [Predictor.guess, h.1, h.2.1]
theorem SameHistory.mult {e d : Predictor} (h : SameHistory e d) : e.mult = d.mult := by simp [Predictor.mult, h.2.2]

theorem lockstep4 (cfg : Config) {t : Nat} {e d : Predictor} (value : Int) (ht : t < cfg.nTables) (h : SameHistory e d) :
    (dec4Step cfg t d (enc4Step cfg t e value).1).1 = (enc4Step cfg t e value).2.1 ∧
      SameHistory (enc4Step cfg t e value).2.2 (dec4Step cfg t d (enc4Step cfg t e value).1).2 := by
  obtain ⟨c, r, hc, h16, hr, hleg, -⟩ := choose4_spec cfg e value ht
  have hb := legal16_iff.1 hleg
  have hrec : reconstruct4 cfg t d c = r := by
    rw [reconstruct4, ← h.guess, ← h.mult, ← hr, clamp16_of_mem hb.1 hb.2]
  have hcn : (BitVec.ofNat 4 c).toNat = c := by simp; omega
  simp only [enc4Step, hc, dec4Step, hcn, hrec, true_and]
  exact ⟨rfl, h.1, by simp [Predictor.adapt4, Predictor.adapt, h.2.2]⟩

theorem enc8Step_byte (cfg : Config) (t : Nat) (e : Predictor) (value : Int) :
    byteSign (enc8Step cfg t e value).1 = (choose8 e value).1 ∧ byteMag (enc8Step cfg t e value).1 = (choose8 e value).2 := by
  have h := (choose8_spec e value).1
  simp only [enc8Step]
  exact ⟨codeByte_sign _ _, codeByte_mag _ h⟩

theorem lockstep8 (cfg : Config) {t : Nat} {e d : Predictor} (value : Int) (h : SameHistory e d) :
    (dec8Step cfg t d (enc8Step cfg t e value).1).1 = (enc8Step cfg t e value).2.1 ∧
      SameHistory (enc8Step cfg t e value).2.2 (dec8Step cfg t d (enc8Step cfg t e value).1).2 := by
  obtain ⟨-, hlo, hhi⟩ := choose8_spec e value
  obtain ⟨hs, hm⟩ := enc8Step_byte cfg t e value
  have hrec : reconstruct8 d (enc8Step cfg t e value).1 = (enc8Step cfg t e value).2.1 := by
    rw [reconstruct8, hs, hm, ← h.guess, ← h.mult, clamp16_of_mem hlo hhi]
    simp [enc8Step]
  have h1 : (enc8Step cfg t e value).2.2 =
      (e.push (enc8Step cfg t e value).2.1).adapt8 cfg t (byteMag (enc8Step cfg t e value).1) := by simp [enc8Step]
  have h2 : (dec8Step cfg t d (enc8Step cfg t e value).1).2 =
      (d.push (enc8Step cfg t e value).2.1).adapt8 cfg t (byteMag (enc8Step cfg t e value).1) := by
    simp [dec8Step, hrec]
  refine ⟨hrec, ?_⟩
  rw [h1, h2]
  exact ⟨rfl, h.1, by simp [Predictor.adapt8, Predictor.adapt, h.2.2]⟩

end Sys2Proof.Machine
end

