-- ==== Sys2Proof/Laws/Passes.lean ====
section
/-! SUPPORT. The codec passes and the trials of SELECT without races, against the reference over lists. -/

namespace Sys2Proof.Machine

theorem Region.has_of_disjoint {r q : Region} {a : Nat} (h : r.overlaps q = false) (ha : q.has a = true) :
    r.has a = false := by
  simp only [Region.overlaps, Region.has, Bool.and_eq_true, decide_eq_true_eq, Bool.and_eq_false_imp,
    decide_eq_false_iff_not] at *
  intro h1
  have := h
  omega

theorem sseOf_snoc {vs rs : List Int} (h : vs.length = rs.length) (v r : Int) :
    sseOf (vs ++ [v]) (rs ++ [r]) = sseOf vs rs + sqErr v r := by
  simp [sseOf, List.zipWith_append h]

theorem samplesAt_length (p : MemPort) (a n : Nat) : (samplesAt p a n).length = n := by simp [samplesAt]
theorem samplesAt_getElem (p : MemPort) (a n : Nat) {i : Nat} (h : i < n) :
    (samplesAt p a n)[i]'(by simpa [samplesAt_length] using h) = sampleAt p (a + 2 * i) := by simp [samplesAt]

/-- A sample outside the bytes written is the sample there was. -/
theorem sampleAt_within {r : Region} {p q : MemPort} (h : Within r p q) {a : Nat} (h0 : r.has a = false)
    (h1 : r.has (a + 1) = false) : sampleAt q a = sampleAt p a := by
  simp [sampleAt, h.peek _ h0, h.peek _ h1]

/-! ### The encoders -/

/-- ENC8's pass. -/
theorem encode8_spec (cfg : Config) (t pred src n dst : Nat) {p : MemPort} (hw : p.wf = true) (hq : p.races = [])
    (hd : (Region.mk dst n).overlaps ⟨src, 2 * n⟩ = false) :
    let out := (encodeAll8 cfg t (seeded cfg pred 0) (samplesAt p src n)).1
    let r := encode8 cfg t pred src n dst p
    r.sse = sseOf (samplesAt p src n) (out.map (·.2)) ∧ ∀ k, (h : k < out.length) → r.port.peek (dst + k) = out[k].1 := by
  intro out r
  set vs := samplesAt p src n with hvs
  have hlen : vs.length = n := samplesAt_length p src n
  have hol : out.length = n := by simp [out, encodeAll8, samplesAt_length]
  let run := fun i => encodeAll8 cfg t (seeded cfg pred 0) (vs.take i)
  have hinv := forUp_rule (fun i (x : EncRun) => i ≤ n ∧ x.e = (run i).2 ∧ x.sse = sseOf (vs.take i) ((run i).1.map (·.2)) ∧
      Within ⟨dst, n⟩ p x.port ∧ ∀ k, (h : k < out.length) → k < i → x.port.peek (dst + k) = out[k].1)
    (enc8Sample cfg t src dst) n 0 ⟨seeded cfg pred 0, 0, 0, p⟩
    ⟨by omega, rfl, rfl, .refl _ _, fun k _ h => by omega⟩ (fun i x _ hi hx => by
      obtain ⟨-, he, hsse, hwin, hbytes⟩ := hx
      have hin : i < vs.length := by omega
      have hxq := hwin.races.trans hq
      have hval : sampleAt x.port (src + 2 * i) = vs[i] := by
        rw [samplesAt_getElem _ _ _ (by omega)]
        refine sampleAt_within hwin (Region.has_of_disjoint hd ?_) (Region.has_of_disjoint hd ?_) <;>
          simp [Region.has] <;> omega
      have hsucc := runOver_take_succ (fun e v => let (b, r, e') := enc8Step cfg t e v; ((b, r), e'))
        (seeded cfg pred 0) vs hin
      have hrun : run (i + 1) = ((run i).1 ++ [((enc8Step cfg t (run i).2 vs[i]).1, (enc8Step cfg t (run i).2 vs[i]).2.1)],
        (enc8Step cfg t (run i).2 vs[i]).2.2) := hsucc
      have hstep : enc8Sample cfg t src dst i x = ⟨(enc8Step cfg t (run i).2 vs[i]).2.2,
          x.sse + sqErr vs[i] (enc8Step cfg t (run i).2 vs[i]).2.1, x.lo,
          x.port.poke (dst + i) (enc8Step cfg t (run i).2 vs[i]).1⟩ := by
        simp only [enc8Sample, readSample_quiet hxq, hval, he, MemPort.write_quiet hxq]
      rw [hstep]
      refine ⟨by omega, by rw [hrun], ?_, hwin.trans (MemPort.poke_within _ (by simp [Region.has]; omega)), ?_⟩
      · rw [hrun, List.map_append, ← List.take_append_getElem hin]
        simp only [List.map_cons, List.map_nil]
        rw [sseOf_snoc (by simp [run, encodeAll8]), hsse]
      · intro k hk hki
        rcases Nat.lt_or_ge k i with h | h
        · rw [MemPort.peek_poke_other _ _ (by omega)]
          exact hbytes k hk h
        · have : k = i := by omega
          subst this
          simp only []
          rw [MemPort.peek_poke_same _ _ (hwin.wf hw)]
          have := runOver_getElem (fun e v => let (b, r, e') := enc8Step cfg t e v; ((b, r), e'))
            (seeded cfg pred 0) vs hin
          simp only [out, encodeAll8]
          rw [this]
          rfl)
  have hn : vs.take (0 + n) = vs := by rw [Nat.zero_add, ← hlen, List.take_length]
  obtain ⟨-, -, hsse, -, hb⟩ := hinv
  refine ⟨?_, fun k hk => hb k hk (by omega)⟩
  have : run (0 + n) = encodeAll8 cfg t (seeded cfg pred 0) vs := by simp only [run, hn]
  rw [hn, this] at hsse
  exact hsse

/-- ENC4's pass. -/
theorem encode4_spec (cfg : Config) (t pred src n dst : Nat) {p : MemPort} (hw : p.wf = true) (hq : p.races = [])
    (hd : (Region.mk dst (packedLen n)).overlaps ⟨src, 2 * n⟩ = false) :
    let out := (encodeAll4 cfg t (seeded cfg pred 0) (samplesAt p src n)).1
    let r := encode4 cfg t pred src n dst p
    r.sse = sseOf (samplesAt p src n) (out.map (·.2)) ∧
      ∀ k < packedLen n, r.port.peek (dst + k) =
        packCodes ((out.map (·.1)).getD (2 * k) 0) ((out.map (·.1)).getD (2 * k + 1) 0) := by
  intro out r
  set vs := samplesAt p src n with hvs
  have hlen : vs.length = n := samplesAt_length p src n
  have hol : out.length = n := by simp [out, encodeAll4, samplesAt_length]
  have hpl := packedLen_eq n
  set code : Nat → BitVec 4 := fun k => (out.map (·.1)).getD k 0 with hcode
  have hcode_ge : ∀ k, n ≤ k → code k = 0 := by
    intro k hk
    simp [hcode, List.getD_eq_getElem?_getD, hol, hk]
  let run := fun i => encodeAll4 cfg t (seeded cfg pred 0) (vs.take i)
  have hcode_lt : ∀ i, (h : i < n) → code i = (enc4Step cfg t (run i).2 (vs[i]'(by omega))).1 := by
    intro i h
    have := runOver_getElem (fun e v => let (c, r, e') := enc4Step cfg t e v; ((c, r), e'))
      (seeded cfg pred 0) vs (i := i) (by omega)
    have ho : out[i]'(by omega) = ((enc4Step cfg t (run i).2 (vs[i]'(by omega))).1,
      (enc4Step cfg t (run i).2 (vs[i]'(by omega))).2.1) := this
    simp only [hcode, List.getD_eq_getElem?_getD, List.getElem?_map, List.getElem?_eq_getElem (show i < out.length by omega),
      Option.map_some, Option.getD_some, ho]
  have hinv := forUp_rule (fun i (x : EncRun) => i ≤ n ∧ x.e = (run i).2 ∧ x.sse = sseOf (vs.take i) ((run i).1.map (·.2)) ∧
      Within ⟨dst, packedLen n⟩ p x.port ∧ (i % 2 = 1 → x.lo = code (i - 1)) ∧
      ∀ k, k < i / 2 → x.port.peek (dst + k) = packCodes (code (2 * k)) (code (2 * k + 1)))
    (enc4Sample cfg t src dst) n 0 ⟨seeded cfg pred 0, 0, 0, p⟩
    ⟨by omega, rfl, rfl, .refl _ _, fun h => by omega, fun k h => by omega⟩ (fun i x _ hi hx => by
      obtain ⟨-, he, hsse, hwin, hlo, hbytes⟩ := hx
      have hin : i < vs.length := by omega
      have hxq := hwin.races.trans hq
      have hval : sampleAt x.port (src + 2 * i) = vs[i] := by
        rw [samplesAt_getElem _ _ _ (by omega)]
        refine sampleAt_within hwin (Region.has_of_disjoint hd ?_) (Region.has_of_disjoint hd ?_) <;>
          simp [Region.has] <;> omega
      have hsucc := runOver_take_succ (fun e v => let (c, r, e') := enc4Step cfg t e v; ((c, r), e'))
        (seeded cfg pred 0) vs hin
      have hrun : run (i + 1) = ((run i).1 ++ [((enc4Step cfg t (run i).2 vs[i]).1, (enc4Step cfg t (run i).2 vs[i]).2.1)],
        (enc4Step cfg t (run i).2 vs[i]).2.2) := hsucc
      have hci := hcode_lt i (by omega)
      have hsse' : x.sse + sqErr vs[i] (enc4Step cfg t (run i).2 vs[i]).2.1 =
          sseOf (vs.take (i + 1)) ((run (i + 1)).1.map (·.2)) := by
        rw [hrun, List.map_append, ← List.take_append_getElem hin]
        simp only [List.map_cons, List.map_nil]
        rw [sseOf_snoc (by simp [run, encodeAll4]), hsse]
      unfold enc4Sample
      simp only [readSample_quiet hxq, hval, he, MemPort.write_quiet hxq]
      rw [← hci]
      split
      · rename_i hev
        refine ⟨by omega, by rw [hrun], hsse', hwin, fun _ => by simp, fun k hk => hbytes k (by omega)⟩
      · rename_i hodd
        have hsh : i >>> 1 = i / 2 := by simp [Nat.shiftRight_eq_div_pow]
        refine ⟨by omega, by rw [hrun], hsse', hwin.trans (MemPort.poke_within _ (by simp [Region.has, hsh]; omega)),
          fun h => by omega, fun k hk => ?_⟩
        simp only [hsh]
        rcases Nat.lt_or_ge k (i / 2) with h | h
        · rw [MemPort.peek_poke_other _ _ (by omega)]
          exact hbytes k h
        · have hk' : k = i / 2 := by omega
          rw [hk', MemPort.peek_poke_same _ _ (hwin.wf hw), hlo (by omega), show 2 * (i / 2) = i - 1 by omega,
            show i - 1 + 1 = i by omega])
  have hn : vs.take (0 + n) = vs := by rw [Nat.zero_add, ← hlen, List.take_length]
  have hrn : run (0 + n) = encodeAll4 cfg t (seeded cfg pred 0) vs := by simp only [run, hn]
  obtain ⟨-, -, hsse, hwin, hlo, hb⟩ := hinv
  rw [hn, hrn] at hsse
  simp only [Nat.zero_add] at hlo hb hwin hsse
  have hsh : n >>> 1 = n / 2 := by simp [Nat.shiftRight_eq_div_pow]
  simp only [r, encode4]
  split
  · rename_i hodd
    refine ⟨hsse, fun k hk => ?_⟩
    simp only [MemPort.write_quiet (hwin.races.trans hq), hsh]
    rcases Nat.lt_or_ge k (n / 2) with h | h
    · rw [MemPort.peek_poke_other _ _ (by omega)]
      exact hb k h
    · have hk' : k = n / 2 := by omega
      rw [hk', MemPort.peek_poke_same _ _ (hwin.wf hw), hlo (by omega), show 2 * (n / 2) = n - 1 by omega]
      exact congrArg (packCodes (code (n - 1))) (hcode_ge (n - 1 + 1) (by omega)).symm
  · rename_i hev
    exact ⟨hsse, fun k hk => hb k (by omega)⟩

/-! ### The decoders -/

theorem codesAt_length (m : MemPort) (is8 : Bool) (a n : Nat) : (codesAt m is8 a n).length = n := by simp [codesAt]
theorem codesAt_getElem (m : MemPort) (is8 : Bool) (a n : Nat) {i : Nat} (h : i < n) :
    (codesAt m is8 a n)[i]'(by simpa [codesAt_length] using h) = codeAt m is8 a i := by simp [codesAt]

/-- The decoding steps neither read nor write HIGH and HELD. -/
theorem dec4Step_packing (cfg : Config) (t : Nat) (p : Predictor) (h : Bool) (b : Byte) (c : BitVec 4) :
    dec4Step cfg t { p with high := h, held := b } c =
      ((dec4Step cfg t p c).1, { (dec4Step cfg t p c).2 with high := h, held := b }) := rfl
theorem dec8Step_packing (cfg : Config) (t : Nat) (p : Predictor) (h : Bool) (b : Byte) (c : Byte) :
    dec8Step cfg t { p with high := h, held := b } c =
      ((dec8Step cfg t p c).1, { (dec8Step cfg t p c).2 with high := h, held := b }) := rfl
theorem ease_packing (cfg : Config) (p : Predictor) (h : Bool) (b : Byte) :
    ({ p with high := h, held := b } : Predictor).ease cfg = { p.ease cfg with high := h, held := b } := by
  unfold Predictor.ease
  simp only
  split <;> [skip; split] <;> rfl

/-- DEC8's pass. -/
theorem decode8_spec (cfg : Config) (t pred src n dst vol : Nat) (add ove : Bool) {p : MemPort} (hq : p.races = [])
    (hd : (Region.mk dst (8 * n)).overlaps ⟨src, n⟩ = false) :
    (decode8 cfg t pred src n dst vol add ove p).port =
      emitAll add dst 0 (playAll cfg t (decStart cfg pred vol ove) (codesAt p true src n)).1 p := by
  set cs := codesAt p true src n with hcs
  have hlen : cs.length = n := codesAt_length _ _ _ _
  let run := fun i => playAll cfg t (decStart cfg pred vol ove) (cs.take i)
  have hinv := forUp_rule (fun i (x : DecRun) => i ≤ n ∧ x.e = (run i).2 ∧ x.port = emitAll add dst 0 (run i).1 p)
    (dec8Sample cfg t src dst add) n 0 ⟨decStart cfg pred vol ove, p⟩ ⟨by omega, rfl, rfl⟩ (fun i x _ hi hx => by
      obtain ⟨-, he, hp⟩ := hx
      have hin : i < cs.length := by omega
      have hrl : (run i).1.length = i := by simp [run, playAll]; omega
      have hwin := emitAll_within add dst 0 (run i).1 p
      rw [← hp, hrl] at hwin
      have hval : x.port.read (src + i) = (p.peek (src + i), x.port) := by
        rw [MemPort.read_quiet (hwin.races.trans hq)]
        congr 1
        have := Region.has_of_disjoint hd (a := src + i) (by simp [Region.has]; omega)
        exact hwin.peek _ (by simp [Region.has] at this ⊢; omega)
      have hci : cs[i] = .eight (p.peek (src + i)) := by rw [codesAt_getElem _ _ _ _ (by omega)]; rfl
      have hrun : run (i + 1) = ((run i).1 ++ [(playOne cfg t (run i).2 cs[i]).1], (playOne cfg t (run i).2 cs[i]).2) :=
        runOver_take_succ (playOne cfg t) _ cs hin
      have hstep : dec8Sample cfg t src dst add i x = ⟨(playOne cfg t (run i).2 cs[i]).2,
          emitFrame add dst i (playOne cfg t (run i).2 cs[i]).1 x.port⟩ := by
        simp only [dec8Sample, hval, he, hci, decEmit, playOne, decodeOne]
      rw [hstep, hrun]
      refine ⟨by omega, rfl, ?_⟩
      simp only [emitAll_append, hrl, ← hp, Nat.zero_add]
      rfl)
  have hn : cs.take (0 + n) = cs := by rw [Nat.zero_add, ← hlen, List.take_length]
  have h := hinv.2.2
  simp only [run, hn] at h
  exact h

/-- DEC4's pass. -/
theorem decode4_spec (cfg : Config) (t pred src n dst vol : Nat) (add ove : Bool) {p : MemPort} (hq : p.races = [])
    (hd : (Region.mk dst (8 * n)).overlaps ⟨src, packedLen n⟩ = false) :
    (decode4 cfg t pred src n dst vol add ove p).port =
      emitAll add dst 0 (playAll cfg t (decStart cfg pred vol ove) (codesAt p false src n)).1 p := by
  set cs := codesAt p false src n with hcs
  have hlen : cs.length = n := codesAt_length _ _ _ _
  have hpl := packedLen_eq n
  let run := fun i => playAll cfg t (decStart cfg pred vol ove) (cs.take i)
  have hinv := forUp_rule (fun i (x : DecRun) => i ≤ n ∧
      (∃ b, x.e = { (run i).2 with high := decide (i % 2 = 1), held := b } ∧ (i % 2 = 1 → b = p.peek (src + i / 2))) ∧
      x.port = emitAll add dst 0 (run i).1 p)
    (dec4Sample cfg t src dst add) n 0 ⟨decStart cfg pred vol ove, p⟩ ⟨by omega, ⟨_, rfl, by omega⟩, rfl⟩
    (fun i x _ hi hx => by
      obtain ⟨-, ⟨b, he, hb⟩, hp⟩ := hx
      have hin : i < cs.length := by omega
      have hrl : (run i).1.length = i := by simp [run, playAll]; omega
      have hwin := emitAll_within add dst 0 (run i).1 p
      rw [← hp, hrl] at hwin
      have hsh : i >>> 1 = i / 2 := by simp [Nat.shiftRight_eq_div_pow]
      have hval : x.port.read (src + i / 2) = (p.peek (src + i / 2), x.port) := by
        rw [MemPort.read_quiet (hwin.races.trans hq)]
        congr 1
        have := Region.has_of_disjoint hd (a := src + i / 2) (by simp [Region.has]; omega)
        exact hwin.peek _ (by simp [Region.has] at this ⊢; omega)
      have hci : cs[i] = codeAt p false src i := codesAt_getElem _ _ _ _ (by omega)
      have hrun : run (i + 1) = ((run i).1 ++ [(playOne cfg t (run i).2 cs[i]).1], (playOne cfg t (run i).2 cs[i]).2) :=
        runOver_take_succ (playOne cfg t) _ cs hin
      have hport : emitFrame add dst i (playOne cfg t (run i).2 cs[i]).1 x.port = emitAll add dst 0 (run (i + 1)).1 p := by
        simp only [hrun, emitAll_append, hrl, ← hp, Nat.zero_add]
        rfl
      rw [← hport, show (run (i + 1)).2 = (playOne cfg t (run i).2 cs[i]).2 by rw [hrun]]
      rcases Nat.mod_two_eq_zero_or_one i with h2 | h2
      · have hc : cs[i] = .four (lowNibble (p.peek (src + i / 2))) := by simp [hci, codeAt, h2]
        have h2' : (i + 1) % 2 = 1 := by omega
        refine ⟨by omega, ⟨p.peek (src + i / 2), ?_, fun _ => by rw [show (i + 1) / 2 = i / 2 by omega]⟩, ?_⟩
        · simp only [dec4Sample, he, h2, hsh, hval, decide_false, Bool.false_eq_true, if_false, Predictor.takeLow,
            Nat.zero_ne_one, decEmit, hc, playOne, decodeOne, h2', decide_true]
          rw [dec4Step_packing cfg t (run i).2]
          simp only [ease_packing]
        · simp only [dec4Sample, he, h2, hsh, hval, decide_false, Bool.false_eq_true, if_false, Predictor.takeLow,
            Nat.zero_ne_one, decEmit, hc, playOne, decodeOne]
          rw [dec4Step_packing cfg t (run i).2]
          simp only [ease_packing]
          rfl
      · have hc : cs[i] = .four (highNibble (p.peek (src + i / 2))) := by simp [hci, codeAt, h2]
        have h2' : ¬ (i + 1) % 2 = 1 := by omega
        refine ⟨by omega, ⟨b, ?_, fun h => absurd h h2'⟩, ?_⟩
        · simp only [dec4Sample, he, h2, decide_true, if_true, Predictor.takeHigh, decEmit, hc, playOne, decodeOne, h2',
            decide_false, hb h2]
          rw [dec4Step_packing cfg t (run i).2]
          simp only [ease_packing]
        · simp only [dec4Sample, he, h2, decide_true, if_true, Predictor.takeHigh, decEmit, hc, playOne, decodeOne, hb h2]
          rw [dec4Step_packing cfg t (run i).2]
          simp only [ease_packing]
          rfl)
  have hn : cs.take (0 + n) = cs := by rw [Nat.zero_add, ← hlen, List.take_length]
  have h := hinv.2.2
  simp only [run, hn] at h
  exact h

/-! ### Lockstep over sequences -/

theorem lockstep4_run (cfg : Config) {t : Nat} {e d : Predictor} (values : List Int) (ht : t < cfg.nTables)
    (h : SameHistory e d) :
    (decodeAll4 cfg t d ((encodeAll4 cfg t e values).1.map (·.1))).1 = (encodeAll4 cfg t e values).1.map (·.2) ∧
      SameHistory (encodeAll4 cfg t e values).2 (decodeAll4 cfg t d ((encodeAll4 cfg t e values).1.map (·.1))).2 := by
  induction values generalizing e d with
  | nil => exact ⟨rfl, h⟩
  | cons v vs ih =>
    have h1 := lockstep4 cfg v ht h
    have h2 := ih h1.2
    simp only [encodeAll4, decodeAll4, runOver, List.map_cons] at h2 ⊢
    exact ⟨by rw [h1.1, h2.1], h2.2⟩

theorem lockstep8_run (cfg : Config) {t : Nat} {e d : Predictor} (values : List Int) (h : SameHistory e d) :
    (decodeAll8 cfg t d ((encodeAll8 cfg t e values).1.map (·.1))).1 = (encodeAll8 cfg t e values).1.map (·.2) ∧
      SameHistory (encodeAll8 cfg t e values).2 (decodeAll8 cfg t d ((encodeAll8 cfg t e values).1.map (·.1))).2 := by
  induction values generalizing e d with
  | nil => exact ⟨rfl, h⟩
  | cons v vs ih =>
    have h1 := lockstep8 cfg (t := t) v h
    have h2 := ih h1.2
    simp only [encodeAll8, decodeAll8, runOver, List.map_cons] at h2 ⊢
    exact ⟨by rw [h1.1, h2.1], h2.2⟩

/-! ### SELECT -/

/-- A trial's error is the error the encoder reports for the pair (44_select.md R112). -/
theorem trial_spec (cfg : Config) (is8 : Bool) (src n t p : Nat) {m : MemPort} (hq : m.races = []) (ht : t < cfg.nTables) :
    trial cfg is8 src n t p m = (encodedSSE cfg is8 t p (samplesAt m src n), m) := by
  set vs := samplesAt m src n with hvs
  have hlen : vs.length = n := samplesAt_length m src n
  let recs := fun i => encodedRecs cfg is8 t p (vs.take i)
  let fin := fun i => if is8 then (encodeAll8 cfg t (seeded cfg p 0) (vs.take i)).2
    else (encodeAll4 cfg t (seeded cfg p 0) (vs.take i)).2
  have hinv := forUp_rule (fun i (x : TrialRun) => i ≤ n ∧ x.e = fin i ∧ SameHistory x.e x.d ∧
      x.sse = sseOf (vs.take i) (recs i) ∧ x.port = m)
    (trialSample cfg is8 t src) n 0 ⟨seeded cfg p 0, seeded cfg p 0, 0, m⟩
    ⟨by omega, by simp only [fin]; split <;> rfl, ⟨rfl, rfl, rfl⟩, by
      simp only [recs, encodedRecs]; split <;> rfl, rfl⟩
    (fun i x _ hi hx => by
      obtain ⟨-, he, hsame, hsse, hp⟩ := hx
      have hin : i < vs.length := by omega
      have hval : sampleAt m (src + 2 * i) = vs[i] := (samplesAt_getElem _ _ _ (by omega)).symm
      unfold trialSample
      simp only [hp, readSample_quiet hq, hval]
      cases is8 with
      | true =>
        have hrun := runOver_take_succ (fun e v => let (b, r, e') := enc8Step cfg t e v; ((b, r), e'))
          (seeded cfg p 0) vs hin
        have hl := lockstep8 cfg (t := t) vs[i] hsame
        simp only [if_true]
        refine ⟨by omega, ?_, hl.2, ?_, trivial⟩
        · simp only [fin, if_true, encodeAll8, hrun] at he ⊢
          rw [he]
        · simp only [recs, encodedRecs, if_true, encodeAll8, hrun, fin] at he hsse ⊢
          rw [List.map_append, ← List.take_append_getElem hin]
          simp only [List.map_cons, List.map_nil]
          rw [sseOf_snoc (by simp), ← hsse, hl.1, he]
      | false =>
        have hrun := runOver_take_succ (fun e v => let (c, r, e') := enc4Step cfg t e v; ((c, r), e'))
          (seeded cfg p 0) vs hin
        have hl := lockstep4 cfg vs[i] ht hsame
        simp only [Bool.false_eq_true, if_false]
        refine ⟨by omega, ?_, hl.2, ?_, trivial⟩
        · simp only [fin, Bool.false_eq_true, if_false, encodeAll4, hrun] at he ⊢
          rw [he]
        · simp only [recs, encodedRecs, Bool.false_eq_true, if_false, encodeAll4, hrun, fin] at he hsse ⊢
          rw [List.map_append, ← List.take_append_getElem hin]
          simp only [List.map_cons, List.map_nil]
          rw [sseOf_snoc (by simp), ← hsse, hl.1, he])
  have hn : vs.take (0 + n) = vs := by rw [Nat.zero_add, ← hlen, List.take_length]
  obtain ⟨-, -, -, hsse, hp⟩ := hinv
  simp only [recs, hn] at hsse
  simp only [trial, hp, hsse, encodedSSE]

end Sys2Proof.Machine
end

