-- ==== Sys2Proof/Laws/Expander.lean ====
section
/-! SUPPORT. The expander: the voice invariant is kept whatever the bytes read are, and without races the chunk loop plays the
voice's codes in order (43_expander.md R103, R104, R106). -/

namespace Sys2Proof.Machine

/-! ### Ranges of a voice that keeps its invariant -/

section Inv
variable {cfg : Config} {v : Voice}

theorem VoiceInv.size_lt (h : VoiceInv cfg v) : v.size.toNat < 2147483648 := by
  have h1 := Region.inRange_iff.1 h.stream
  have := cfg.memSize_bounds
  simp only [Voice.stream] at h1
  omega

theorem VoiceInv.total_le (h : VoiceInv cfg v) :
    v.total.toNat < 4294967296 ∧ (v.is8 = true → v.total.toNat = v.size.toNat) ∧
      (v.is8 = false → (v.total.toNat + 1) / 2 ≤ v.size.toNat) := by
  have h1 := h.total
  have h2 := h.size_lt
  have h3 := h.odd
  simp only [streamTotal] at h1
  cases h8 : v.is8 <;> cases ho : v.odd <;> simp_all <;> omega

theorem VoiceInv.cursor_eq (h : VoiceInv cfg v) : v.cursor.toNat = cursorAt v.is8 v.pos.toNat := h.cursor

theorem cursorAt_le {is8 : Bool} {q : Nat} (h : VoiceInv cfg v) (hi : is8 = v.is8) (hq : q ≤ v.total.toNat) :
    cursorAt is8 q ≤ v.size.toNat := by
  have := h.total_le
  subst hi
  unfold cursorAt
  split
  · rename_i h8; have := this.2.1 h8; omega
  · rename_i h8; have := this.2.2 (by simpa using h8); omega

end Inv

/-! ### The invariant, whatever is read -/

/-- What every part of the chunk loop keeps of a voice's ranges. -/
structure VoiceRanges (v : Voice) : Prop where
  shift  : v.p.shift.toNat ≤ if v.is8 then shiftLimit8 else shiftLimit4
  volsh  : v.p.volsh.toNat ≤ 65535 * 256
  voltgt : v.p.voltgt.toNat ≤ 65535 * 256

theorem ease_ranges (cfg : Config) {p : Predictor} (h1 : p.volsh.toNat ≤ 65535 * 256) (h2 : p.voltgt.toNat ≤ 65535 * 256) :
    (p.ease cfg).volsh.toNat ≤ 65535 * 256 ∧ (p.ease cfg).voltgt.toNat ≤ 65535 * 256 := by
  rw [Predictor.ease_volsh, Predictor.ease_voltgt]
  refine ⟨?_, h2⟩
  split <;> omega

theorem volSet_ranges {p : Predictor} {vol : Nat} (ove : Bool) (hv : vol ≤ 65535) (h1 : p.volsh.toNat ≤ 65535 * 256) :
    (p.volSet vol ove).volsh.toNat ≤ 65535 * 256 ∧ (p.volSet vol ove).voltgt.toNat ≤ 65535 * 256 := by
  have ht : (BitVec.ofNat 24 (vol <<< vshift)).toNat = vol * 256 := by
    simp only [BitVec.toNat_ofNat, vshift, Nat.shiftLeft_eq]
    omega
  simp only [Predictor.volSet]
  constructor
  · split
    · omega
    · exact h1
  · omega

/-- One emitted sample of a voice. -/
structure Emitted (x y : VoiceRun) : Prop where
  binding : SameBinding x.v y.v
  cursor  : y.v.cursor = x.v.cursor
  pos     : y.v.pos = BitVec.ofNat 32 (x.v.pos.toNat + 1)
  ranges  : VoiceRanges x.v → VoiceRanges y.v

theorem chunkSample8_emitted (cfg : Config) (add : Bool) (d produced i : Nat) (x : VoiceRun) (h8 : x.v.is8 = true) :
    Emitted x (chunkSample8 cfg add d produced i x) ∧
      (chunkSample8 cfg add d produced i x).v.p.high = x.v.p.high where
  left :=
    { binding := ⟨rfl, rfl, rfl, rfl, rfl, rfl, rfl, rfl⟩
      cursor := rfl
      pos := rfl
      ranges := fun h => by
        have he := ease_ranges cfg (p := (dec8Step cfg x.v.table.toNat x.v.p (x.wbuf.getD i 0)).2) h.volsh h.voltgt
        exact ⟨by
          simp only [chunkSample8, voiceEmit, Predictor.ease_shift, h8, if_true]
          exact Predictor.adapt_shift_le _ _ (by decide), he.1, he.2⟩ }
  right := by simp only [chunkSample8, voiceEmit, Predictor.ease_high]; rfl

theorem chunkSample4_emitted (cfg : Config) (add : Bool) (d produced i : Nat) (jx : Nat × VoiceRun) (h8 : jx.2.v.is8 = false) :
    Emitted jx.2 (chunkSample4 cfg add d produced i jx).2 ∧
      (chunkSample4 cfg add d produced i jx).2.v.p.high = !jx.2.v.p.high := by
  obtain ⟨j, x⟩ := jx
  simp only at h8
  cases hh : x.v.p.high
  · simp only [chunkSample4, hh, Bool.false_eq_true, if_false]
    refine ⟨⟨⟨rfl, rfl, rfl, rfl, rfl, rfl, rfl, rfl⟩, rfl, rfl, fun h => ?_⟩, ?_⟩
    · have he := ease_ranges cfg
        (p := (dec4Step cfg x.v.table.toNat (x.v.p.takeLow (x.wbuf.getD j 0)).2 (x.v.p.takeLow (x.wbuf.getD j 0)).1).2)
        h.volsh h.voltgt
      exact ⟨by
        simp only [voiceEmit, Predictor.ease_shift, h8, Bool.false_eq_true, if_false]
        exact Predictor.adapt_shift_le _ _ (by decide), he.1, he.2⟩
    · simp only [voiceEmit, Predictor.ease_high]; rfl
  · simp only [chunkSample4, hh, if_true]
    refine ⟨⟨⟨rfl, rfl, rfl, rfl, rfl, rfl, rfl, rfl⟩, rfl, rfl, fun h => ?_⟩, ?_⟩
    · have he := ease_ranges cfg (p := (dec4Step cfg x.v.table.toNat x.v.p.takeHigh.2 x.v.p.takeHigh.1).2)
        h.volsh h.voltgt
      exact ⟨by
        simp only [voiceEmit, Predictor.ease_shift, h8, Bool.false_eq_true, if_false]
        exact Predictor.adapt_shift_le _ _ (by decide), he.1, he.2⟩
    · simp only [voiceEmit, Predictor.ease_high]; rfl

/-- The bytes a chunk of `c` samples needs take CURSOR to where POS needs it (43_expander.md R104). -/
theorem chunkBytes (q c : Nat) :
    (q + 1) / 2 + (c - (if decide (q % 2 = 1) then 1 else 0) + 1) >>> 1 = (q + c + 1) / 2 := by
  rw [Nat.shiftRight_eq_div_pow]
  rcases Nat.mod_two_eq_zero_or_one q with h | h <;> simp [h] <;> omega

/-- A chunk keeps the voice invariant and produces all its samples. -/
theorem chunk_inv (cfg : Config) (add : Bool) (d produced c : Nat) (x : VoiceRun) (h : VoiceInv cfg x.v)
    (hc : x.v.pos.toNat + c ≤ x.v.total.toNat) :
    let r := if x.v.is8 then chunk8 cfg add d produced c x else chunk4 cfg add d produced c x
    r.1 = c ∧ VoiceInv cfg r.2.v ∧ SameBinding x.v r.2.v ∧ r.2.v.pos.toNat = x.v.pos.toNat + c := by
  have htot := h.total_le
  have hcur := h.cursor_eq
  have hcle := cursorAt_le h (is8 := x.v.is8) rfl hc
  have hsz := h.size_lt
  have ht := h.total
  intro r
  cases h8 : x.v.is8
  · have hnb : x.v.cursor.toNat + (c - (if x.v.p.high then 1 else 0) + 1) >>> 1 = (x.v.pos.toNat + c + 1) / 2 := by
      have := chunkBytes x.v.pos.toNat c
      rw [hcur, h.high, h8]
      simp only [cursorAt, Bool.not_false, Bool.true_and, Bool.false_eq_true, if_false]
      exact this
    have hr : r = chunk4 cfg add d produced c x := by simp only [r, h8, Bool.false_eq_true, if_false]
    simp only [h8, cursorAt, Bool.false_eq_true, if_false] at hcle hcur
    set nb := (c - (if x.v.p.high then 1 else 0) + 1) >>> 1 with hnbd
    have hfetch : (fetch nb x).2.v = { x.v with cursor := BitVec.ofNat 32 (x.v.cursor.toNat + nb) } := by
      have : min nb (x.v.size.toNat - x.v.cursor.toNat) = nb := by omega
      simp only [fetch, this]
    have hinv := forUp_rule (fun i (jy : Nat × VoiceRun) => i ≤ c ∧ SameBinding x.v jy.2.v ∧
        jy.2.v.pos.toNat = x.v.pos.toNat + i ∧ jy.2.v.cursor.toNat = x.v.cursor.toNat + nb ∧
        jy.2.v.p.high = decide ((x.v.pos.toNat + i) % 2 = 1) ∧ VoiceRanges jy.2.v)
      (chunkSample4 cfg add d produced) c 0 (0, (fetch nb x).2)
      ⟨by omega, by rw [hfetch]; exact ⟨rfl, rfl, rfl, rfl, rfl, rfl, rfl, rfl⟩, by simp [hfetch], by
          simp only [hfetch, BitVec.toNat_ofNat]; omega, by
          simp only [hfetch, Nat.add_zero]; rw [h.high, h8]; rfl, by
          rw [hfetch]; exact ⟨h.shift, h.volsh, h.voltgt⟩⟩
      (fun i jy _ hi hj => by
        obtain ⟨-, hb, hp, hcu, hh, hrg⟩ := hj
        have := chunkSample4_emitted cfg add d produced i jy (by rw [hb.is8]; exact h8)
        obtain ⟨e, he⟩ := this
        refine ⟨by omega, hb.trans e.binding, by rw [e.pos, hp, BitVec.toNat_ofNat]; omega, by rw [e.cursor, hcu], ?_,
          e.ranges hrg⟩
        rw [he, hh]
        rcases Nat.mod_two_eq_zero_or_one (x.v.pos.toNat + i) with h2 | h2
        · simp [h2, show (x.v.pos.toNat + (i + 1)) % 2 = 1 by omega]
        · simp [h2, show ¬ (x.v.pos.toNat + (i + 1)) % 2 = 1 by omega])
    simp only [Nat.zero_add] at hinv
    have hr2 : r.2 = (forUp (chunkSample4 cfg add d produced) c 0 (0, (fetch nb x).2)).2 := by rw [hr]; rfl
    have hr1 : r.1 = c := by rw [hr]; rfl
    rw [← hr2] at hinv
    obtain ⟨-, hb, hp, hcu, hh, hrg⟩ := hinv
    refine ⟨hr1, ?_, hb, hp⟩
    exact {
      table := by rw [hb.table]; exact h.table
      pred := by rw [hb.pred]; exact h.pred
      stream := by rw [Voice.stream, hb.base, hb.size]; exact h.stream
      odd := by rw [hb.odd, hb.is8, hb.size]; exact h.odd
      total := by rw [hb.total, hb.is8, hb.odd, hb.size]; exact h.total
      pos := by rw [hb.total, hp]; exact hc
      cursor := by rw [hb.is8, h8, hcu, hp, hnb]; rfl
      high := by rw [hb.is8, h8, hh, hp]; rfl
      shift := hrg.shift
      volsh := hrg.volsh
      voltgt := hrg.voltgt }
  · have hr : r = chunk8 cfg add d produced c x := by simp only [r, h8, if_true]
    simp only [h8, cursorAt, if_true] at hcle hcur
    have htot8 := htot.2.1 h8
    have hmin : min c (x.v.size.toNat - x.v.cursor.toNat) = c := by omega
    have hfetch : (fetch c x).2.v = { x.v with cursor := BitVec.ofNat 32 (x.v.cursor.toNat + c) } := by
      simp only [fetch, hmin]
    have hgot : (fetch c x).1 = c := by simp only [fetch, hmin]
    have hinv := forUp_rule (fun i (y : VoiceRun) => i ≤ c ∧ SameBinding x.v y.v ∧
        y.v.pos.toNat = x.v.pos.toNat + i ∧ y.v.cursor.toNat = x.v.cursor.toNat + c ∧ y.v.p.high = x.v.p.high ∧
        VoiceRanges y.v)
      (chunkSample8 cfg add d produced) c 0 (fetch c x).2
      ⟨by omega, by rw [hfetch]; exact ⟨rfl, rfl, rfl, rfl, rfl, rfl, rfl, rfl⟩, by simp [hfetch], by
          simp only [hfetch, BitVec.toNat_ofNat]; omega, by rw [hfetch], by
          rw [hfetch]; exact ⟨h.shift, h.volsh, h.voltgt⟩⟩
      (fun i y _ hi hj => by
        obtain ⟨-, hb, hp, hcu, hh, hrg⟩ := hj
        obtain ⟨e, he⟩ := chunkSample8_emitted cfg add d produced i y (by rw [hb.is8]; exact h8)
        exact ⟨by omega, hb.trans e.binding, by rw [e.pos, hp, BitVec.toNat_ofNat]; omega, by rw [e.cursor, hcu],
          by rw [he, hh], e.ranges hrg⟩)
    simp only [Nat.zero_add] at hinv
    have hr2 : r.2 = forUp (chunkSample8 cfg add d produced) c 0 (fetch c x).2 := by
      have : (chunk8 cfg add d produced c x).2 = forUp (chunkSample8 cfg add d produced) (fetch c x).1 0 (fetch c x).2 := rfl
      rw [hr, this, hgot]
    have hr1 : r.1 = c := by rw [hr]; exact hgot
    rw [← hr2] at hinv
    obtain ⟨-, hb, hp, hcu, hh, hrg⟩ := hinv
    refine ⟨hr1, ?_, hb, hp⟩
    exact {
      table := by rw [hb.table]; exact h.table
      pred := by rw [hb.pred]; exact h.pred
      stream := by rw [Voice.stream, hb.base, hb.size]; exact h.stream
      odd := by rw [hb.odd, hb.is8, hb.size]; exact h.odd
      total := by rw [hb.total, hb.is8, hb.odd, hb.size]; exact h.total
      pos := by rw [hb.total, hp]; exact hc
      cursor := by rw [hb.is8, h8, hcu, hp, hcur]; rfl
      high := by rw [hb.is8, h8, hh, h.high, h8]; rfl
      shift := hrg.shift
      volsh := hrg.volsh
      voltgt := hrg.voltgt }

/-- The chunk loop keeps the voice invariant and produces what is wanted, when that is left in the stream. -/
theorem chunkLoop_inv (cfg : Config) (add : Bool) (d want fuel produced : Nat) (x : VoiceRun) (h : VoiceInv cfg x.v)
    (hf : want - produced ≤ fuel) (hp : produced ≤ want) (hw : x.v.pos.toNat + (want - produced) ≤ x.v.total.toNat) :
    let r := chunkLoop cfg add d want fuel produced x
    r.1 = want ∧ VoiceInv cfg r.2.v ∧ SameBinding x.v r.2.v ∧ r.2.v.pos.toNat = x.v.pos.toNat + (want - produced) := by
  induction fuel generalizing produced x with
  | zero =>
    have : produced = want := by omega
    exact ⟨this, h, .refl _, by simp [chunkLoop, this]⟩
  | succ fuel ih =>
    unfold chunkLoop
    split
    · rename_i hlt
      have hb := cfg.bufferSize_bounds
      have hmax : 1 ≤ chunkMax cfg x.v.is8 := by unfold chunkMax; split <;> omega
      set c := min (want - produced) (chunkMax cfg x.v.is8) with hc
      have hcle : c ≤ want - produced := by omega
      have hcpos : 1 ≤ c := by omega
      obtain ⟨h1, h2, h3, h4⟩ := chunk_inv cfg add d produced c x h (by omega)
      set r := if x.v.is8 then chunk8 cfg add d produced c x else chunk4 cfg add d produced c x with hr
      obtain ⟨i1, i2, i3, i4⟩ := ih (produced + r.1) r.2 h2 (by omega) (by omega) (by rw [h4, h3.total]; omega)
      dsimp only
      exact ⟨i1, i2, h3.trans i3, by rw [i4, h4, h1]; omega⟩
    · have : produced = want := by omega
      exact ⟨this, h, .refl _, by simp [this]⟩

theorem volSet_inv {cfg : Config} {v : Voice} {vol : Nat} (ove : Bool) (hv : vol ≤ 65535) (h : VoiceInv cfg v) :
    VoiceInv cfg { v with p := v.p.volSet vol ove } :=
  have hr := volSet_ranges (p := v.p) ove hv h.volsh
  { table := h.table, pred := h.pred, stream := h.stream, odd := h.odd, total := h.total, pos := h.pos, cursor := h.cursor
    high := h.high, shift := h.shift, volsh := hr.1, voltgt := hr.2 }

/-- `ExpandCore` keeps the voice invariant and produces the samples asked for, or those left (43_expander.md R103, R104). -/
theorem expandCore_inv (cfg : Config) (d n vol : Nat) (add ove : Bool) (x : VoiceRun) (hv : vol ≤ 65535)
    (h : VoiceInv cfg x.v) :
    let r := expandCore cfg d n vol add ove x
    r.1 = min n (x.v.total.toNat - x.v.pos.toNat) ∧ VoiceInv cfg r.2.v ∧ SameBinding x.v r.2.v ∧
      r.2.v.pos.toNat = x.v.pos.toNat + r.1 := by
  have hpos := h.pos
  obtain ⟨h1, h2, h3, h4⟩ := chunkLoop_inv cfg add d (min n (x.v.total.toNat - x.v.pos.toNat))
    (min n (x.v.total.toNat - x.v.pos.toNat)) 0 { x with v := { x.v with p := x.v.p.volSet vol ove } }
    (volSet_inv ove hv h) (by omega) (by omega) (by simp only []; omega)
  refine ⟨h1, h2, ?_, ?_⟩
  · exact SameBinding.trans (v := { x.v with p := x.v.p.volSet vol ove }) ⟨rfl, rfl, rfl, rfl, rfl, rfl, rfl, rfl⟩ h3
  · have := h4
    simp only [Nat.sub_zero] at this
    rw [show expandCore cfg d n vol add ove x = chunkLoop cfg add d _ _ 0 _ from rfl, this, h1]

end Sys2Proof.Machine
end

