-- ==== Sys2Proof/Laws/Play.lean ====
section
/-! SUPPORT. Without races `ExpandCore` plays the voice's codes in order, whatever the chunk size (43_expander.md R103, R104,
R106). -/

namespace Sys2Proof.Machine

section Play
variable {cfg : Config} {v : Voice} {m : MemPort} {d n : Nat}

theorem Voice.codesLeft_length (m : MemPort) (v : Voice) : (v.codesLeft m).length = v.total.toNat - v.pos.toNat := by
  simp [Voice.codesLeft]

theorem Voice.codesLeft_getElem (m : MemPort) (v : Voice) {i : Nat} (h : i < v.total.toNat - v.pos.toNat) :
    (v.codesLeft m)[i]'(by rw [Voice.codesLeft_length]; exact h) = v.codeAt m (v.pos.toNat + i) := by
  simp [Voice.codesLeft]

theorem cursorAt_add (is8 : Bool) (q c : Nat) : cursorAt is8 q ≤ cursorAt is8 (q + c) := by
  unfold cursorAt
  split <;> omega

/-- HELD of a voice moved on, when a byte was fetched since. -/
theorem heldAfter_odd (h : VoiceInv cfg v) (h8 : v.is8 = false) {q : Nat} (hq : v.pos.toNat < q) (hodd : q % 2 = 1) (P : Predictor) :
    (v.movedTo m P q).p.held = m.peek (v.base.toNat + q / 2) := by
  have hc := h.cursor_eq
  simp only [h8, cursorAt, Bool.false_eq_true, if_false] at hc
  have h1 : ¬ (q + 1) / 2 ≤ v.cursor.toNat := by omega
  simp only [Voice.movedTo, h8, cursorAt, Bool.false_eq_true, if_false, h1, decide_false, Bool.or_false]
  congr 1
  omega

theorem heldAfter_start (h : VoiceInv cfg v) (P : Predictor) : (v.movedTo m P v.pos.toNat).p.held = v.p.held := by
  have hc := h.cursor_eq
  simp [Voice.movedTo, hc]

/-- Moving on past an odd position fetches nothing; past an even one it holds that position's byte. -/
theorem heldAfter_succ (h : VoiceInv cfg v) (h8 : v.is8 = false) {q : Nat} (hq : v.pos.toNat ≤ q) (P P' : Predictor) :
    (v.movedTo m P' (q + 1)).p.held =
      if q % 2 = 1 then (v.movedTo m P q).p.held else m.peek (v.base.toNat + q / 2) := by
  have hc := h.cursor_eq
  simp only [h8, cursorAt, Bool.false_eq_true, if_false] at hc
  simp only [Voice.movedTo, h8, cursorAt, Bool.false_eq_true, if_false, Bool.false_or]
  rcases Nat.mod_two_eq_zero_or_one q with h2 | h2
  · have h1 : ¬ (q + 1 + 1) / 2 ≤ v.cursor.toNat := by omega
    simp only [h1, decide_false, Bool.false_eq_true, if_false, h2, Nat.zero_ne_one]
    congr 1
    omega
  · rw [show (q + 1 + 1) / 2 = (q + 1) / 2 by omega]
    simp only [h2, if_true]

/-- The code a 4-bit voice takes at position q, from its held byte or from the stream. -/
theorem codeTaken (h : VoiceInv cfg v) (h8 : v.is8 = false) {q : Nat} (hq : v.pos.toNat ≤ q) (P : Predictor) :
    v.codeAt m q = .four (if q % 2 = 1 then highNibble (v.movedTo m P q).p.held
      else lowNibble (m.peek (v.base.toNat + q / 2))) := by
  have hh := h.high
  simp only [h8, Bool.not_false, Bool.true_and] at hh
  rcases Nat.mod_two_eq_zero_or_one q with h2 | h2
  · have : (v.p.high && q == v.pos.toNat) = false := by
      rw [hh]
      by_cases he : q = v.pos.toNat
      · subst he; simp [h2]
      · simp [he]
    simp [Voice.codeAt, this, codeAt, h8, h2]
  · by_cases he : q = v.pos.toNat
    · subst he
      simp only [Voice.codeAt, hh, h2, decide_true, BEq.rfl, Bool.and_self, if_true]
      rw [heldAfter_start h]
    · rw [heldAfter_odd h h8 (by omega) h2]
      simp [Voice.codeAt, he, codeAt, h8, h2]

/-- A byte of the stream, while only frames are written. -/
theorem stream_peek {q : MemPort} {outs : List Int} (add : Bool) (hd : (Region.mk d (8 * n)).overlaps v.stream = false)
    (hq : q = emitAll add d 0 outs m) (hn : outs.length ≤ n) {k : Nat} (hk : k < v.size.toNat) :
    q.peek (v.base.toNat + k) = m.peek (v.base.toNat + k) := by
  subst hq
  have := Region.has_of_disjoint hd (a := v.base.toNat + k) (by simp [Region.has, Voice.stream]; omega)
  exact (emitAll_within add d 0 outs m).peek _ (by simp [Region.has] at this ⊢; omega)

end Play

section Chunk
variable {cfg : Config} {v : Voice} {m : MemPort} {d n : Nat} (add : Bool) (p0 : Predictor)

/-- The chunk engine after k samples of voice v: the voice moved on, and k frames written. -/
def Played (cfg : Config) (v : Voice) (m : MemPort) (add : Bool) (d : Nat) (p0 : Predictor) (k : Nat) (x : VoiceRun) : Prop :=
  x.v = v.movedTo m (playAll cfg v.table.toNat p0 ((v.codesLeft m).take k)).2 (v.pos.toNat + k) ∧
    x.port = emitAll add d 0 (playAll cfg v.table.toNat p0 ((v.codesLeft m).take k)).1 m

theorem run_length (k : Nat) (hk : k ≤ v.total.toNat - v.pos.toNat) :
    (playAll cfg v.table.toNat p0 ((v.codesLeft m).take k)).1.length = k := by
  simp only [playAll, runOver_length, List.length_take, Voice.codesLeft_length]
  omega

theorem run_succ {k : Nat} (hk : k < v.total.toNat - v.pos.toNat) :
    playAll cfg v.table.toNat p0 ((v.codesLeft m).take (k + 1)) =
      ((playAll cfg v.table.toNat p0 ((v.codesLeft m).take k)).1 ++
        [(playOne cfg v.table.toNat (playAll cfg v.table.toNat p0 ((v.codesLeft m).take k)).2 (v.codeAt m (v.pos.toNat + k))).1],
       (playOne cfg v.table.toNat (playAll cfg v.table.toNat p0 ((v.codesLeft m).take k)).2 (v.codeAt m (v.pos.toNat + k))).2) := by
  rw [← Voice.codesLeft_getElem m v hk]
  exact runOver_take_succ (playOne cfg v.table.toNat) p0 _ _

theorem port_succ {k : Nat} (hk : k < v.total.toNat - v.pos.toNat) :
    emitFrame add d k
        (playOne cfg v.table.toNat (playAll cfg v.table.toNat p0 ((v.codesLeft m).take k)).2 (v.codeAt m (v.pos.toNat + k))).1
        (emitAll add d 0 (playAll cfg v.table.toNat p0 ((v.codesLeft m).take k)).1 m) =
      emitAll add d 0 (playAll cfg v.table.toNat p0 ((v.codesLeft m).take (k + 1))).1 m := by
  rw [run_succ (cfg := cfg) (m := m) p0 hk]
  dsimp only
  rw [emitAll_append, run_length (cfg := cfg) (m := m) p0 k (by omega), Nat.zero_add]
  rfl

/-- A chunk of a 4-bit voice, without races. -/
theorem chunk4_play (h : VoiceInv cfg v) (h8 : v.is8 = false) (hq : m.races = [])
    (hd : (Region.mk d (8 * n)).overlaps v.stream = false) {k c : Nat} (hn : k + c ≤ n)
    (hc : v.pos.toNat + k + c ≤ v.total.toNat) {x : VoiceRun} (hx : Played cfg v m add d p0 k x) :
    Played cfg v m add d p0 (k + c) (chunk4 cfg add d k c x).2 := by
  obtain ⟨hv, hp⟩ := hx
  have htot := h.total_le
  have hsz := h.size_lt
  have hcle := cursorAt_le h (is8 := v.is8) rfl hc
  have hcur0 := h.cursor_eq
  simp only [h8, cursorAt, Bool.false_eq_true, if_false] at hcle hcur0
  have hxpos : x.v.pos.toNat = v.pos.toNat + k := by rw [hv]; simp only [Voice.movedTo, BitVec.toNat_ofNat]; omega
  have hxcur : x.v.cursor.toNat = (v.pos.toNat + k + 1) / 2 := by
    rw [hv]; simp only [Voice.movedTo, h8, cursorAt, Bool.false_eq_true, if_false, BitVec.toNat_ofNat]; omega
  have hxhigh : x.v.p.high = decide ((v.pos.toNat + k) % 2 = 1) := by rw [hv]; simp [Voice.movedTo, h8]
  have hnb : (v.pos.toNat + k + 1) / 2 + (c - (if x.v.p.high then 1 else 0) + 1) >>> 1 = (v.pos.toNat + k + c + 1) / 2 := by
    rw [hxhigh]; exact chunkBytes _ _
  set nb := (c - (if x.v.p.high then 1 else 0) + 1) >>> 1 with hnbd
  have hxb : x.v.base = v.base ∧ x.v.size = v.size ∧ x.v.table = v.table := by rw [hv]; exact ⟨rfl, rfl, rfl⟩
  have hxq : x.port.races = [] := by rw [hp, (emitAll_within add d 0 _ m).races, hq]
  have hmin : min nb (x.v.size.toNat - x.v.cursor.toNat) = nb := by rw [hxb.2.1]; omega
  have hfetch : fetch nb x = (nb, ⟨{ x.v with cursor := BitVec.ofNat 32 ((v.pos.toNat + k + c + 1) / 2) },
      ((List.range nb).map fun i => x.port.peek (v.base.toNat + (v.pos.toNat + k + 1) / 2 + i)) ++ x.wbuf.drop nb, x.port⟩) := by
    unfold fetch
    rw [hmin]
    simp only [MemPort.readBytes_quiet hxq, hxcur, hnb, hxb.1]
  have hW : ∀ j < nb, (((List.range nb).map fun i => x.port.peek (v.base.toNat + (v.pos.toNat + k + 1) / 2 + i)) ++
      x.wbuf.drop nb).getD j 0 = m.peek (v.base.toNat + ((v.pos.toNat + k + 1) / 2 + j)) := by
    intro j hj
    rw [List.getD_eq_getElem?_getD, List.getElem?_append_left (by simpa using hj)]
    simp only [List.getElem?_map, List.getElem?_range hj, Option.map_some, Option.getD_some]
    rw [Nat.add_assoc]
    exact stream_peek add hd hp (by rw [run_length p0 k (by omega)]; omega) (by omega)
  generalize ((List.range nb).map fun i => x.port.peek (v.base.toNat + (v.pos.toNat + k + 1) / 2 + i)) ++ x.wbuf.drop nb = W
    at hfetch hW
  have hinv := forUp_rule (fun i (jy : Nat × VoiceRun) => i ≤ c ∧ jy.1 = (v.pos.toNat + k + i + 1) / 2 - (v.pos.toNat + k + 1) / 2 ∧
      jy.2.v = { v.movedTo m (playAll cfg v.table.toNat p0 ((v.codesLeft m).take (k + i))).2 (v.pos.toNat + k + i) with
        cursor := BitVec.ofNat 32 ((v.pos.toNat + k + c + 1) / 2) } ∧
      jy.2.wbuf = W ∧
      jy.2.port = emitAll add d 0 (playAll cfg v.table.toNat p0 ((v.codesLeft m).take (k + i))).1 m)
    (chunkSample4 cfg add d k) c 0 (0, (fetch nb x).2)
    ⟨by omega, by simp, by rw [hfetch, hv]; rfl, by rw [hfetch], by rw [hfetch]; exact hp⟩
    (fun i jy _ hi hj => by
      obtain ⟨j, y⟩ := jy
      obtain ⟨-, hj, hy, hw, hport⟩ := hj
      simp only at hj hy hw hport
      have hlt : k + i < v.total.toNat - v.pos.toNat := by omega
      have hrun := run_succ (cfg := cfg) (m := m) p0 hlt
      have hps := port_succ (cfg := cfg) (m := m) (d := d) add p0 hlt
      have hsucc := fun P' => heldAfter_succ (m := m) h h8 (q := v.pos.toNat + k + i) (by omega)
        (playAll cfg v.table.toNat p0 ((v.codesLeft m).take (k + i))).2 P'
      have hcode := codeTaken (m := m) h h8 (q := v.pos.toNat + k + i) (by omega)
        (playAll cfg v.table.toNat p0 ((v.codesLeft m).take (k + i))).2
      rw [← Nat.add_assoc] at hrun hps
      rw [← hport] at hps
      set P := (playAll cfg v.table.toNat p0 ((v.codesLeft m).take (k + i))).2 with hP
      set q := v.pos.toNat + k + i with hqd
      have hyp : y.v.p = { P with high := decide (q % 2 = 1), held := (v.movedTo m P q).p.held } := by
        rw [hy]; simp only [Voice.movedTo, h8, Bool.not_false, Bool.true_and]
      have hyh : y.v.p.high = decide (q % 2 = 1) := by rw [hyp]
      have hypos : y.v.pos.toNat = q := by rw [hy]; simp only [Voice.movedTo, BitVec.toNat_ofNat]; omega
      have hyt : y.v.table = v.table := by rw [hy]; rfl
      have hres : ∀ (pre : Predictor) (j' : Nat) (cc : BitVec 4) (b : Byte),
          pre = { P with high := decide ((q + 1) % 2 = 1), held := b } → v.codeAt m q = .four cc →
          b = (if q % 2 = 1 then (v.movedTo m P q).p.held else m.peek (v.base.toNat + q / 2)) →
          j' = (q + 1 + 1) / 2 - (v.pos.toNat + k + 1) / 2 →
          i + 1 ≤ c ∧ j' = (v.pos.toNat + k + (i + 1) + 1) / 2 - (v.pos.toNat + k + 1) / 2 ∧
          (voiceEmit cfg add d (k + i) (dec4Step cfg y.v.table.toNat pre cc).1 (dec4Step cfg y.v.table.toNat pre cc).2 y).v =
            { v.movedTo m (playAll cfg v.table.toNat p0 ((v.codesLeft m).take (k + (i + 1)))).2 (v.pos.toNat + k + (i + 1)) with
              cursor := BitVec.ofNat 32 ((v.pos.toNat + k + c + 1) / 2) } ∧
          (voiceEmit cfg add d (k + i) (dec4Step cfg y.v.table.toNat pre cc).1 (dec4Step cfg y.v.table.toNat pre cc).2 y).wbuf = W ∧
          (voiceEmit cfg add d (k + i) (dec4Step cfg y.v.table.toNat pre cc).1 (dec4Step cfg y.v.table.toNat pre cc).2 y).port =
            emitAll add d 0 (playAll cfg v.table.toNat p0 ((v.codesLeft m).take (k + (i + 1)))).1 m := by
        intro pre j' cc b hpre hcc hb hj'
        subst hpre
        refine ⟨by omega, by omega, ?_, hw, ?_⟩
        · rw [← Nat.add_assoc k, hrun, hcc]
          have hheld := hsucc (playOne cfg v.table.toNat P (Code.four cc)).2
          rw [← hb] at hheld
          rw [hyt, dec4Step_packing cfg v.table.toNat P]
          simp only [voiceEmit, ease_packing, hypos]
          rw [hy]
          simp only [playOne, decodeOne] at hheld ⊢
          simp only [Voice.movedTo, h8, Bool.not_false, Bool.true_and, show v.pos.toNat + k + (i + 1) = q + 1 by omega] at hheld ⊢
          rw [hheld]
        · rw [← Nat.add_assoc k, ← hps, hcc]
          rw [hyt, dec4Step_packing cfg v.table.toNat P]
          simp only [voiceEmit, ease_packing, playOne, decodeOne]
          rfl
      unfold chunkSample4
      simp only [hyh]
      rcases Nat.mod_two_eq_zero_or_one q with h2 | h2
      · have h2n : ¬ q % 2 = 1 := by omega
        simp only [h2n, decide_false, Bool.false_eq_true, if_false]
        simp only [h2n, if_false] at hcode hres
        have hget : y.wbuf.getD j 0 = m.peek (v.base.toNat + q / 2) := by
          rw [hw, hW j (by omega), hj]
          congr 2
          omega
        refine hres _ _ _ _ ?_ ?_ rfl (by omega)
        · simp only [Predictor.takeLow, hyp, hget, show (q + 1) % 2 = 1 by omega, decide_true]
        · rw [hcode]; simp only [Predictor.takeLow, hget]
      · simp only [h2, decide_true, if_true]
        simp only [h2, if_true] at hcode hres
        refine hres _ _ _ _ ?_ ?_ rfl (by omega)
        · simp only [Predictor.takeHigh, hyp, show ¬ (q + 1) % 2 = 1 by omega, decide_false]
        · rw [hcode]; simp only [Predictor.takeHigh, hyp])
  simp only [Nat.zero_add] at hinv
  have hr2 : (chunk4 cfg add d k c x).2 = (forUp (chunkSample4 cfg add d k) c 0 (0, (fetch nb x).2)).2 := rfl
  rw [← hr2] at hinv
  obtain ⟨-, -, hy, -, hport⟩ := hinv
  refine ⟨?_, hport⟩
  rw [hy, show v.pos.toNat + (k + c) = v.pos.toNat + k + c by omega]
  simp only [Voice.movedTo, h8, cursorAt, Bool.false_eq_true, if_false]

/-- A chunk of an 8-bit voice, without races. -/
theorem chunk8_play (h : VoiceInv cfg v) (h8 : v.is8 = true) (hq : m.races = [])
    (hd : (Region.mk d (8 * n)).overlaps v.stream = false) {k c : Nat} (hn : k + c ≤ n)
    (hc : v.pos.toNat + k + c ≤ v.total.toNat) {x : VoiceRun} (hx : Played cfg v m add d p0 k x) :
    Played cfg v m add d p0 (k + c) (chunk8 cfg add d k c x).2 := by
  obtain ⟨hv, hp⟩ := hx
  have htot := h.total_le
  have hsz := h.size_lt
  have htot8 := htot.2.1 h8
  have hh := h.high
  simp only [h8, Bool.not_true, Bool.false_and] at hh
  have hxcur : x.v.cursor.toNat = v.pos.toNat + k := by
    rw [hv]; simp only [Voice.movedTo, h8, cursorAt, if_true, BitVec.toNat_ofNat]; omega
  have hxb : x.v.base = v.base ∧ x.v.size = v.size ∧ x.v.table = v.table := by rw [hv]; exact ⟨rfl, rfl, rfl⟩
  have hxq : x.port.races = [] := by rw [hp, (emitAll_within add d 0 _ m).races, hq]
  have hmin : min c (x.v.size.toNat - x.v.cursor.toNat) = c := by rw [hxb.2.1]; omega
  have hfetch : fetch c x = (c, ⟨{ x.v with cursor := BitVec.ofNat 32 (v.pos.toNat + k + c) },
      ((List.range c).map fun i => x.port.peek (v.base.toNat + (v.pos.toNat + k) + i)) ++ x.wbuf.drop c, x.port⟩) := by
    unfold fetch
    rw [hmin]
    simp only [MemPort.readBytes_quiet hxq, hxcur, hxb.1]
  have hW : ∀ j < c, (((List.range c).map fun i => x.port.peek (v.base.toNat + (v.pos.toNat + k) + i)) ++
      x.wbuf.drop c).getD j 0 = m.peek (v.base.toNat + (v.pos.toNat + k + j)) := by
    intro j hj
    rw [List.getD_eq_getElem?_getD, List.getElem?_append_left (by simpa using hj)]
    simp only [List.getElem?_map, List.getElem?_range hj, Option.map_some, Option.getD_some]
    rw [Nat.add_assoc]
    exact stream_peek add hd hp (by rw [run_length p0 k (by omega)]; omega) (by omega)
  generalize ((List.range c).map fun i => x.port.peek (v.base.toNat + (v.pos.toNat + k) + i)) ++ x.wbuf.drop c = W
    at hfetch hW
  have hinv := forUp_rule (fun i (y : VoiceRun) => i ≤ c ∧
      y.v = { v.movedTo m (playAll cfg v.table.toNat p0 ((v.codesLeft m).take (k + i))).2 (v.pos.toNat + k + i) with
        cursor := BitVec.ofNat 32 (v.pos.toNat + k + c) } ∧
      y.wbuf = W ∧
      y.port = emitAll add d 0 (playAll cfg v.table.toNat p0 ((v.codesLeft m).take (k + i))).1 m)
    (chunkSample8 cfg add d k) c 0 (fetch c x).2
    ⟨by omega, by rw [hfetch, hv]; rfl, by rw [hfetch], by rw [hfetch]; exact hp⟩
    (fun i y _ hi hj => by
      obtain ⟨-, hy, hw, hport⟩ := hj
      have hlt : k + i < v.total.toNat - v.pos.toNat := by omega
      have hrun := run_succ (cfg := cfg) (m := m) p0 hlt
      have hps := port_succ (cfg := cfg) (m := m) (d := d) add p0 hlt
      rw [← Nat.add_assoc] at hrun hps
      rw [← hport] at hps
      set P := (playAll cfg v.table.toNat p0 ((v.codesLeft m).take (k + i))).2 with hP
      set q := v.pos.toNat + k + i with hqd
      have hcode : v.codeAt m q = .eight (m.peek (v.base.toNat + q)) := by simp [Voice.codeAt, hh, codeAt, h8]
      have hyp : y.v.p = { P with high := false, held := v.p.held } := by
        rw [hy]; simp [Voice.movedTo, h8]
      have hypos : y.v.pos.toNat = q := by rw [hy]; simp only [Voice.movedTo, BitVec.toNat_ofNat]; omega
      have hyt : y.v.table = v.table := by rw [hy]; rfl
      have hget : y.wbuf.getD i 0 = m.peek (v.base.toNat + q) := by rw [hw, hW i (by omega)]
      refine ⟨by omega, ?_, by simp only [chunkSample8, voiceEmit, hw], ?_⟩
      · rw [← Nat.add_assoc k, hrun, hcode]
        simp only [chunkSample8, hget, hyt, hyp]
        rw [dec8Step_packing cfg v.table.toNat P]
        simp only [voiceEmit, ease_packing, hypos]
        rw [hy]
        simp only [playOne, decodeOne, Voice.movedTo, h8, Bool.not_true, Bool.false_and, Bool.true_or, if_true,
          show v.pos.toNat + k + (i + 1) = q + 1 by omega]
      · rw [← Nat.add_assoc k, ← hps, hcode]
        simp only [chunkSample8, hget, hyt, hyp]
        rw [dec8Step_packing cfg v.table.toNat P]
        simp only [voiceEmit, ease_packing, playOne, decodeOne]
        rfl)
  simp only [Nat.zero_add] at hinv
  have hr2 : (chunk8 cfg add d k c x).2 = forUp (chunkSample8 cfg add d k) (fetch c x).1 0 (fetch c x).2 := rfl
  rw [show (fetch c x).1 = c by rw [hfetch]] at hr2
  rw [← hr2] at hinv
  obtain ⟨-, hy, -, hport⟩ := hinv
  refine ⟨?_, hport⟩
  rw [hy, show v.pos.toNat + (k + c) = v.pos.toNat + k + c by omega]
  simp only [Voice.movedTo, h8, cursorAt, if_true]

/-- The chunk loop, without races. -/
theorem chunkLoop_play (h : VoiceInv cfg v) (hq : m.races = []) (hd : (Region.mk d (8 * n)).overlaps v.stream = false)
    {want fuel k : Nat} (hn : want ≤ n) (hc : v.pos.toNat + want ≤ v.total.toNat) (hf : want - k ≤ fuel) (hk : k ≤ want)
    {x : VoiceRun} (hx : Played cfg v m add d p0 k x) :
    (chunkLoop cfg add d want fuel k x).1 = want ∧ Played cfg v m add d p0 want (chunkLoop cfg add d want fuel k x).2 := by
  induction fuel generalizing k x with
  | zero =>
    have : k = want := by omega
    subst this
    exact ⟨rfl, hx⟩
  | succ fuel ih =>
    unfold chunkLoop
    split
    · rename_i hlt
      have hb := cfg.bufferSize_bounds
      have hmax : 1 ≤ chunkMax cfg x.v.is8 := by unfold chunkMax; split <;> omega
      have h8x : x.v.is8 = v.is8 := by rw [hx.1]; rfl
      have htot := h.total_le
      set c := min (want - k) (chunkMax cfg x.v.is8) with hcd
      dsimp only
      cases h8 : v.is8
      · have h8' : x.v.is8 = false := h8x.trans h8
        simp only [h8', Bool.false_eq_true, if_false]
        have := chunk4_play add p0 h h8 hq hd (k := k) (c := c) (by omega) (by omega) hx
        exact ih (by simp only [chunk4]; omega) (by simp only [chunk4]; omega) this
      · have h8' : x.v.is8 = true := h8x.trans h8
        simp only [h8', if_true]
        have := chunk8_play add p0 h h8 hq hd (k := k) (c := c) (by omega) (by omega) hx
        have hxc : x.v.cursor.toNat = v.pos.toNat + k := by
          rw [hx.1]
          simp only [Voice.movedTo, h8, cursorAt, if_true, BitVec.toNat_ofNat]
          omega
        have hxs : x.v.size = v.size := by rw [hx.1]; rfl
        have ht8 := htot.2.1 h8
        have hg : (chunk8 cfg add d k c x).1 = c := by
          simp only [chunk8, fetch, hxc, hxs]
          omega
        rw [hg]
        exact ih (by omega) (by omega) this
    · have : k = want := by omega
      subst this
      exact ⟨rfl, hx⟩

/-- Without races `ExpandCore` plays the voice (43_expander.md R103). -/
theorem expandCore_play (vol : Nat) (ove : Bool) (x : VoiceRun) (h : VoiceInv cfg x.v) (hq : x.port.races = [])
    (hd : (Region.mk d (8 * n)).overlaps x.v.stream = false) :
    (expandCore cfg d n vol add ove x).1 = (x.v.play cfg x.port n vol ove).1.length ∧
      (expandCore cfg d n vol add ove x).2.v = (x.v.play cfg x.port n vol ove).2 ∧
      (expandCore cfg d n vol add ove x).2.port = emitAll add d 0 (x.v.play cfg x.port n vol ove).1 x.port := by
  have hpos := h.pos
  have hcur := h.cursor_eq
  have hstart : Played cfg x.v x.port add d (x.v.p.volSet vol ove) 0
      { x with v := { x.v with p := x.v.p.volSet vol ove } } := by
    refine ⟨?_, rfl⟩
    have hhigh := h.high
    simp only [List.take_zero, playAll, runOver, Nat.add_zero, Voice.movedTo, ← hcur, BitVec.ofNat_toNat,
      Nat.le_refl, decide_true, Bool.or_true, if_true, ← hhigh]
    simp only [BitVec.setWidth_eq]
    rfl
  have hl := chunkLoop_play add (x.v.p.volSet vol ove) h hq hd (want := min n (x.v.total.toNat - x.v.pos.toNat))
    (fuel := min n (x.v.total.toNat - x.v.pos.toNat)) (k := 0) (by omega) (by omega) (by omega) (by omega) hstart
  have htake : (x.v.codesLeft x.port).take (min n (x.v.total.toNat - x.v.pos.toNat)) = (x.v.codesLeft x.port).take n := by
    rw [← Voice.codesLeft_length x.port, List.take_eq_take_iff]
    omega
  have hlen : ((x.v.codesLeft x.port).take n).length = min n (x.v.total.toNat - x.v.pos.toNat) := by
    rw [List.length_take, Voice.codesLeft_length]
  have he : expandCore cfg d n vol add ove x = chunkLoop cfg add d (min n (x.v.total.toNat - x.v.pos.toNat))
    (min n (x.v.total.toNat - x.v.pos.toNat)) 0 { x with v := { x.v with p := x.v.p.volSet vol ove } } := rfl
  rw [he]
  obtain ⟨h1, h2, h3⟩ := hl
  rw [htake] at h2 h3
  refine ⟨?_, ?_, h3⟩
  · rw [h1]
    simp only [Voice.play, playAll, runOver_length, hlen]
  · rw [h2]
    simp only [Voice.play, hlen]

end Chunk

end Sys2Proof.Machine
end

