-- ==== Sys2Proof/Laws/State.lean ====
section
/-! SUPPORT. One lemma per field of State per update of it, so that no proof unfolds a record update. -/

namespace Sys2Proof.Machine

variable (s : State)

/-! ### setVoice -/

@[simp] theorem State.setVoice_cfg (v : Nat) (x : Voice) : (s.setVoice v x).cfg = s.cfg := rfl
@[simp] theorem State.setVoice_ie (v : Nat) (x : Voice) : (s.setVoice v x).ie = s.ie := rfl
@[simp] theorem State.setVoice_phase (v : Nat) (x : Voice) : (s.setVoice v x).phase = s.phase := rfl
@[simp] theorem State.setVoice_done (v : Nat) (x : Voice) : (s.setVoice v x).done = s.done := rfl
@[simp] theorem State.setVoice_err (v : Nat) (x : Voice) : (s.setVoice v x).err = s.err := rfl
@[simp] theorem State.setVoice_ovr (v : Nat) (x : Voice) : (s.setVoice v x).ovr = s.ovr := rfl
@[simp] theorem State.setVoice_ecode (v : Nat) (x : Voice) : (s.setVoice v x).ecode = s.ecode := rfl
@[simp] theorem State.setVoice_cmd (v : Nat) (x : Voice) : (s.setVoice v x).cmd = s.cmd := rfl
@[simp] theorem State.setVoice_args (v : Nat) (x : Voice) : (s.setVoice v x).args = s.args := rfl
@[simp] theorem State.setVoice_snapshot (v : Nat) (x : Voice) : (s.setVoice v x).snapshot = s.snapshot := rfl
@[simp] theorem State.setVoice_res (v : Nat) (x : Voice) : (s.setVoice v x).res = s.res := rfl
@[simp] theorem State.setVoice_voices (v : Nat) (x : Voice) : (s.setVoice v x).voices = s.voices.setIfInBounds v x := rfl
@[simp] theorem State.setVoice_wbuf (v : Nat) (x : Voice) : (s.setVoice v x).wbuf = s.wbuf := rfl
@[simp] theorem State.setVoice_mem (v : Nat) (x : Voice) : (s.setVoice v x).mem = s.mem := rfl
@[simp] theorem State.setVoice_script (v : Nat) (x : Voice) : (s.setVoice v x).script = s.script := rfl
@[simp] theorem State.setVoice_outbox (v : Nat) (x : Voice) : (s.setVoice v x).outbox = s.outbox := rfl

/-! ### setRes -/

@[simp] theorem State.setRes_cfg (k : Fin 4) (w : Word) : (s.setRes k w).cfg = s.cfg := rfl
@[simp] theorem State.setRes_ie (k : Fin 4) (w : Word) : (s.setRes k w).ie = s.ie := rfl
@[simp] theorem State.setRes_phase (k : Fin 4) (w : Word) : (s.setRes k w).phase = s.phase := rfl
@[simp] theorem State.setRes_done (k : Fin 4) (w : Word) : (s.setRes k w).done = s.done := rfl
@[simp] theorem State.setRes_err (k : Fin 4) (w : Word) : (s.setRes k w).err = s.err := rfl
@[simp] theorem State.setRes_ovr (k : Fin 4) (w : Word) : (s.setRes k w).ovr = s.ovr := rfl
@[simp] theorem State.setRes_ecode (k : Fin 4) (w : Word) : (s.setRes k w).ecode = s.ecode := rfl
@[simp] theorem State.setRes_cmd (k : Fin 4) (w : Word) : (s.setRes k w).cmd = s.cmd := rfl
@[simp] theorem State.setRes_args (k : Fin 4) (w : Word) : (s.setRes k w).args = s.args := rfl
@[simp] theorem State.setRes_snapshot (k : Fin 4) (w : Word) : (s.setRes k w).snapshot = s.snapshot := rfl
@[simp] theorem State.setRes_res (k : Fin 4) (w : Word) : (s.setRes k w).res = s.res.set k w := rfl
@[simp] theorem State.setRes_voices (k : Fin 4) (w : Word) : (s.setRes k w).voices = s.voices := rfl
@[simp] theorem State.setRes_wbuf (k : Fin 4) (w : Word) : (s.setRes k w).wbuf = s.wbuf := rfl
@[simp] theorem State.setRes_mem (k : Fin 4) (w : Word) : (s.setRes k w).mem = s.mem := rfl
@[simp] theorem State.setRes_script (k : Fin 4) (w : Word) : (s.setRes k w).script = s.script := rfl
@[simp] theorem State.setRes_outbox (k : Fin 4) (w : Word) : (s.setRes k w).outbox = s.outbox := rfl

/-! ### complete -/

@[simp] theorem State.complete_cfg : (s.complete).cfg = s.cfg := rfl
@[simp] theorem State.complete_ie : (s.complete).ie = s.ie := rfl
@[simp] theorem State.complete_phase : (s.complete).phase = .idle := rfl
@[simp] theorem State.complete_done : (s.complete).done = true := rfl
@[simp] theorem State.complete_err : (s.complete).err = s.err := rfl
@[simp] theorem State.complete_ovr : (s.complete).ovr = s.ovr := rfl
@[simp] theorem State.complete_ecode : (s.complete).ecode = s.ecode := rfl
@[simp] theorem State.complete_cmd : (s.complete).cmd = s.cmd := rfl
@[simp] theorem State.complete_args : (s.complete).args = s.args := rfl
@[simp] theorem State.complete_snapshot : (s.complete).snapshot = s.snapshot := rfl
@[simp] theorem State.complete_res : (s.complete).res = s.res := rfl
@[simp] theorem State.complete_voices : (s.complete).voices = s.voices := rfl
@[simp] theorem State.complete_wbuf : (s.complete).wbuf = s.wbuf := rfl
@[simp] theorem State.complete_mem : (s.complete).mem = { s.mem with races := [] } := rfl
@[simp] theorem State.complete_script : (s.complete).script = s.script := rfl
@[simp] theorem State.complete_outbox : (s.complete).outbox = s.outbox := rfl

/-! ### raiseError -/

@[simp] theorem State.raiseError_cfg (c : ErrCode) : (s.raiseError c).cfg = s.cfg := rfl
@[simp] theorem State.raiseError_ie (c : ErrCode) : (s.raiseError c).ie = s.ie := rfl
@[simp] theorem State.raiseError_phase (c : ErrCode) : (s.raiseError c).phase = .idle := rfl
@[simp] theorem State.raiseError_done (c : ErrCode) : (s.raiseError c).done = true := rfl
@[simp] theorem State.raiseError_err (c : ErrCode) : (s.raiseError c).err = true := rfl
@[simp] theorem State.raiseError_ovr (c : ErrCode) : (s.raiseError c).ovr = s.ovr := rfl
@[simp] theorem State.raiseError_ecode (c : ErrCode) : (s.raiseError c).ecode = c := rfl
@[simp] theorem State.raiseError_cmd (c : ErrCode) : (s.raiseError c).cmd = s.cmd := rfl
@[simp] theorem State.raiseError_args (c : ErrCode) : (s.raiseError c).args = s.args := rfl
@[simp] theorem State.raiseError_snapshot (c : ErrCode) : (s.raiseError c).snapshot = s.snapshot := rfl
@[simp] theorem State.raiseError_res (c : ErrCode) : (s.raiseError c).res = s.res := rfl
@[simp] theorem State.raiseError_voices (c : ErrCode) : (s.raiseError c).voices = s.voices := rfl
@[simp] theorem State.raiseError_wbuf (c : ErrCode) : (s.raiseError c).wbuf = s.wbuf := rfl
@[simp] theorem State.raiseError_mem (c : ErrCode) : (s.raiseError c).mem = { s.mem with races := [] } := rfl
@[simp] theorem State.raiseError_script (c : ErrCode) : (s.raiseError c).script = s.script := rfl
@[simp] theorem State.raiseError_outbox (c : ErrCode) : (s.raiseError c).outbox = s.outbox := rfl

/-! ### accept -/

@[simp] theorem State.accept_cfg (w : Word) : (s.accept w).cfg = s.cfg := rfl
@[simp] theorem State.accept_ie (w : Word) : (s.accept w).ie = s.ie := rfl
@[simp] theorem State.accept_phase (w : Word) : (s.accept w).phase = .busy := rfl
@[simp] theorem State.accept_done (w : Word) : (s.accept w).done = false := rfl
@[simp] theorem State.accept_err (w : Word) : (s.accept w).err = false := rfl
@[simp] theorem State.accept_ovr (w : Word) : (s.accept w).ovr = s.ovr := rfl
@[simp] theorem State.accept_ecode (w : Word) : (s.accept w).ecode = .none := rfl
@[simp] theorem State.accept_cmd (w : Word) : (s.accept w).cmd = w := rfl
@[simp] theorem State.accept_args (w : Word) : (s.accept w).args = s.args := rfl
@[simp] theorem State.accept_snapshot (w : Word) : (s.accept w).snapshot = s.args := rfl
@[simp] theorem State.accept_res (w : Word) : (s.accept w).res = s.res := rfl
@[simp] theorem State.accept_voices (w : Word) : (s.accept w).voices = s.voices := rfl
@[simp] theorem State.accept_wbuf (w : Word) : (s.accept w).wbuf = s.wbuf := rfl
@[simp] theorem State.accept_mem (w : Word) : (s.accept w).mem = { s.mem with races := [] } := rfl
@[simp] theorem State.accept_script (w : Word) : (s.accept w).script = s.script := rfl
@[simp] theorem State.accept_outbox (w : Word) : (s.accept w).outbox = s.outbox := rfl

/-! ### resetBlock -/

@[simp] theorem State.resetBlock_cfg : (s.resetBlock).cfg = s.cfg := rfl
@[simp] theorem State.resetBlock_ie : (s.resetBlock).ie = false := rfl
@[simp] theorem State.resetBlock_phase : (s.resetBlock).phase = .idle := rfl
@[simp] theorem State.resetBlock_done : (s.resetBlock).done = false := rfl
@[simp] theorem State.resetBlock_err : (s.resetBlock).err = false := rfl
@[simp] theorem State.resetBlock_ovr : (s.resetBlock).ovr = false := rfl
@[simp] theorem State.resetBlock_ecode : (s.resetBlock).ecode = .none := rfl
@[simp] theorem State.resetBlock_cmd : (s.resetBlock).cmd = 0 := rfl
@[simp] theorem State.resetBlock_args : (s.resetBlock).args = .reset := rfl
@[simp] theorem State.resetBlock_snapshot : (s.resetBlock).snapshot = .reset := rfl
@[simp] theorem State.resetBlock_res : (s.resetBlock).res = Vector.replicate 4 0 := rfl
@[simp] theorem State.resetBlock_voices : (s.resetBlock).voices = Vector.replicate 8 .reset := rfl
@[simp] theorem State.resetBlock_wbuf : (s.resetBlock).wbuf = List.replicate s.cfg.raw.bufferSize 0 := rfl
@[simp] theorem State.resetBlock_mem : (s.resetBlock).mem = { s.mem with races := [] } := rfl
@[simp] theorem State.resetBlock_script : (s.resetBlock).script = s.script := rfl
@[simp] theorem State.resetBlock_outbox : (s.resetBlock).outbox = s.outbox := rfl

/-! ### writeStatus -/

@[simp] theorem State.writeStatus_cfg (w : Word) : (s.writeStatus w).cfg = s.cfg := rfl
@[simp] theorem State.writeStatus_ie (w : Word) : (s.writeStatus w).ie = s.ie := rfl
@[simp] theorem State.writeStatus_phase (w : Word) : (s.writeStatus w).phase = s.phase := rfl
@[simp] theorem State.writeStatus_done (w : Word) : (s.writeStatus w).done = (s.done && !w.getLsbD 1) := rfl
@[simp] theorem State.writeStatus_err (w : Word) : (s.writeStatus w).err = (s.err && !w.getLsbD 2) := rfl
@[simp] theorem State.writeStatus_ovr (w : Word) : (s.writeStatus w).ovr = (s.ovr && !w.getLsbD 3) := rfl
@[simp] theorem State.writeStatus_ecode (w : Word) : (s.writeStatus w).ecode = (if w.getLsbD 2 then .none else s.ecode) := rfl
@[simp] theorem State.writeStatus_cmd (w : Word) : (s.writeStatus w).cmd = s.cmd := rfl
@[simp] theorem State.writeStatus_args (w : Word) : (s.writeStatus w).args = s.args := rfl
@[simp] theorem State.writeStatus_snapshot (w : Word) : (s.writeStatus w).snapshot = s.snapshot := rfl
@[simp] theorem State.writeStatus_res (w : Word) : (s.writeStatus w).res = s.res := rfl
@[simp] theorem State.writeStatus_voices (w : Word) : (s.writeStatus w).voices = s.voices := rfl
@[simp] theorem State.writeStatus_wbuf (w : Word) : (s.writeStatus w).wbuf = s.wbuf := rfl
@[simp] theorem State.writeStatus_mem (w : Word) : (s.writeStatus w).mem = s.mem := rfl
@[simp] theorem State.writeStatus_script (w : Word) : (s.writeStatus w).script = s.script := rfl
@[simp] theorem State.writeStatus_outbox (w : Word) : (s.writeStatus w).outbox = s.outbox := rfl

/-! ### writeIE -/

@[simp] theorem State.writeIE_cfg (w : Word) : (s.writeIE w).cfg = s.cfg := rfl
@[simp] theorem State.writeIE_ie (w : Word) : (s.writeIE w).ie = w.getLsbD 0 := rfl
@[simp] theorem State.writeIE_phase (w : Word) : (s.writeIE w).phase = s.phase := rfl
@[simp] theorem State.writeIE_done (w : Word) : (s.writeIE w).done = s.done := rfl
@[simp] theorem State.writeIE_err (w : Word) : (s.writeIE w).err = s.err := rfl
@[simp] theorem State.writeIE_ovr (w : Word) : (s.writeIE w).ovr = s.ovr := rfl
@[simp] theorem State.writeIE_ecode (w : Word) : (s.writeIE w).ecode = s.ecode := rfl
@[simp] theorem State.writeIE_cmd (w : Word) : (s.writeIE w).cmd = s.cmd := rfl
@[simp] theorem State.writeIE_args (w : Word) : (s.writeIE w).args = s.args := rfl
@[simp] theorem State.writeIE_snapshot (w : Word) : (s.writeIE w).snapshot = s.snapshot := rfl
@[simp] theorem State.writeIE_res (w : Word) : (s.writeIE w).res = s.res := rfl
@[simp] theorem State.writeIE_voices (w : Word) : (s.writeIE w).voices = s.voices := rfl
@[simp] theorem State.writeIE_wbuf (w : Word) : (s.writeIE w).wbuf = s.wbuf := rfl
@[simp] theorem State.writeIE_mem (w : Word) : (s.writeIE w).mem = s.mem := rfl
@[simp] theorem State.writeIE_script (w : Word) : (s.writeIE w).script = s.script := rfl
@[simp] theorem State.writeIE_outbox (w : Word) : (s.writeIE w).outbox = s.outbox := rfl

/-! ### abandon -/

@[simp] theorem State.abandon_cfg : (s.abandon).cfg = s.cfg := rfl
@[simp] theorem State.abandon_ie : (s.abandon).ie = s.ie := rfl
@[simp] theorem State.abandon_phase : (s.abandon).phase = s.phase := rfl
@[simp] theorem State.abandon_done : (s.abandon).done = s.done := rfl
@[simp] theorem State.abandon_err : (s.abandon).err = s.err := rfl
@[simp] theorem State.abandon_ovr : (s.abandon).ovr = s.ovr := rfl
@[simp] theorem State.abandon_ecode : (s.abandon).ecode = s.ecode := rfl
@[simp] theorem State.abandon_cmd : (s.abandon).cmd = s.cmd := rfl
@[simp] theorem State.abandon_args : (s.abandon).args = s.args := rfl
@[simp] theorem State.abandon_snapshot : (s.abandon).snapshot = s.snapshot := rfl
@[simp] theorem State.abandon_res : (s.abandon).res = s.res := rfl
@[simp] theorem State.abandon_voices : (s.abandon).voices = s.voices := rfl
@[simp] theorem State.abandon_wbuf : (s.abandon).wbuf = s.wbuf := rfl
@[simp] theorem State.abandon_mem : (s.abandon).mem = s.writtenNow.foldl (fun p r => p.scramble r.base r.len) s.mem := rfl
@[simp] theorem State.abandon_script : (s.abandon).script = s.script := rfl
@[simp] theorem State.abandon_outbox : (s.abandon).outbox = s.outbox := rfl

end Sys2Proof.Machine
end

