-- ==== Sys2Proof/Laws/Fill.lean ====
section
/-! SUPPORT. FILL: the voices keep their invariant whatever is read, and without races the frames hold the mix of the voices
played in increasing order (43_expander.md R109). -/

namespace Sys2Proof.Machine

/-! ### Voices of the state -/

theorem State.voice_setVoice_same (s : State) {v : Nat} (x : Voice) (h : v < 8) : (s.setVoice v x).voice v = x := by
  simp [State.voice, State.setVoice, List.getD_eq_getElem?_getD, h]

theorem State.voice_setVoice_other (s : State) {v w : Nat} (x : Voice) (h : w ≠ v) :
    (s.setVoice v x).voice w = s.voice w := by
  simp [State.voice, State.setVoice, List.getD_eq_getElem?_getD, List.getElem?_set_ne (Ne.symm h)]

theorem State.voice_congr {s t : State} (h : t.voices = s.voices) (v : Nat) : t.voice v = s.voice v := by
  simp [State.voice, h]

/-- The voices of a state are its voices 0 to 7. -/
theorem voices_ext {s t : State} (h : ∀ v < 8, t.voice v = s.voice v) : t.voices = s.voices := by
  apply Vector.ext
  intro i hi
  have := h i hi
  simpa [State.voice, List.getD_eq_getElem?_getD, hi] using this

/-! ### The invariant -/

theorem rewound_inv {cfg : Config} {v : Voice} (h : VoiceInv cfg v) : VoiceInv cfg (v.rewound cfg) := by
  have hs := (cfg.seed_bounds v.pred.toNat).2.2.2.2
  exact {
    table := h.table, pred := h.pred, stream := h.stream, odd := h.odd, total := h.total
    pos := by simp [Voice.rewound]
    cursor := by simp [Voice.rewound]
    high := by simp [Voice.rewound, seeded]
    shift := by
      refine le_trans (b := 8) (by simp only [Voice.rewound, seeded, BitVec.toNat_ofNat]; omega) ?_
      split <;> decide
    volsh := h.volsh
    voltgt := h.voltgt }

theorem rewound_binding (cfg : Config) (v : Voice) : SameBinding v (v.rewound cfg) := ⟨rfl, rfl, rfl, rfl, rfl, rfl, rfl, rfl⟩

theorem refill_inv (cfg : Config) (d n vol : Nat) (ove loop : Bool) (hv : vol ≤ 65535) (fuel got : Nat) (rw : Bool)
    (x : VoiceRun) (h : VoiceInv cfg x.v) : VoiceInv cfg (refill cfg d n vol ove loop fuel got rw x).2.v := by
  induction fuel generalizing got rw x with
  | zero => exact h
  | succ fuel ih =>
    unfold refill
    split
    · split
      · have := expandCore_inv cfg (d + 8 * got) (n - got) vol true ove { x with v := x.v.rewound cfg } hv (rewound_inv h)
        dsimp only
        split
        · exact this.2.1
        · exact ih _ _ _ this.2.1
      · exact h
    · exact h

theorem fillVoice_inv (cfg : Config) (d n vol : Nat) (ove loop : Bool) (hv : vol ≤ 65535) (x : VoiceRun)
    (h : VoiceInv cfg x.v) : VoiceInv cfg (fillVoice cfg d n vol ove loop x).2.v :=
  refill_inv cfg d n vol ove loop hv n _ _ _ (expandCore_inv cfg d n vol true ove x hv h).2.1

/-! ### One voice, without races -/

section Voice
variable {cfg : Config} {v : Voice} {m q : MemPort}

/-- What a voice plays depends on its stream only. -/
theorem play_congr (h : VoiceInv cfg v) (n vol : Nat) (ove : Bool)
    (hs : ∀ k < v.size.toNat, q.peek (v.base.toNat + k) = m.peek (v.base.toNat + k)) :
    v.play cfg q n vol ove = v.play cfg m n vol ove := by
  have htot := h.total_le
  have hcodes : v.codesLeft q = v.codesLeft m := by
    unfold Voice.codesLeft
    apply List.map_congr_left
    intro i hi
    have hi' : i < v.total.toNat - v.pos.toNat := by simpa using hi
    unfold Voice.codeAt
    split
    · rfl
    · unfold codeAt
      split
      · rename_i h8
        have := htot.2.1 h8
        rw [hs _ (by omega)]
      · rename_i h8
        have := htot.2.2 (by simpa using h8)
        rw [hs _ (by omega)]
  have hmoved : ∀ (P : Predictor) (pos : Nat), pos ≤ v.total.toNat → v.movedTo q P pos = v.movedTo m P pos := by
    intro P pos hp
    have hc := cursorAt_le h (is8 := v.is8) rfl hp
    unfold Voice.movedTo
    dsimp only
    congr 2
    split
    · rfl
    · rename_i hh
      simp only [Bool.or_eq_true, decide_eq_true_eq, not_or, not_le] at hh
      have := hs (cursorAt v.is8 pos - 1) (by omega)
      rw [show v.base.toNat + cursorAt v.is8 pos - 1 = v.base.toNat + (cursorAt v.is8 pos - 1) by omega, this]
  have hpos := h.pos
  unfold Voice.play
  rw [hcodes]
  dsimp only
  rw [hmoved _ _ (by rw [List.length_take, Voice.codesLeft_length]; omega)]

theorem play_bounds (n vol : Nat) (ove : Bool) : ∀ o ∈ (v.play cfg m n vol ove).1, -2147483648 ≤ o ∧ o ≤ 2147483647 :=
  playAll_bounds _ _ _ _

theorem play_length (n vol : Nat) (ove : Bool) :
    (v.play cfg m n vol ove).1.length = min n (v.total.toNat - v.pos.toNat) := by
  simp [Voice.play, playAll, Voice.codesLeft_length]

/-- A voice played keeps its invariant. -/
theorem play_inv (h : VoiceInv cfg v) {n vol : Nat} {ove : Bool} (hv : vol ≤ 65535) (hm : m.races = []) :
    VoiceInv cfg (v.play cfg m n vol ove).2 := by
  have hd : (Region.mk (v.base.toNat + v.size.toNat) (8 * n)).overlaps v.stream = false := by
    simp [Region.overlaps, Voice.stream]
  have h1 := expandCore_play true vol ove ⟨v, [], m⟩ h hm hd
  have h2 := (expandCore_inv cfg (v.base.toNat + v.size.toNat) n vol true ove ⟨v, [], m⟩ hv h).2.1
  rwa [h1.2.1] at h2

theorem emitAll_shift (add : Bool) (d k : Nat) (os : List Int) (p : MemPort) :
    emitAll add (d + 8 * k) 0 os p = emitAll add d k os p := by
  have : ∀ j, emitAll add (d + 8 * k) j os p = emitAll add d (k + j) os p := by
    induction os generalizing p with
    | nil => intro j; rfl
    | cons o os ih =>
      intro j
      simp only [emitAll, ih]
      rw [show k + (j + 1) = k + j + 1 by omega]
      congr 1
      unfold emitFrame
      rw [show d + 8 * k + 8 * j = d + 8 * (k + j) by omega]
  simpa using this 0

/-- The refills of one voice, without races. -/
theorem refill_play {d n vol : Nat} (ove loop : Bool) (hv : vol ≤ 65535) (hq : m.races = [])
    (fuel : Nat) (outs : List Int) (rw : Bool) (x : VoiceRun) (h : VoiceInv cfg x.v)
    (hd : (Region.mk d (8 * n)).overlaps x.v.stream = false) (hl : outs.length ≤ n) (hp : x.port = emitAll true d 0 outs m)
    (hb : ∀ o ∈ outs, -2147483648 ≤ o ∧ o ≤ 2147483647) :
    let r := x.v.playOn cfg m n vol ove loop fuel outs rw
    (refill cfg d n vol ove loop fuel outs.length rw x).1 = r.1 ∧
      (refill cfg d n vol ove loop fuel outs.length rw x).2.v = r.2.2 ∧
      (refill cfg d n vol ove loop fuel outs.length rw x).2.port = emitAll true d 0 r.2.1 m ∧
      r.2.1.length ≤ n ∧ ∀ o ∈ r.2.1, -2147483648 ≤ o ∧ o ≤ 2147483647 := by
  induction fuel generalizing outs rw x with
  | zero => exact ⟨rfl, rfl, hp, hl, hb⟩
  | succ fuel ih =>
    unfold refill Voice.playOn
    by_cases hlt : outs.length < n
    · cases loop
      · simp only [hlt, if_true, Bool.false_eq_true, if_false]
        exact ⟨trivial, trivial, hp, hl, hb⟩
      · simp only [hlt, if_true]
        have hri := rewound_inv h
        have hxq : x.port.races = [] := by rw [hp, (emitAll_within _ _ _ _ _).races, hq]
        have hd' : (Region.mk (d + 8 * outs.length) (8 * (n - outs.length))).overlaps (x.v.rewound cfg).stream = false := by
          rw [Region.overlaps_eq_false] at hd ⊢
          simp only [Voice.rewound, Voice.stream] at hd ⊢
          omega
        have hplay := expandCore_play true (n := n - outs.length) vol ove { x with v := x.v.rewound cfg } hri hxq hd'
        have hcong : (x.v.rewound cfg).play cfg x.port (n - outs.length) vol ove =
            (x.v.rewound cfg).play cfg m (n - outs.length) vol ove :=
          play_congr hri _ _ _ fun k hk => stream_peek (v := x.v) true hd hp hl hk
        have hlen := play_length (cfg := cfg) (v := x.v.rewound cfg) (m := m) (n - outs.length) vol ove
        have hbnd := play_bounds (cfg := cfg) (v := x.v.rewound cfg) (m := m) (n - outs.length) vol ove
        have hinv := (expandCore_inv cfg (d + 8 * outs.length) (n - outs.length) vol true ove
          { x with v := x.v.rewound cfg } hv hri).2.1
        have hsb := (expandCore_inv cfg (d + 8 * outs.length) (n - outs.length) vol true ove
          { x with v := x.v.rewound cfg } hv hri).2.2.1
        simp only [hcong] at hplay
        obtain ⟨h1, h2, h3⟩ := hplay
        generalize expandCore cfg (d + 8 * outs.length) (n - outs.length) vol true ove { x with v := x.v.rewound cfg } = e
          at h1 h2 h3 hinv hsb
        obtain ⟨g, y⟩ := e
        simp only at h1 h2 h3 hinv hsb
        generalize (x.v.rewound cfg).play cfg m (n - outs.length) vol ove = r at h1 h2 h3 hlen hbnd
        obtain ⟨more, w⟩ := r
        simp only at h1 h2 h3 hlen hbnd
        subst h2
        rw [emitAll_shift, hp] at h3
        have h3' : y.port = emitAll true d 0 (outs ++ more) m := by rw [h3, emitAll_append, Nat.zero_add]
        by_cases hm : more = []
        · subst hm
          simp only [h1, List.length_nil, if_true, if_true]
          exact ⟨trivial, trivial, by simpa using h3', hl, hb⟩
        · have hg : ¬ g = 0 := by rw [h1]; simpa using hm
          simp only [hg, if_false, hm]
          have := ih (outs ++ more) true y hinv (by
              simp only [Region.overlaps, Voice.stream, hsb.base, hsb.size] at hd ⊢
              exact hd) (by rw [List.length_append]; omega) h3' (by
              intro o ho
              rcases List.mem_append.1 ho with ho | ho
              · exact hb o ho
              · exact hbnd o ho)
          rw [List.length_append] at this
          rw [h1]
          exact this
    · simp only [hlt, if_false]
      exact ⟨trivial, trivial, hp, hl, hb⟩

/-- One voice of FILL, without races. -/
theorem fillVoice_play {d n vol : Nat} (ove loop : Bool) (hv : vol ≤ 65535) (x : VoiceRun) (h : VoiceInv cfg x.v)
    (hq : x.port.races = []) (hd : (Region.mk d (8 * n)).overlaps x.v.stream = false) :
    let r := x.v.playFill cfg x.port n vol ove loop
    (fillVoice cfg d n vol ove loop x).1 = r.1 ∧ (fillVoice cfg d n vol ove loop x).2.v = r.2.2 ∧
      (fillVoice cfg d n vol ove loop x).2.port = emitAll true d 0 r.2.1 x.port ∧ r.2.1.length ≤ n ∧
      ∀ o ∈ r.2.1, -2147483648 ≤ o ∧ o ≤ 2147483647 := by
  have hplay := expandCore_play true (n := n) vol ove x h hq hd
  have hinv := (expandCore_inv cfg d n vol true ove x hv h).2.1
  have hsb := (expandCore_inv cfg d n vol true ove x hv h).2.2.1
  have hlen := play_length (cfg := cfg) (v := x.v) (m := x.port) n vol ove
  have hbnd := play_bounds (cfg := cfg) (v := x.v) (m := x.port) n vol ove
  unfold fillVoice Voice.playFill
  generalize expandCore cfg d n vol true ove x = e at hplay hinv hsb
  obtain ⟨g, y⟩ := e
  generalize x.v.play cfg x.port n vol ove = r at hplay hlen hbnd
  obtain ⟨outs, w⟩ := r
  obtain ⟨h1, h2, h3⟩ := hplay
  simp only at h1 h2 h3 hinv hsb hlen hbnd ⊢
  subst h1 h2
  exact refill_play ove loop hv hq n outs false y hinv (by
    simp only [Region.overlaps, Voice.stream, hsb.base, hsb.size] at hd ⊢
    exact hd) (by omega) h3 hbnd

theorem playFill_congr (h : VoiceInv cfg v) (n vol : Nat) (ove loop : Bool) (hv : vol ≤ 65535)
    (hs : ∀ k < v.size.toNat, q.peek (v.base.toNat + k) = m.peek (v.base.toNat + k)) (hm : m.races = []) :
    v.playFill cfg q n vol ove loop = v.playFill cfg m n vol ove loop := by
  have hon : ∀ (fuel : Nat) (outs : List Int) (rw : Bool) (w : Voice), VoiceInv cfg w → w.base = v.base → w.size = v.size →
      w.playOn cfg q n vol ove loop fuel outs rw = w.playOn cfg m n vol ove loop fuel outs rw := by
    intro fuel
    induction fuel with
    | zero => intros; rfl
    | succ fuel ih =>
      intro outs rw w hw hbase hsize
      unfold Voice.playOn
      have hc := play_congr (q := q) (m := m) (rewound_inv hw) (n - outs.length) vol ove
        (by intro k hk; simp only [Voice.rewound, hbase, hsize] at hk ⊢; exact hs k hk)
      rw [hc]
      split
      · split
        · dsimp only
          split
          · rfl
          · apply ih
            · exact play_inv (rewound_inv hw) hv hm
            · simp [Voice.play, Voice.movedTo, Voice.rewound, hbase]
            · simp [Voice.play, Voice.movedTo, Voice.rewound, hsize]
        · rfl
      · rfl
  unfold Voice.playFill
  rw [play_congr h n vol ove hs]
  dsimp only
  exact hon _ _ _ _ (play_inv h hv hm) (by simp [Voice.play, Voice.movedTo]) (by simp [Voice.play, Voice.movedTo])

end Voice

/-! ### The voice loop -/

/-- `t` is `s` but for WBUF, MEM and the voices. -/
def OnlyData (s t : State) : Prop := t = { s with wbuf := t.wbuf, mem := t.mem, voices := t.voices }

theorem OnlyData.refl (s : State) : OnlyData s s := rfl

theorem OnlyData.trans {s t u : State} (h : OnlyData s t) (k : OnlyData t u) : OnlyData s u := by
  unfold OnlyData at *
  rw [h] at k
  exact k

theorem withVoice_onlyData {α : Type} (s : State) (v : Nat) (f : VoiceRun → α × VoiceRun) :
    OnlyData s (s.withVoice v f).2 := rfl

theorem fillVolume_le (s : State) (v : Nat) : s.fillVolume v ≤ 65535 := by
  unfold State.fillVolume lowHalf highHalf
  have := (s.arg (volumeArg v)).isLt
  split <;> omega

theorem fillOne_eq (d n : Nat) (ove : Bool) (r : FillRun) (v : Nat) :
    fillOne d n ove r v =
      { ended := r.ended ||| maskBit v (fillVoice r.s.cfg d n (r.s.fillVolume v) ove (r.s.loops v)
          ⟨r.s.voice v, r.s.wbuf, r.s.mem⟩).1.ended
        rewound := r.rewound ||| maskBit v (fillVoice r.s.cfg d n (r.s.fillVolume v) ove (r.s.loops v)
          ⟨r.s.voice v, r.s.wbuf, r.s.mem⟩).1.rewound
        s := (r.s.withVoice v (fillVoice r.s.cfg d n (r.s.fillVolume v) ove (r.s.loops v))).2 } := rfl

/-- What the voice loop keeps, whatever is read. -/
theorem fillFold_keeps (d n : Nat) (ove : Bool) (l : List Nat) (r : FillRun) (h8 : ∀ v ∈ l, v < 8)
    (hinv : ∀ v ∈ l, VoiceInv r.s.cfg (r.s.voice v)) :
    let t := (l.foldl (fillOne d n ove) r).s
    OnlyData r.s t ∧ Within ⟨d, 8 * n⟩ r.s.mem t.mem ∧
      (r.s.wbuf.length = r.s.cfg.raw.bufferSize → t.wbuf.length = r.s.cfg.raw.bufferSize) ∧
      (∀ v, v ∉ l → t.voice v = r.s.voice v) ∧
      ∀ v ∈ l, VoiceInv r.s.cfg (t.voice v) ∧ SameBinding (r.s.voice v) (t.voice v) := by
  induction l generalizing r with
  | nil => exact ⟨rfl, .refl _ _, id, fun _ _ => rfl, fun _ h => absurd h (by simp)⟩
  | cons v l ih =>
    have hv8 := h8 v (by simp)
    have hw := fillVoice_within r.s.cfg d n (r.s.fillVolume v) ove (r.s.loops v) ⟨r.s.voice v, r.s.wbuf, r.s.mem⟩
    have hi := fillVoice_inv r.s.cfg d n (r.s.fillVolume v) ove (r.s.loops v) (fillVolume_le _ _)
      ⟨r.s.voice v, r.s.wbuf, r.s.mem⟩ (hinv v (by simp))
    have hsame : (fillOne d n ove r v).s.voice v = (fillVoice r.s.cfg d n (r.s.fillVolume v) ove (r.s.loops v)
        ⟨r.s.voice v, r.s.wbuf, r.s.mem⟩).2.v := State.voice_setVoice_same _ _ hv8
    have hother : ∀ w, w ≠ v → (fillOne d n ove r v).s.voice w = r.s.voice w := fun w hne =>
      State.voice_setVoice_other { r.s with wbuf := _, mem := _ } _ hne
    have hstep : ∀ w ∈ l, VoiceInv (fillOne d n ove r v).s.cfg ((fillOne d n ove r v).s.voice w) := by
      intro w hmem
      by_cases he : w = v
      · subst he; rw [hsame]; exact hi
      · rw [hother w he]; exact hinv w (by simp [hmem])
    obtain ⟨i1, i2, i3, i4, i5⟩ := ih (fillOne d n ove r v) (fun w hmem => h8 w (by simp [hmem])) hstep
    refine ⟨OnlyData.trans (t := (fillOne d n ove r v).s) rfl i1, hw.port.trans i2, fun hl => i3 (hw.wbuf hl), ?_, ?_⟩
    · intro w hmem
      simp only [List.mem_cons, not_or] at hmem
      rw [List.foldl_cons, i4 w hmem.2, hother w hmem.1]
    · intro w hmem
      by_cases hl : w ∈ l
      · have := i5 w hl
        refine ⟨this.1, SameBinding.trans ?_ this.2⟩
        by_cases he : w = v
        · subst he; rw [hsame]; exact hw.binding
        · rw [hother w he]; exact .refl _
      · rw [List.foldl_cons, i4 w hl]
        have he : w = v := by simpa [hl] using hmem
        subst he
        rw [hsame]
        exact ⟨hi, hw.binding⟩

theorem mixIn_length (fs os : List Int) : (mixIn fs os).length = fs.length := by
  induction fs generalizing os with
  | nil => cases os <;> rfl
  | cons f fs ih => cases os <;> simp [mixIn, ih]

theorem mixIn_getElem (fs os : List Int) {k : Nat} (h : k < fs.length) :
    (mixIn fs os)[k]'(by rw [mixIn_length]; exact h) = if h' : k < os.length then sat32 (fs[k] + os[k]) else fs[k] := by
  induction fs generalizing os k with
  | nil => simp at h
  | cons f fs ih =>
    cases os with
    | nil => simp [mixIn]
    | cons o os =>
      cases k with
      | zero => simp [mixIn]
      | succ k => simpa [mixIn] using ih os (by simpa using h)

/-- Values added into frames. -/
theorem framesHold_emitAll {p : MemPort} {d : Nat} {fs os : List Int} (hw : p.wf = true) (hq : p.races = [])
    (h : FramesHold p d fs) (_ : os.length ≤ fs.length) (hb : ∀ o ∈ os, -2147483648 ≤ o ∧ o ≤ 2147483647) :
    FramesHold (emitAll true d 0 os p) d (mixIn fs os) := by
  intro k hk
  rw [mixIn_length] at hk
  obtain ⟨h0, h4⟩ := h k hk
  rw [mixIn_getElem _ _ hk]
  split
  · rename_i hk'
    have e0 := emitAll_frame hw hq true d 0 os hb hk' (w := 0) (.inl rfl)
    have e4 := emitAll_frame hw hq true d 0 os hb hk' (w := 4) (.inr rfl)
    simp only [Nat.zero_add, Nat.add_zero, mixed, if_true] at e0 e4
    rw [e0, e4, h0, h4]
    exact ⟨rfl, rfl⟩
  · rename_i hk'
    have hwin := emitAll_within true d 0 os p
    rw [← h0]
    constructor
    · exact frameWord_congr fun i hi => hwin.peek _ (by simp [Region.has]; omega)
    · rw [h0, ← h4]
      exact frameWord_congr fun i hi => hwin.peek _ (by simp [Region.has]; omega)

theorem maskBit_getLsbD {v w : Nat} (b : Bool) (hv : v < 8) : (maskBit v b).getLsbD w = (b && decide (w = v)) := by
  cases b
  · simp [maskBit]
  · have h : ∀ v < 8, ∀ w < 32, (BitVec.ofNat 32 (2 ^ v)).getLsbD w = decide (w = v) := by decide
    by_cases hw : w < 32
    · simpa [maskBit] using h v hv w hw
    · have : (maskBit v true).getLsbD w = false := BitVec.getLsbD_of_ge _ _ (by omega)
      rw [this]
      simp
      omega

/-- The voice loop, without races. -/
theorem fillFold_play (s : State) (ove : Bool) (l : List Nat) (hnd : l.Nodup) (h8 : ∀ v ∈ l, v < 8)
    (hinv : ∀ v ∈ l, VoiceInv s.cfg (s.voice v))
    (hdis : ∀ v ∈ l, s.fillFrames.overlaps (s.voice v).stream = false) (hq : s.mem.races = []) (r : FillRun) (fs : List Int)
    (hs : OnlyData s r.s) (hvoice : ∀ v ∈ l, r.s.voice v = s.voice v) (hw : r.s.mem.wf = true)
    (hwin : Within s.fillFrames s.mem r.s.mem) (hfl : fs.length = s.fillCount)
    (hf : FramesHold r.s.mem s.fillFrames.base fs) :
    let t := l.foldl (fillOne s.fillFrames.base s.fillCount ove) r
    t.s.mem.wf = true ∧ Within s.fillFrames s.mem t.s.mem ∧
      (∀ v ∈ l, t.s.voice v = (s.fillPlay ove v).2.2) ∧
      FramesHold t.s.mem s.fillFrames.base (l.foldl (fun frames v => mixIn frames (s.fillPlay ove v).2.1) fs) ∧
      (∀ w, t.ended.getLsbD w = (r.ended.getLsbD w || (decide (w ∈ l) && (s.fillPlay ove w).1.ended))) ∧
      ∀ w, t.rewound.getLsbD w = (r.rewound.getLsbD w || (decide (w ∈ l) && (s.fillPlay ove w).1.rewound)) := by
  induction l generalizing r fs with
  | nil => exact ⟨hw, hwin, fun _ h => absurd h (by simp), hf, fun _ => by simp, fun _ => by simp⟩
  | cons v l ih =>
    have hv8 := h8 v (by simp)
    have hvi := hinv v (by simp)
    have hvd := hdis v (by simp)
    have hvv := hvoice v (by simp)
    have hcfg : r.s.cfg = s.cfg := by rw [hs]
    have hvol : r.s.fillVolume v = s.fillVolume v := by rw [hs]; rfl
    have hloop : r.s.loops v = s.loops v := by rw [hs]; rfl
    have hrq : r.s.mem.races = [] := hwin.races.trans hq
    have hrv : VoiceInv r.s.cfg (r.s.voice v) := by rw [hcfg, hvv]; exact hvi
    have hplay := fillVoice_play (cfg := r.s.cfg) (d := s.fillFrames.base) (n := s.fillCount) ove (r.s.loops v)
      (fillVolume_le r.s v) ⟨r.s.voice v, r.s.wbuf, r.s.mem⟩ hrv hrq (by simp only [hvv]; exact hvd)
    have hcong : (r.s.voice v).playFill r.s.cfg r.s.mem s.fillCount (r.s.fillVolume v) ove (r.s.loops v) =
        s.fillPlay ove v := by
      rw [hcfg, hvv, hvol, hloop]
      refine playFill_congr hvi _ _ _ _ (fillVolume_le s v) (fun k hk => hwin.peek _ ?_) hq
      exact Region.has_of_disjoint hvd (by simp [Region.has, Voice.stream]; omega)
    simp only [hcong] at hplay
    obtain ⟨p1, p2, p3, p4, p5⟩ := hplay
    rw [List.foldl_cons, fillOne_eq]
    set e := fillVoice r.s.cfg s.fillFrames.base s.fillCount (r.s.fillVolume v) ove (r.s.loops v)
      ⟨r.s.voice v, r.s.wbuf, r.s.mem⟩ with he
    set u := (r.s.withVoice v (fillVoice r.s.cfg s.fillFrames.base s.fillCount (r.s.fillVolume v) ove (r.s.loops v))).2 with hu
    have hou : OnlyData s u := hs.trans (withVoice_onlyData r.s v _)
    have hucfg : u.cfg = s.cfg := hcfg
    have humem : u.mem = emitAll true s.fillFrames.base 0 (s.fillPlay ove v).2.1 r.s.mem := by rw [← p3]; rfl
    have hwu : Within s.fillFrames r.s.mem u.mem := by
      rw [humem]
      exact (emitAll_within _ _ _ _ _).mono fun a ha => by
        simp only [State.fillFrames] at ha ⊢
        rw [Region.has_mk] at ha ⊢
        omega
    have hother : ∀ w, w ≠ v → u.voice w = r.s.voice w := fun w hne =>
      State.voice_setVoice_other { r.s with wbuf := _, mem := _ } _ hne
    have hsame : u.voice v = (s.fillPlay ove v).2.2 := by rw [← p2]; exact State.voice_setVoice_same _ _ hv8
    have hnotin : v ∉ l := (List.nodup_cons.1 hnd).1
    clear_value u e
    have hmemv : ∀ w ∈ l, w ≠ v := fun w hmem he => hnotin (he ▸ hmem)
    have := ih (List.nodup_cons.1 hnd).2 (fun w h => h8 w (by simp [h])) (fun w h => hinv w (by simp [h]))
      (fun w h => hdis w (by simp [h]))
      ⟨r.ended ||| maskBit v e.1.ended, r.rewound ||| maskBit v e.1.rewound, u⟩ (mixIn fs (s.fillPlay ove v).2.1)
      hou (fun w h => (hother w (hmemv w h)).trans (hvoice w (by simp [h])))
      (hwu.wf hw) (hwin.trans hwu) (by rw [mixIn_length, hfl])
      (by
        show FramesHold u.mem _ _
        rw [humem]
        exact framesHold_emitAll hw hrq hf (by omega) p5)
    obtain ⟨i1, i2, i3, i4, i5, i6⟩ := this
    have hrest := (fillFold_keeps s.fillFrames.base s.fillCount ove l
      ⟨r.ended ||| maskBit v e.1.ended, r.rewound ||| maskBit v e.1.rewound, u⟩ (fun w h => h8 w (by simp [h]))
      (fun w h => by
        show VoiceInv u.cfg (u.voice w)
        rw [hother w (hmemv w h), hvoice w (by simp [h])]
        rw [hucfg]
        exact hinv w (by simp [h]))).2.2.2.1
    have hbit : ∀ (m : Word) (b : Bool) (w : Nat) (f : Nat → Bool), b = f v →
        ((m ||| maskBit v b).getLsbD w || (decide (w ∈ l) && f w)) = (m.getLsbD w || (decide (w ∈ v :: l) && f w)) := by
      intro m b w f hb
      rw [BitVec.getLsbD_or, maskBit_getLsbD _ hv8, hb]
      by_cases hwv : w = v
      · subst hwv; simp [hnotin]
      · simp [hwv]
    refine ⟨i1, i2, ?_, i4, fun w => ?_, fun w => ?_⟩
    · intro w hmem
      rcases List.mem_cons.1 hmem with rfl | hmem
      · rw [hrest w hnotin]; exact hsame
      · exact i3 w hmem
    · rw [i5 w]
      exact hbit r.ended e.1.ended w (fun x => (s.fillPlay ove x).1.ended) (by rw [p1])
    · rw [i6 w]
      exact hbit r.rewound e.1.rewound w (fun x => (s.fillPlay ove x).1.rewound) (by rw [p1])

/-- The zeroed frames. -/
theorem zeroFrames_hold {p : MemPort} (hw : p.wf = true) (hq : p.races = []) (d n : Nat) :
    FramesHold (forUp (zeroFrame d) n 0 p) d (List.replicate n 0) := by
  have hone : ∀ (q : MemPort) (k : Nat), q.wf = true → q.races = [] →
      frameWord (zeroFrame d k q) (d + 8 * k) = 0 ∧ frameWord (zeroFrame d k q) (d + 8 * k + 4) = 0 ∧
        Within ⟨d + 8 * k, 8⟩ q (zeroFrame d k q) := by
    intro q k hqw hqq
    have h0 : zeroFrame d k q = emitFrame false d k 0 q := by
      unfold zeroFrame emitFrame emitWord
      simp
    rw [h0]
    have := emitFrame_spec hqw hqq false d k (o := 0) (by decide) (by decide)
    simpa [mixed] using this
  have h := forUp_rule (fun i (q : MemPort) => i ≤ n ∧ q.wf = true ∧ q.races = [] ∧
      ∀ k < i, frameWord q (d + 8 * k) = 0 ∧ frameWord q (d + 8 * k + 4) = 0)
    (zeroFrame d) n 0 p ⟨by omega, hw, hq, fun k h => by omega⟩ (fun i q _ hi hx => by
      obtain ⟨-, hqw, hqq, hz⟩ := hx
      obtain ⟨z0, z4, hwin⟩ := hone q i hqw hqq
      refine ⟨by omega, hwin.wf hqw, hwin.races.trans hqq, fun k hk => ?_⟩
      rcases Nat.lt_or_ge k i with h | h
      · obtain ⟨a0, a4⟩ := hz k h
        rw [← a0]
        constructor
        · exact frameWord_congr fun j hj => hwin.peek _ (by simp [Region.has]; omega)
        · rw [a0, ← a4]
          exact frameWord_congr fun j hj => hwin.peek _ (by simp [Region.has]; omega)
      · have : k = i := by omega
        subst this
        exact ⟨z0, z4⟩)
  intro k hk
  simp only [List.length_replicate] at hk
  have := h.2.2.2 k (by omega)
  simpa using this

theorem fillVoices_lt (s : State) : ∀ v ∈ s.fillVoices, v < 8 := by
  intro v hv
  simp only [State.fillVoices, List.mem_filter, List.mem_range] at hv
  exact hv.1

theorem fillVoices_nodup (s : State) : s.fillVoices.Nodup := List.nodup_range.filter _

end Sys2Proof.Machine
end

