-- ==== Sys2Proof/Laws/Chunks.lean ====
section
/-! SUPPORT. A voice played in pieces: what is left to play, and that playing n1 and then n2 samples is playing n1 + n2
(43_expander.md R106). -/

namespace Sys2Proof.Machine

theorem playAll_cons (cfg : Config) (t : Nat) (p : Predictor) (c : Code) (cs : List Code) :
    playAll cfg t p (c :: cs) = ((playOne cfg t p c).1 :: (playAll cfg t (playOne cfg t p c).2 cs).1,
      (playAll cfg t (playOne cfg t p c).2 cs).2) := rfl

/-- Playing does not look at the packing fields. -/
theorem playAll_packing (cfg : Config) (t : Nat) (p : Predictor) (h : Bool) (b : Byte) (cs : List Code) :
    playAll cfg t { p with high := h, held := b } cs =
      ((playAll cfg t p cs).1, { (playAll cfg t p cs).2 with high := h, held := b }) := by
  induction cs generalizing p with
  | nil => rfl
  | cons c cs ih =>
    have hone : playOne cfg t { p with high := h, held := b } c =
        ((playOne cfg t p c).1, { (playOne cfg t p c).2 with high := h, held := b }) := by
      cases c <;> simp only [playOne, decodeOne, dec4Step_packing, dec8Step_packing, ease_packing] <;> rfl
    rw [playAll_cons, hone, playAll_cons]
    simp only
    rw [ih]

theorem playAll_voltgt (cfg : Config) (t : Nat) (p : Predictor) (cs : List Code) :
    (playAll cfg t p cs).2.voltgt = p.voltgt := by
  induction cs generalizing p with
  | nil => rfl
  | cons c cs ih =>
    rw [playAll_cons, ih]
    cases c <;> simp [playOne, decodeOne, dec4Step, dec8Step, Predictor.adapt4, Predictor.adapt8]

variable {cfg : Config} {v : Voice} {m m' : MemPort}

theorem codeAt_congr (h : VoiceInv cfg v)
    (hs : ∀ k < v.size.toNat, m'.peek (v.base.toNat + k) = m.peek (v.base.toNat + k)) {q : Nat} (hq : q < v.total.toNat) :
    codeAt m' v.is8 v.base.toNat q = codeAt m v.is8 v.base.toNat q := by
  unfold codeAt
  cases h8 : v.is8
  · have := h.total_le.2.2 h8
    simp only [Bool.false_eq_true, if_false]
    rw [hs _ (by omega)]
  · have := h.total_le.2.1 h8
    simp only [if_true]
    rw [hs _ (by omega)]

/-- The codes left after playing are those left before, without the ones played. -/
theorem codesLeft_play (h : VoiceInv cfg v) (n vol : Nat) (ove : Bool)
    (hs : ∀ k < v.size.toNat, m'.peek (v.base.toNat + k) = m.peek (v.base.toNat + k)) :
    (v.play cfg m n vol ove).2.codesLeft m' = (v.codesLeft m).drop (min n (v.total.toNat - v.pos.toNat)) := by
  have hpos := h.pos
  have htot := h.total_le
  have hlen : ((v.codesLeft m).take n).length = min n (v.total.toNat - v.pos.toNat) := by simp [Voice.codesLeft_length]
  set g := min n (v.total.toNat - v.pos.toNat) with hg
  have hp : ((v.play cfg m n vol ove).2.pos).toNat = v.pos.toNat + g := by
    simp [Voice.play, Voice.movedTo, hlen]; omega
  have ht : (v.play cfg m n vol ove).2.total = v.total := rfl
  apply List.ext_getElem
  · rw [Voice.codesLeft_length, List.length_drop, Voice.codesLeft_length, hp, ht]; omega
  · intro i h1 h2
    rw [Voice.codesLeft_length, hp, ht] at h1
    rw [Voice.codesLeft_getElem _ _ (by rw [hp, ht]; exact h1), List.getElem_drop, Voice.codesLeft_getElem _ _ (by omega), hp]
    have e8 : (v.play cfg m n vol ove).2.is8 = v.is8 := rfl
    have eb : (v.play cfg m n vol ove).2.base = v.base := rfl
    unfold Voice.codeAt
    rw [e8, eb, hp, codeAt_congr h hs (by omega), show v.pos.toNat + (g + i) = v.pos.toNat + g + i by omega]
    have hhigh : (v.play cfg m n vol ove).2.p.high = (!v.is8 && decide ((v.pos.toNat + g) % 2 = 1)) := by
      simp only [Voice.play, Voice.movedTo, hlen]
    have hheld : (v.play cfg m n vol ove).2.p.held =
        if v.is8 || decide (cursorAt v.is8 (v.pos.toNat + g) ≤ v.cursor.toNat) then v.p.held
        else m.peek (v.base.toNat + cursorAt v.is8 (v.pos.toNat + g) - 1) := by
      simp only [Voice.play, Voice.movedTo, hlen]
    rw [hhigh, hheld, h.high]
    cases h8 : v.is8
    · have hcur := h.cursor
      rw [h8] at hcur
      simp only [Bool.false_eq_true, if_false] at hcur
      rw [hcur]
      unfold codeAt cursorAt
      simp
      by_cases hi : i = 0
      · subst hi
        by_cases hg0 : g = 0
        · simp [hg0]
        · have hne : ¬ (v.pos.toNat + g = v.pos.toNat) := by omega
          by_cases hodd : (v.pos.toNat + g) % 2 = 1
          · have hnle : ¬ ((v.pos.toNat + g + 1) / 2 ≤ (v.pos.toNat + 1) / 2) := by omega
            have hidx : v.base.toNat + (v.pos.toNat + g + 1) / 2 - 1 = v.base.toNat + (v.pos.toNat + g) / 2 := by omega
            simp [hodd, hnle, hidx]
            intro _ h0
            exact absurd h0 hg0
          · simp [hodd]
            intro h
            omega
      · have : ¬ (v.pos.toNat + g + i = v.pos.toNat) := by omega
        simp [hi, this]
    · simp

/-- Playing n1 samples, then n2 more from a MEM in which the stream is the same, is playing n1 + n2 (OVE = 0). -/
theorem play_add (h : VoiceInv cfg v) (n1 n2 vol : Nat) (hn : n1 + n2 ≤ v.total.toNat - v.pos.toNat)
    (hs : ∀ k < v.size.toNat, m'.peek (v.base.toNat + k) = m.peek (v.base.toNat + k)) :
    v.play cfg m (n1 + n2) vol false =
      ((v.play cfg m n1 vol false).1 ++ ((v.play cfg m n1 vol false).2.play cfg m' n2 vol false).1,
        ((v.play cfg m n1 vol false).2.play cfg m' n2 vol false).2) := by
  have hd := codesLeft_play (m' := m') h n1 vol false hs
  rw [Nat.min_eq_left (by omega)] at hd
  have hpos := h.pos
  have htl := h.total_le
  have hl := Voice.codesLeft_length m v
  set v1 := (v.play cfg m n1 vol false).2 with hv1
  have e1 : v1.table = v.table := rfl
  have e2 : v1.pos.toNat = v.pos.toNat + n1 := by
    simp [hv1, Voice.play, Voice.movedTo, hl]; omega
  have e3 : v1.is8 = v.is8 := rfl
  have e4 : v1.base = v.base := rfl
  have ec : v1.cursor.toNat = cursorAt v.is8 (v.pos.toNat + n1) := by
    have : cursorAt v.is8 (v.pos.toNat + n1) ≤ v.size.toNat := cursorAt_le h rfl (by omega)
    have hsz := h.size_lt
    simp [hv1, Voice.play, Voice.movedTo, hl]
    rw [Nat.min_eq_left (by omega)]; omega
  have hcodes : (v.codesLeft m).take (n1 + n2) = (v.codesLeft m).take n1 ++ (v1.codesLeft m').take n2 := by
    rw [hd, List.take_add]
  set P := playAll cfg v.table.toNat (v.p.volSet vol false) ((v.codesLeft m).take n1) with hP
  have hp1 : ∃ b c, v1.p = { P.2 with high := b, held := c } := ⟨_, _, rfl⟩
  obtain ⟨b, c, hp1⟩ := hp1
  have hv : (v1.p).volSet vol false = { P.2 with high := b, held := c } := by
    rw [hp1]
    have := playAll_voltgt cfg v.table.toNat (v.p.volSet vol false) ((v.codesLeft m).take n1)
    rw [← hP] at this
    simp only [Predictor.volSet] at this ⊢
    rw [← this]
    simp
  have hrun : playAll cfg v.table.toNat (v.p.volSet vol false) ((v.codesLeft m).take (n1 + n2)) =
      (P.1 ++ (playAll cfg v.table.toNat P.2 ((v1.codesLeft m').take n2)).1,
        (playAll cfg v.table.toNat P.2 ((v1.codesLeft m').take n2)).2) := by
    rw [hcodes]
    exact runOver_append _ _ _ _
  have h2 : v1.play cfg m' n2 vol false = ((playAll cfg v.table.toNat P.2 ((v1.codesLeft m').take n2)).1,
      v1.movedTo m' { (playAll cfg v.table.toNat P.2 ((v1.codesLeft m').take n2)).2 with high := b, held := c }
        (v1.pos.toNat + ((v1.codesLeft m').take n2).length)) := by
    unfold Voice.play
    simp only [hv, e1, playAll_packing]
  rw [h2]
  unfold Voice.play
  simp only [hrun]
  refine Prod.ext rfl ?_
  simp only
  have hlen : ((v1.codesLeft m').take n2).length = n2 := by rw [hd]; simp [hl]; omega
  have hlen2 : ((v.codesLeft m).take (n1 + n2)).length = n1 + n2 := by simp [hl]; omega
  rw [hlen, hlen2, e2]
  have hheld1 : v1.p.held = if v.is8 || decide (cursorAt v.is8 (v.pos.toNat + n1) ≤ v.cursor.toNat) then v.p.held
      else m.peek (v.base.toNat + cursorAt v.is8 (v.pos.toNat + n1) - 1) := by
    simp only [hv1, Voice.play, Voice.movedTo]
    rw [show ((v.codesLeft m).take n1).length = n1 by simp [hl]; omega]
  unfold Voice.movedTo
  simp only [e3, e4, ec, hheld1]
  rw [show v.pos.toNat + (n1 + n2) = v.pos.toNat + n1 + n2 by omega]
  have hmono := cursorAt_add v.is8 (v.pos.toNat + n1) n2
  have hc0 := h.cursor_eq
  have hmono0 := cursorAt_add v.is8 v.pos.toNat n1
  have hle : cursorAt v.is8 (v.pos.toNat + n1 + n2) ≤ v.size.toNat := cursorAt_le h rfl (by omega)
  have hheld : (if (v.is8 || decide (cursorAt v.is8 (v.pos.toNat + n1 + n2) ≤ v.cursor.toNat)) = true then v.p.held
      else m.peek (v.base.toNat + cursorAt v.is8 (v.pos.toNat + n1 + n2) - 1)) =
      (if (v.is8 || decide (cursorAt v.is8 (v.pos.toNat + n1 + n2) ≤ cursorAt v.is8 (v.pos.toNat + n1))) = true then
        (if (v.is8 || decide (cursorAt v.is8 (v.pos.toNat + n1) ≤ v.cursor.toNat)) = true then v.p.held
          else m.peek (v.base.toNat + cursorAt v.is8 (v.pos.toNat + n1) - 1))
        else m'.peek (v.base.toNat + cursorAt v.is8 (v.pos.toNat + n1 + n2) - 1)) := by
    cases h8 : v.is8
    · rw [h8] at hmono hc0 hmono0 hle
      simp only [Bool.false_or, decide_eq_true_eq]
      generalize cursorAt false (v.pos.toNat + n1 + n2) = C2 at *
      generalize cursorAt false (v.pos.toNat + n1) = C1 at *
      split_ifs with a1 a2 a3 a3
      · rfl
      · omega
      · omega
      · omega
      · rw [show C2 = C1 by omega]
      · have := hs (C2 - 1) (by omega)
        rw [show v.base.toNat + C2 - 1 = v.base.toNat + (C2 - 1) by omega, this]
    · simp
  rw [hheld]
  rfl

end Sys2Proof.Machine
end

