-- ==== Sys2Proof/Laws/Ops.lean ====
section
/-! SUPPORT. Validation and the command lifecycle: what `validate` and `command` answer, and when each command's checks all
pass. -/

namespace Sys2Proof.Machine

/-! ### Validation -/

/-- The check is passed: the ARGs it reads are written and it does not fail. -/
def Check.passed (f : ArgFile) (c : Check) : Prop := (∀ k ∈ c.reads, f.written[k] = true) ∧ c.fails = false

theorem find_unwritten_none {f : ArgFile} {ks : List (Fin 8)} :
    (ks.find? fun k => !f.written[k]) = none ↔ ∀ k ∈ ks, f.written[k] = true := by
  simp [List.find?_eq_none]

theorem validate_cons_passed {f : ArgFile} {c : Check} (h : c.passed f) (cs : List Check) :
    validate f (c :: cs) = validate f cs := by
  rw [validate, find_unwritten_none.2 h.1, h.2]
  rfl

/-- Checks that are all passed answer `pass`. -/
theorem validate_append_passed {f : ArgFile} {before : List Check} (h : ∀ c ∈ before, c.passed f) (after : List Check) :
    validate f (before ++ after) = validate f after := by
  induction before with
  | nil => rfl
  | cons c cs ih =>
    rw [List.cons_append, validate_cons_passed (h c (by simp)), ih fun d hd => h d (by simp [hd])]

theorem validate_of_passed {f : ArgFile} {cs : List Check} (h : ∀ c ∈ cs, c.passed f) : validate f cs = .pass := by
  have := validate_append_passed h []
  rwa [List.append_nil] at this

/-- The check never answers `pass` by failing. -/
def Check.strict (c : Check) : Prop := c.fails = true → c.answer ≠ .pass

theorem passed_of_validate {f : ArgFile} {cs : List Check} (hs : ∀ c ∈ cs, c.strict) (h : validate f cs = .pass) :
    ∀ c ∈ cs, c.passed f := by
  induction cs with
  | nil => simp
  | cons c cs ih =>
    have hc := hs c (by simp)
    unfold validate at h
    split at h
    · cases h
    · rename_i hk
      split at h
      · rename_i hf
        exact absurd h (hc hf)
      · rename_i hf
        have := ih (fun d hd => hs d (by simp [hd])) h
        intro d hd
        rcases List.mem_cons.1 hd with rfl | hd
        · exact ⟨find_unwritten_none.1 hk, by simpa using hf⟩
        · exact this d hd

theorem validate_pass_iff {f : ArgFile} {cs : List Check} (hs : ∀ c ∈ cs, c.strict) :
    validate f cs = .pass ↔ ∀ c ∈ cs, c.passed f :=
  ⟨passed_of_validate hs, validate_of_passed⟩

/-- What a validation that does not pass answers comes from one of the checks, or is an unwritten ARG. -/
theorem validate_cases (f : ArgFile) (cs : List Check) :
    validate f cs = .pass ∨ (∃ k, validate f cs = .fault (.unwrittenArg k) ∧ f.written[k] = false) ∨
      ∃ c ∈ cs, c.fails = true ∧ validate f cs = c.answer := by
  induction cs with
  | nil => exact .inl rfl
  | cons c cs ih =>
    unfold validate
    split
    · rename_i k hk
      exact .inr (.inl ⟨k, rfl, by simpa using List.find?_some hk⟩)
    · split
      · rename_i hf
        exact .inr (.inr ⟨c, by simp, hf, rfl⟩)
      · rcases ih with h | h | ⟨d, hd, h⟩
        · exact .inl h
        · exact .inr (.inl h)
        · exact .inr (.inr ⟨d, by simp [hd], h⟩)

theorem raises_strict {c : ErrCode} {ks : List (Fin 8)} {b : Bool} : (Check.raises c ks b).strict := by
  simp [Check.strict, Check.raises]

/-! ### Commands -/

/-- Everything a command can answer as a next state: an error with nothing else changed, or its effect's. -/
theorem command_next {cs : List Check} {effect : State → Option ErrCode × State} {s t : State}
    (h : command cs effect s = .next t) :
    (∃ c, validate s.snapshot cs = .error c ∧ t = s.raiseError c) ∨
    (validate s.snapshot cs = .pass ∧
      ((∃ s', effect s = (none, s') ∧ t = s'.complete) ∨ ∃ c s', effect s = (some c, s') ∧ t = s'.raiseError c)) := by
  unfold command at h
  split at h
  · cases h
  · rename_i c hc
    exact .inl ⟨c, hc, (Host.Outcome.next.inj h).symm⟩
  · rename_i hp
    refine .inr ⟨hp, ?_⟩
    split at h
    · rename_i s' hs
      exact .inl ⟨s', hs, (Host.Outcome.next.inj h).symm⟩
    · rename_i c s' hs
      exact .inr ⟨c, s', hs, (Host.Outcome.next.inj h).symm⟩

theorem plainCommand_next {cs : List Check} {effect : State → State} {s t : State}
    (h : plainCommand cs effect s = .next t) :
    (∃ c, validate s.snapshot cs = .error c ∧ t = s.raiseError c) ∨
    (validate s.snapshot cs = .pass ∧ t = (effect s).complete) := by
  rcases command_next h with h | ⟨hp, ⟨s', hs, rfl⟩ | ⟨c, s', hs, -⟩⟩
  · exact .inl h
  · simp only [Prod.mk.injEq, true_and] at hs
    exact .inr ⟨hp, by rw [hs]⟩
  · simp at hs

theorem plainCommand_pass {cs : List Check} {effect : State → State} {s : State} (h : validate s.snapshot cs = .pass) :
    plainCommand cs effect s = .next (effect s).complete := by
  simp [plainCommand, command, h]

theorem command_pass {cs : List Check} {effect : State → Option ErrCode × State} {s s' : State}
    (h : validate s.snapshot cs = .pass) (he : effect s = (none, s')) : command cs effect s = .next s'.complete := by
  simp [command, h, he]

theorem command_error {cs : List Check} {effect : State → Option ErrCode × State} {s s' : State} {c : ErrCode}
    (h : validate s.snapshot cs = .pass) (he : effect s = (some c, s')) : command cs effect s = .next (s'.raiseError c) := by
  simp [command, h, he]

theorem command_fails {cs : List Check} {effect : State → Option ErrCode × State} {s : State} {c : ErrCode}
    (h : validate s.snapshot cs = .error c) : command cs effect s = .next (s.raiseError c) := by
  simp [command, h]

/-! ### When the checks of a command pass -/

theorem checkPair_passed {f : ArgFile} {s : State} {t : BitVec 4} {p : BitVec 2} :
    (checkPair s t p).passed f ↔ t.toNat < s.cfg.nTables ∧ p.toNat < s.cfg.nPred := by
  simp [Check.passed, checkPair, Check.raises]

theorem checkAlign_passed {f : ArgFile} {ks : List (Fin 8)} {b k : Nat} :
    (checkAlign ks b k).passed f ↔ (∀ j ∈ ks, f.written[j] = true) ∧ b % k = 0 := by
  simp [Check.passed, checkAlign, Check.raises]

theorem checkRange_passed {f : ArgFile} {s : State} {ks : List (Fin 8)} {r : Region} :
    (checkRange s ks r).passed f ↔ (∀ j ∈ ks, f.written[j] = true) ∧ r.inRange s.cfg.raw.memSize = true := by
  simp [Check.passed, checkRange, Check.raises]

theorem checkOverlap_passed {f : ArgFile} {ks : List (Fin 8)} {r q : Region} :
    (checkOverlap ks r q).passed f ↔ (∀ j ∈ ks, f.written[j] = true) ∧ r.overlaps q = false := by
  simp [Check.passed, checkOverlap, Check.raises]

theorem shiftRight_eq_zero_iff {w : Word} {n : Nat} : (w >>> n == 0) = true ↔ w.toNat < 2 ^ n := by
  rw [beq_iff_eq, ← BitVec.toNat_inj, BitVec.toNat_ushiftRight, Nat.shiftRight_eq_div_pow]
  simp [Nat.div_eq_zero_iff]

theorem checkHighBits_passed {f : ArgFile} {k : Fin 8} {s : State} {n : Nat} :
    (checkHighBits k s n).passed f ↔ f.written[k] = true ∧ (s.arg k).toNat < 2 ^ n := by
  have := shiftRight_eq_zero_iff (w := s.arg k) (n := n)
  simp only [Check.passed, checkHighBits, Check.raises, List.mem_singleton, forall_eq, bne_eq_false_iff_eq]
  rw [beq_iff_eq] at this
  rw [this]

theorem checkVoice_passed {f : ArgFile} {s : State} {v : Nat} :
    (checkVoice s v).passed f ↔ v < s.cfg.raw.nVoices := by
  simp [Check.passed, checkVoice, Check.raises]

theorem checkBound_passed {f : ArgFile} {s : State} {v : Nat} :
    (checkBound s v).passed f ↔ (s.voice v).bound = true := by
  simp [Check.passed, checkBound, Check.raises]

theorem checkStream_passed {f : ArgFile} {s : State} {v : Nat} :
    (checkStream s v).passed f ↔ (s.voice v).stream.inRange s.cfg.raw.memSize = true := by
  simp [Check.passed, checkStream]

theorem needs_passed {f : ArgFile} {ks : List (Fin 8)} :
    (Check.needs ks).passed f ↔ ∀ k ∈ ks, f.written[k] = true := by
  simp [Check.passed, Check.needs]

theorem raises_passed {f : ArgFile} {c : ErrCode} {ks : List (Fin 8)} {b : Bool} :
    (Check.raises c ks b).passed f ↔ (∀ j ∈ ks, f.written[j] = true) ∧ b = false := Iff.rfl

theorem checkStream_strict {s : State} {v : Nat} : (checkStream s v).strict := by simp [Check.strict, checkStream]
theorem needs_strict {ks : List (Fin 8)} : (Check.needs ks).strict := by simp [Check.strict, Check.needs]

theorem validate_encChecks {is8 : Bool} {t : BitVec 4} {p : BitVec 2} {s : State} :
    validate s.snapshot (encChecks is8 t p s) = .pass ↔ CanEncode is8 t p s := by
  rw [validate_pass_iff (by simp only [encChecks]; simp [checkPair, checkAlign, checkRange, checkOverlap, raises_strict])]
  simp only [encChecks, List.forall_mem_cons, List.not_mem_nil, false_imp_iff, implies_true, and_true,
    checkPair_passed, checkAlign_passed, checkRange_passed, checkOverlap_passed, CanEncode, State.wrote]
  tauto

theorem validate_decChecks {is8 : Bool} {t : BitVec 4} {p : BitVec 2} {s : State} :
    validate s.snapshot (decChecks is8 t p s) = .pass ↔ Decodable is8 t p s := by
  rw [validate_pass_iff (by
    simp only [decChecks]; simp [checkPair, checkAlign, checkRange, checkOverlap, checkHighBits, raises_strict])]
  simp only [decChecks, List.forall_mem_cons, List.not_mem_nil, false_imp_iff, implies_true, and_true,
    checkPair_passed, checkAlign_passed, checkRange_passed, checkOverlap_passed, checkHighBits_passed, Decodable,
    State.wrote]
  tauto

theorem validate_bindChecks {v t : BitVec 4} {p : BitVec 2} {is8 odd : Bool} {s : State} :
    validate s.snapshot (bindChecks v t p is8 odd s) = .pass ↔ Bindable v t p is8 odd s := by
  rw [validate_pass_iff (by simp only [bindChecks]; simp [checkVoice, checkPair, checkRange, raises_strict])]
  simp only [bindChecks, List.forall_mem_cons, List.not_mem_nil, false_imp_iff, implies_true, and_true,
    checkPair_passed, checkVoice_passed, checkRange_passed, raises_passed, Bindable, State.wrote]
  cases is8 <;> cases odd <;> simp [Nat.pos_iff_ne_zero] <;> tauto

theorem validate_expandChecks {v : BitVec 4} {s : State} :
    validate s.snapshot (expandChecks v s) = .pass ↔ Expandable v s := by
  rw [validate_pass_iff (by
    simp only [expandChecks]
    simp [checkVoice, checkBound, checkAlign, checkRange, checkOverlap, checkHighBits, raises_strict, checkStream_strict])]
  simp only [expandChecks, List.forall_mem_cons, List.not_mem_nil, false_imp_iff, implies_true, and_true,
    checkVoice_passed, checkBound_passed, checkAlign_passed, checkRange_passed, checkOverlap_passed, checkHighBits_passed,
    checkStream_passed, Expandable, State.wrote]
  tauto

theorem validate_rewindChecks {v : BitVec 4} {s : State} :
    validate s.snapshot (rewindChecks v s) = .pass ↔ Rewindable v s := by
  rw [validate_pass_iff (by simp only [rewindChecks]; simp [checkVoice, checkBound, raises_strict])]
  simp only [rewindChecks, List.forall_mem_cons, List.not_mem_nil, false_imp_iff, implies_true, and_true,
    checkVoice_passed, checkBound_passed, Rewindable]

theorem fillChecks_strict (s : State) : ∀ c ∈ fillChecks s, c.strict := by
  intro c hc
  simp only [fillChecks, List.mem_append, List.mem_cons, List.mem_flatMap, List.mem_map, List.not_mem_nil, or_false] at hc
  rcases hc with ((((((rfl | rfl) | ⟨v, -, rfl | rfl⟩) | rfl | rfl) | ⟨v, -, rfl⟩) | rfl) | ⟨v, -, rfl⟩) <;>
    first | exact raises_strict | exact needs_strict | exact checkStream_strict

theorem validate_fillChecks {s : State} : validate s.snapshot (fillChecks s) = .pass ↔ Fillable s := by
  rw [validate_pass_iff (fillChecks_strict s)]
  simp only [fillChecks, List.forall_mem_append, List.forall_mem_cons, List.not_mem_nil, false_imp_iff, implies_true,
    and_true, List.forall_mem_flatMap, List.forall_mem_map, checkHighBits_passed, checkVoice_passed, checkBound_passed,
    checkAlign_passed, checkRange_passed, checkOverlap_passed, checkStream_passed, needs_passed, Fillable, State.wrote]
  constructor
  · intro ⟨⟨⟨⟨⟨⟨⟨h0, a0⟩, h1, a1⟩, hv⟩, ⟨h2, al⟩, ⟨_, h3⟩, ir⟩, ov⟩, vol⟩, st⟩
    exact ⟨⟨h0, h1, h2, h3⟩, a0, a1, al, ir, fun v hm => ⟨(hv v hm).1, (hv v hm).2, vol v hm, (ov v hm).2, st v hm⟩⟩
  · intro ⟨⟨h0, h1, h2, h3⟩, a0, a1, al, ir, h⟩
    exact ⟨⟨⟨⟨⟨⟨⟨h0, a0⟩, h1, a1⟩, fun v hm => ⟨(h v hm).1, (h v hm).2.1⟩⟩, ⟨h2, al⟩, ⟨h2, h3⟩, ir⟩,
      fun v hm => ⟨⟨h2, h3⟩, (h v hm).2.2.2.1⟩⟩, fun v hm => (h v hm).2.2.1⟩, fun v hm => (h v hm).2.2.2.2⟩

theorem validate_selectChecks {is8 : Bool} {s : State} :
    validate s.snapshot (selectChecks is8 s) = .pass ↔ Selectable is8 s := by
  rw [validate_pass_iff (by
    simp only [selectChecks]; simp [checkAlign, checkRange, checkOverlap, checkHighBits, raises_strict])]
  have h3 := shiftRight_eq_zero_iff (w := s.tableMask) (n := s.cfg.nTables)
  have h4 := shiftRight_eq_zero_iff (w := s.predMask) (n := s.cfg.nPred)
  rw [beq_iff_eq] at h3 h4
  simp only [selectChecks, List.forall_mem_cons, List.not_mem_nil, false_imp_iff, implies_true, and_true,
    checkAlign_passed, checkRange_passed, checkOverlap_passed, checkHighBits_passed, raises_passed, bne_eq_false_iff_eq,
    beq_eq_false_iff_ne, h3, h4, Selectable, State.wrote]
  simp only [State.tableMask, State.predMask]
  tauto

theorem validate_lookupChecks {names : List (Fin 8)} {s : State} :
    validate s.snapshot (lookupChecks names s) = .pass ↔ Lookable names s := by
  rw [validate_pass_iff (by simp only [lookupChecks]; simp [checkRange, raises_strict, needs_strict])]
  simp only [lookupChecks, List.forall_mem_cons, List.not_mem_nil, false_imp_iff, implies_true, and_true,
    checkRange_passed, needs_passed, Lookable, State.wrote]
  tauto

end Sys2Proof.Machine
end

