-- ==== Sys2Proof/Laws/Effects.lean ====
section
/-! SUPPORT. `exec` as validation and an effect, and what any effect can change: said once for all commands. -/

namespace Sys2Proof.Machine

/-- The effect of a command (40_lifecycle.md R66). -/
def effectOf : Instr → State → Option ErrCode × State
  | .nop, s => (none, s)
  | .enc4 t p, s => (none, enc4Effect t p s)
  | .dec4 t p add ove, s => (none, dec4Effect t p add ove s)
  | .enc8 t p, s => (none, enc8Effect t p s)
  | .dec8 t p add ove, s => (none, dec8Effect t p add ove s)
  | .bind v t p is8 odd, s => (none, bindEffect v t p is8 odd s)
  | .expand v add ove, s => (none, expandEffect v add ove s)
  | .rewind v, s => (none, rewindEffect v s)
  | .fill ove, s => (none, fillEffect ove s)
  | .select is8, s => (none, selectEffect is8 s)
  | .lookupDir, s => lookupDirEffect s
  | .lookupFile, s => lookupFileEffect s

theorem exec_eq (i : Instr) (s : State) : exec i s = command (checksOf i s) (effectOf i) s := by cases i <;> rfl

/-- `t` comes from `s` by the effect of a command: only RES, the voices, WBUF and MEM may differ, and of these only what the
command's rule names. -/
structure EffectWithin (i : Instr) (s t : State) : Prop where
  fields : t = { s with res := t.res, voices := t.voices, wbuf := t.wbuf, mem := t.mem }
  mem    : ∀ g : Region, (∀ r ∈ bytesWrittenBy i s, ∀ a, r.has a = true → g.has a = true) → Within g s.mem t.mem
  res    : ∀ k : Fin 4, k ∉ resWrittenBy i → t.res[k] = s.res[k]
  voices : ∀ v, v ∉ voicesWrittenBy i s → t.voice v = s.voice v
  wbuf   : s.wbuf.length = s.cfg.raw.bufferSize → t.wbuf.length = s.cfg.raw.bufferSize

theorem setRes_res_other (s : State) {j k : Fin 4} (w : Word) (h : k ≠ j) : (s.setRes j w).res[k] = s.res[k] := by
  rw [State.setRes_res]
  exact Vector.getElem_set_ne _ _ (fun e => h (Fin.ext e.symm))

theorem setRes_res_same (s : State) (k : Fin 4) (w : Word) : (s.setRes k w).res[k] = w := by
  rw [State.setRes_res]
  exact Vector.getElem_set_self _

/-- A command that writes MEM only. -/
theorem EffectWithin.of_mem {i : Instr} {s : State} (port : MemPort)
    (hm : ∀ g : Region, (∀ r ∈ bytesWrittenBy i s, ∀ a, r.has a = true → g.has a = true) → Within g s.mem port) :
    EffectWithin i s { s with mem := port } :=
  ⟨rfl, hm, fun _ _ => rfl, fun _ _ => rfl, id⟩

/-- Writing a RES register that the command's rule names. -/
theorem EffectWithin.setRes {i : Instr} {s t : State} (h : EffectWithin i s t) {k : Fin 4} (w : Word)
    (hk : k ∈ resWrittenBy i) : EffectWithin i s (t.setRes k w) where
  fields := congrArg (fun x : State => { x with res := t.res.set k w }) h.fields
  mem := h.mem
  res j hj := (setRes_res_other t w (by rintro rfl; exact hj hk)).trans (h.res j hj)
  voices := h.voices
  wbuf := h.wbuf

/-- Writing the error results. -/
theorem EffectWithin.setError {i : Instr} {s t : State} (h : EffectWithin i s t) (sse n : Nat)
    (hk : resWrittenBy i = [0, 1, 2, 3]) : EffectWithin i s (t.setError sse n) :=
  ((h.setRes _ (by simp [hk])).setRes _ (by simp [hk])).setRes _ (by simp [hk])

theorem Within.of_covers {i : Instr} {s : State} {r : Region} {q : MemPort} (h : Within r s.mem q)
    (hr : r ∈ bytesWrittenBy i s) (g : Region) (hg : ∀ r ∈ bytesWrittenBy i s, ∀ a, r.has a = true → g.has a = true) :
    Within g s.mem q := h.mono (hg r hr)

/-- The voice loop of FILL, whatever the voices hold. -/
theorem fillFold_within (d n : Nat) (ove : Bool) (l : List Nat) (r : FillRun) :
    let t := (l.foldl (fillOne d n ove) r).s
    OnlyData r.s t ∧ Within ⟨d, 8 * n⟩ r.s.mem t.mem ∧
      (r.s.wbuf.length = r.s.cfg.raw.bufferSize → t.wbuf.length = r.s.cfg.raw.bufferSize) ∧
      ∀ v, v ∉ l → t.voice v = r.s.voice v := by
  induction l generalizing r with
  | nil => exact ⟨rfl, .refl _ _, id, fun _ _ => rfl⟩
  | cons v l ih =>
    have hw := fillVoice_within r.s.cfg d n (r.s.fillVolume v) ove (r.s.loops v) ⟨r.s.voice v, r.s.wbuf, r.s.mem⟩
    obtain ⟨i1, i2, i3, i4⟩ := ih (fillOne d n ove r v)
    refine ⟨OnlyData.trans (t := (fillOne d n ove r v).s) rfl i1, hw.port.trans i2, fun hl => i3 (hw.wbuf hl), ?_⟩
    intro w hmem
    simp only [List.mem_cons, not_or] at hmem
    rw [List.foldl_cons, i4 w hmem.2]
    exact State.voice_setVoice_other { r.s with wbuf := _, mem := _ } _ hmem.1

theorem effect_lookupDir (s : State) : EffectWithin .lookupDir s (lookupDirEffect s).2 ∧
    ((lookupDirEffect s).1 = none ∨ ((lookupDirEffect s).1 = some .image ∧
      (lookupDirEffect s).2 = { s with mem := (lookupDirEffect s).2.mem })) := by
  have h1 := fun g => dirScan_within g s.base0 (s.name 1 2) s.cfg.raw.numDir 0 s.mem
  unfold lookupDirEffect
  generalize dirScan s.base0 (s.name 1 2) s.cfg.raw.numDir 0 s.mem = ds at h1 ⊢
  rcases ds with ⟨k | k, port⟩
  · exact ⟨.setRes (.setRes (.setRes (.of_mem port fun g _ => h1 g) _ (by decide)) _ (by decide)) _ (by decide), .inl rfl⟩
  · have h2 := fun g => dirRun_within g s.base0 k port
    simp only []
    generalize dirRun s.base0 k port = dr at h2 ⊢
    rcases dr with ⟨⟨first, count⟩, port'⟩
    simp only []
    split
    · exact ⟨⟨rfl, fun g _ => (h1 g).trans (h2 g), fun _ _ => rfl, fun _ _ => rfl, id⟩, .inr ⟨rfl, rfl⟩⟩
    · exact ⟨.setRes (.setRes (.setRes (.of_mem port' fun g _ => (h1 g).trans (h2 g)) _ (by decide)) _ (by decide)) _
        (by decide), .inl rfl⟩

theorem effect_lookupFile (s : State) : EffectWithin .lookupFile s (lookupFileEffect s).2 ∧
    ((lookupFileEffect s).1 = none ∨ ((lookupFileEffect s).1 = some .image ∧
      (lookupFileEffect s).2 = { s with mem := (lookupFileEffect s).2.mem })) := by
  have h1 := fun g => dirScan_within g s.base0 (s.name 1 2) s.cfg.raw.numDir 0 s.mem
  unfold lookupFileEffect
  generalize dirScan s.base0 (s.name 1 2) s.cfg.raw.numDir 0 s.mem = ds at h1 ⊢
  rcases ds with ⟨k | k, port⟩
  · exact ⟨.setRes (.setRes (.setRes (.setRes (.of_mem port fun g _ => h1 g) _ (by decide)) _ (by decide)) _ (by decide)) _
      (by decide), .inl rfl⟩
  · have h2 := fun g => dirRun_within g s.base0 k port
    simp only []
    generalize dirRun s.base0 k port = dr at h2 ⊢
    rcases dr with ⟨⟨first, count⟩, port'⟩
    simp only []
    split
    · exact ⟨⟨rfl, fun g _ => (h1 g).trans (h2 g), fun _ _ => rfl, fun _ _ => rfl, id⟩, .inr ⟨rfl, rfl⟩⟩
    · have h3 := fun g => fileScan_within g s.cfg s.base0 (s.name 3 4) count first port'
      generalize fileScan s.cfg s.base0 (s.name 3 4) count first port' = fs at h3 ⊢
      rcases fs with ⟨j | j, port''⟩
      · exact ⟨.setRes (.setRes (.setRes (.setRes (.of_mem port'' fun g _ => ((h1 g).trans (h2 g)).trans (h3 g)) _ (by decide)) _
          (by decide)) _ (by decide)) _ (by decide), .inl rfl⟩
      · have h4 := fun g => MemPort.readLE_within g port'' (fileRecord s.cfg s.base0 j + 8) 4
        simp only []
        generalize port''.readLE (fileRecord s.cfg s.base0 j + 8) 4 = r1 at h4 ⊢
        rcases r1 with ⟨off, p1⟩
        have h5 := fun g => MemPort.readLE_within g p1 (fileRecord s.cfg s.base0 j + 12) 4
        simp only []
        generalize p1.readLE (fileRecord s.cfg s.base0 j + 12) 4 = r2 at h5 ⊢
        rcases r2 with ⟨w, p2⟩
        exact ⟨.setRes (.setRes (.setRes (.setRes (.of_mem p2 fun g _ =>
          (((h1 g).trans (h2 g)).trans (h3 g)).trans ((h4 g).trans (h5 g))) _ (by decide)) _ (by decide)) _ (by decide)) _
          (by decide), .inl trivial⟩

theorem effect_select (is8 : Bool) (s : State) : EffectWithin (.select is8) s (selectEffect is8 s) := by
  have hb := fun g => bestPair_within g s is8
  unfold selectEffect
  generalize bestPair s is8 = b at hb ⊢
  rcases b with ⟨w, port⟩
  have h4 := encode4_within s.cfg w.t w.p s.srcBase s.count s.dstBase port
  have h8 := encode8_within s.cfg w.t w.p s.srcBase s.count s.dstBase port
  simp only []
  generalize encode4 s.cfg w.t w.p s.srcBase s.count s.dstBase port = r4 at h4 ⊢
  generalize encode8 s.cfg w.t w.p s.srcBase s.count s.dstBase port = r8 at h8 ⊢
  cases is8 with
  | false => exact .setError (.setRes (.of_mem r4.port (((hb _).trans h4).of_covers (by simp [bytesWrittenBy, State.codeOut, codeLen]))) _ (by simp [resWrittenBy])) _ _ rfl
  | true => exact .setError (.setRes (.of_mem r8.port (((hb _).trans h8).of_covers (by simp [bytesWrittenBy, State.codeOut, codeLen]))) _ (by simp [resWrittenBy])) _ _ rfl

theorem effect_enc4 (t : BitVec 4) (p : BitVec 2) (s : State) : EffectWithin (.enc4 t p) s (enc4Effect t p s) := by
  have h := encode4_within s.cfg t.toNat p.toNat s.srcBase s.count s.dstBase s.mem
  unfold enc4Effect
  generalize encode4 s.cfg t.toNat p.toNat s.srcBase s.count s.dstBase s.mem = r at h ⊢
  exact .setError (.setRes (.of_mem r.port (h.of_covers (by simp [bytesWrittenBy, State.codeOut, codeLen]))) _ (by simp [resWrittenBy])) _ _ rfl

theorem effect_enc8 (t : BitVec 4) (p : BitVec 2) (s : State) : EffectWithin (.enc8 t p) s (enc8Effect t p s) := by
  have h := encode8_within s.cfg t.toNat p.toNat s.srcBase s.count s.dstBase s.mem
  unfold enc8Effect
  generalize encode8 s.cfg t.toNat p.toNat s.srcBase s.count s.dstBase s.mem = r at h ⊢
  exact .setError (.setRes (.of_mem r.port (h.of_covers (by simp [bytesWrittenBy, State.codeOut, codeLen]))) _ (by simp [resWrittenBy])) _ _ rfl

theorem effect_dec4 (t : BitVec 4) (p : BitVec 2) (add ove : Bool) (s : State) :
    EffectWithin (.dec4 t p add ove) s (dec4Effect t p add ove s) := by
  have h := decode4_within s.cfg t.toNat p.toNat s.srcBase s.count s.dstBase s.decVolume add ove s.mem
  unfold dec4Effect
  generalize decode4 s.cfg t.toNat p.toNat s.srcBase s.count s.dstBase s.decVolume add ove s.mem = r at h ⊢
  exact .setRes (.of_mem r.port (h.of_covers (by simp [bytesWrittenBy, State.decFrames]))) _ (by simp [resWrittenBy])

theorem effect_dec8 (t : BitVec 4) (p : BitVec 2) (add ove : Bool) (s : State) :
    EffectWithin (.dec8 t p add ove) s (dec8Effect t p add ove s) := by
  have h := decode8_within s.cfg t.toNat p.toNat s.srcBase s.count s.dstBase s.decVolume add ove s.mem
  unfold dec8Effect
  generalize decode8 s.cfg t.toNat p.toNat s.srcBase s.count s.dstBase s.decVolume add ove s.mem = r at h ⊢
  exact .setRes (.of_mem r.port (h.of_covers (by simp [bytesWrittenBy, State.decFrames]))) _ (by simp [resWrittenBy])

theorem effect_expand (v : BitVec 4) (add ove : Bool) (s : State) :
    EffectWithin (.expand v add ove) s (expandEffect v add ove s) := by
  have hw := expandCore_produced s.cfg s.base0 s.count s.expandVolume add ove ⟨s.voice v.toNat, s.wbuf, s.mem⟩
  unfold expandEffect State.withVoice
  generalize expandCore s.cfg s.base0 s.count s.expandVolume add ove ⟨s.voice v.toNat, s.wbuf, s.mem⟩ = r at hw ⊢
  obtain ⟨n, x⟩ := r
  have h : EffectWithin (.expand v add ove) s ({ s with wbuf := x.wbuf, mem := x.port }.setVoice v.toNat x.v) :=
    ⟨rfl, hw.port.of_covers (by simp [bytesWrittenBy, State.producedFrames, State.wanted]), fun _ _ => rfl,
      fun w h => State.voice_setVoice_other { s with wbuf := x.wbuf, mem := x.port } _ (by simpa [voicesWrittenBy] using h),
      hw.wbuf⟩
  exact (h.setRes _ (k := 0) (by simp [resWrittenBy])).setRes _ (k := 1) (by simp [resWrittenBy])

theorem effect_fill (ove : Bool) (s : State) : EffectWithin (.fill ove) s (fillEffect ove s) := by
  obtain ⟨h1, h2, h3, h4⟩ := fillFold_within s.fillFrames.base s.fillCount ove s.fillVoices
    ⟨0, 0, { s with mem := forUp (zeroFrame s.fillFrames.base) s.fillCount 0 s.mem }⟩
  have hz := zeroFrames_within s.fillFrames.base s.fillCount s.mem
  unfold fillEffect
  simp only []
  generalize s.fillVoices.foldl (fillOne s.fillFrames.base s.fillCount ove)
    ⟨0, 0, { s with mem := forUp (zeroFrame s.fillFrames.base) s.fillCount 0 s.mem }⟩ = r at h1 h2 h3 h4 ⊢
  have h : EffectWithin (.fill ove) s r.s :=
    ⟨by rw [h1], (hz.trans h2).of_covers (by simp [bytesWrittenBy, State.fillFrames]), fun k _ => by rw [h1], h4, h3⟩
  exact (h.setRes _ (k := 0) (by simp [resWrittenBy])).setRes _ (k := 1) (by simp [resWrittenBy])

/-- Whatever a command's effect answers: it changes only what its rule names; an error is IMAGE, and leaves every register and
every byte. -/
theorem effect_within (i : Instr) (s : State) : EffectWithin i s (effectOf i s).2 ∧
    ((effectOf i s).1 = none ∨ ((effectOf i s).1 = some .image ∧
      (effectOf i s).2 = { s with mem := (effectOf i s).2.mem } ∧ (effectOf i s).2.mem.cells = s.mem.cells)) := by
  cases i with
  | nop => exact ⟨⟨rfl, fun g _ => .refl _ _, fun _ _ => rfl, fun _ _ => rfl, id⟩, .inl rfl⟩
  | enc4 t p => exact ⟨effect_enc4 t p s, .inl rfl⟩
  | enc8 t p => exact ⟨effect_enc8 t p s, .inl rfl⟩
  | dec4 t p add ove => exact ⟨effect_dec4 t p add ove s, .inl rfl⟩
  | dec8 t p add ove => exact ⟨effect_dec8 t p add ove s, .inl rfl⟩
  | bind v t p is8 odd =>
    refine ⟨⟨rfl, fun g _ => .refl _ _, fun k hk => ?_, fun w hw => ?_, id⟩, .inl rfl⟩
    · exact setRes_res_other (s.setVoice v.toNat _) _ (by simpa [resWrittenBy] using hk)
    · exact State.voice_setVoice_other s _ (by simpa [voicesWrittenBy] using hw)
  | rewind v =>
    exact ⟨⟨rfl, fun g _ => .refl _ _, fun _ _ => rfl,
      fun w hw => State.voice_setVoice_other s _ (by simpa [voicesWrittenBy] using hw), id⟩, .inl rfl⟩
  | expand v add ove => exact ⟨effect_expand v add ove s, .inl rfl⟩
  | fill ove => exact ⟨effect_fill ove s, .inl rfl⟩
  | select is8 =>
    exact ⟨effect_select is8 s, .inl rfl⟩
  | lookupDir =>
    obtain ⟨h, he⟩ := effect_lookupDir s
    exact ⟨h, he.imp_right fun ⟨e, m⟩ => ⟨e, m, (h.mem ⟨0, 0⟩ (by simp [bytesWrittenBy])).empty rfl⟩⟩
  | lookupFile =>
    obtain ⟨h, he⟩ := effect_lookupFile s
    exact ⟨h, he.imp_right fun ⟨e, m⟩ => ⟨e, m, (h.mem ⟨0, 0⟩ (by simp [bytesWrittenBy])).empty rfl⟩⟩

/-- Every byte a command does not write is as it was. -/
theorem EffectWithin.peek {i : Instr} {s t : State} (h : EffectWithin i s t) {a : Nat}
    (ha : ∀ r ∈ bytesWrittenBy i s, r.has a = false) : t.mem.peek a = s.mem.peek a := by
  have hone : bytesWrittenBy i s = [] ∨ ∃ r, bytesWrittenBy i s = [r] := by cases i <;> simp [bytesWrittenBy]
  rcases hone with hn | ⟨r, hr⟩
  · exact (h.mem ⟨0, 0⟩ (by simp [hn])).peek a (by simp [Region.has])
  · exact (h.mem r (by simp [hr])).peek a (ha r (by simp [hr]))

/-- Everything `exec` can answer as a next state: an error of the validation, IMAGE, or completion after an effect. -/
theorem exec_next {i : Instr} {s t : State} (h : exec i s = .next t) :
    (∃ c, validate s.snapshot (checksOf i s) = .error c ∧ t = s.raiseError c) ∨
    (validate s.snapshot (checksOf i s) = .pass ∧ ∃ s', EffectWithin i s s' ∧
      (t = s'.complete ∨ (t = s'.raiseError .image ∧ s' = { s with mem := s'.mem } ∧ s'.mem.cells = s.mem.cells))) := by
  rw [exec_eq] at h
  obtain ⟨hw, he⟩ := effect_within i s
  rcases command_next h with h | ⟨hp, ⟨s', hs, rfl⟩ | ⟨c, s', hs, rfl⟩⟩
  · exact .inl h
  · rw [hs] at hw
    exact .inr ⟨hp, s', hw, .inl rfl⟩
  · rw [hs] at hw he
    rcases he with he | ⟨he, hm⟩
    · cases he
    · cases he
      exact .inr ⟨hp, s', hw, .inr ⟨rfl, hm⟩⟩

end Sys2Proof.Machine
end

