-- ==== Sys2Proof/Laws/HostPort.lean ====
section
/-! SUPPORT. Host register accesses: which register an offset reaches, and what an admitted access answers. -/

namespace Sys2Proof.Machine

theorem locate_ok (c : Config) {off : Nat} (h : off < 1024) (h4 : off % 4 = 0) :
    locate c (c.raw.engineBase + off) 4 = .ok off := by
  simp only [locate]
  rw [if_neg (by omega), if_neg (by simp; omega)]
  simp

theorem locate_refused (c : Config) {off w : Nat} (h : off < 1024) (h4 : w ≠ 4 ∨ off % 4 ≠ 0) :
    locate c (c.raw.engineBase + off) w = .error .hostAccess := by
  simp only [locate]
  rw [if_neg (by omega), if_pos (by simpa using h4)]

/-- An admitted host write. -/
theorem hostTurn_write (s : State) {off : Nat} (v : Word) (h : off < 1024) (h4 : off % 4 = 0) :
    hostTurn (.writeReg (s.cfg.raw.engineBase + off) 4 v) s = .next (s.writeReg v (regAt s.cfg off)) := by
  simp [hostTurn, locate_ok s.cfg h h4]

/-- An admitted host read. -/
theorem hostTurn_read (s : State) {off : Nat} (h : off < 1024) (h4 : off % 4 = 0) :
    hostTurn (.readReg (s.cfg.raw.engineBase + off) 4) s = .next (State.returned (s.readReg (regAt s.cfg off))) := by
  simp [hostTurn, locate_ok s.cfg h h4]

theorem hostTurn_writeCtrl (s : State) (v : Word) :
    hostTurn (.writeReg s.cfg.raw.engineBase 4 v) s = .next (s.writeCtrl v) := by
  have := hostTurn_write s (off := 0) v (by omega) (by omega)
  simpa [regAt, State.writeReg] using this

@[simp] theorem regAt_status (c : Config) : regAt c 4 = .status := by simp [regAt]
@[simp] theorem regAt_cmd (c : Config) : regAt c 8 = .cmd := by simp [regAt]
@[simp] theorem regAt_arg (c : Config) (k : Fin 8) : regAt c (0x10 + 4 * k.val) = .arg k := by fin_cases k <;> rfl
@[simp] theorem regAt_res (c : Config) (k : Fin 4) : regAt c (0x30 + 4 * k.val) = .res k := by fin_cases k <;> rfl

/-- Where the register map of R17 ends: the windows of the voices that exist start at 0x100, and above them nothing is mapped. -/
theorem regAt_high (c : Config) {off : Nat} (h : 0x4C ≤ off) :
    regAt c off = if 0x100 ≤ off ∧ (off - 0x100) / 0x40 < c.raw.nVoices then
      .window ((off - 0x100) / 0x40) ((off - 0x100) % 0x40) else .reserved := by
  have away : ∀ k < 0x4C, off ≠ k := fun k hk => by omega
  simp [regAt, away, show ¬ off < 0x30 by omega, show ¬ off < 0x40 by omega]

theorem regAt_reserved (c : Config) (off : Nat)
    (h : off = 0x00C ∨ (0x04C ≤ off ∧ off < 0x100) ∨ 0x100 + 0x40 * c.raw.nVoices ≤ off) : regAt c off = .reserved := by
  rcases h with rfl | h
  · simp [regAt]
  · rw [regAt_high c (by omega)]
    exact if_neg fun hw => by omega

theorem regAt_window (c : Config) {v word : Nat} (hv : v < c.raw.nVoices) (hw : word < 64) :
    regAt c (256 + 64 * v + word) = .window v word := by
  have hi : 256 + 64 * v + word - 256 = 64 * v + word := by omega
  rw [regAt_high c (by omega), hi, show (64 * v + word) / 64 = v by omega, show (64 * v + word) % 64 = word by omega]
  exact if_pos ⟨by omega, hv⟩

/-- A host register read changes nothing but the count of used free values. -/
theorem readReg_state (s : State) (r : Reg) : ∃ n, (s.readReg r).2 = { s with mem := { s.mem with draws := n } } := by
  cases r <;> simp only [State.readReg, State.readWindow] <;> (repeat' split) <;> exact ⟨_, rfl⟩

end Sys2Proof.Machine
end

