-- ==== Sys2Proof/Laws/Kept.lean ====
section
/-! SUPPORT. What a command that passed its checks keeps of the machine's invariant: the voices it writes are bound and keep
`VoiceInv`, the buffers it writes lie in MEM. -/

namespace Sys2Proof.Machine

/-- A command that completes after its effect. -/
theorem EffectWithin.completed {i : Instr} {s s' : State} (h : EffectWithin i s s') : Completed s s'.complete := by
  have hf := h.fields
  constructor <;> simp <;> rw [hf]

/-- What BIND writes keeps the invariant. -/
theorem boundVoice_inv {v t : BitVec 4} {p : BitVec 2} {is8 odd : Bool} {s : State} (h : Bindable v t p is8 odd s) :
    VoiceInv s.cfg (boundVoice s.cfg t p is8 odd (s.arg 0) (s.arg 1)) := by
  obtain ⟨hw, hio, ho, hv, ht, hp, hr⟩ := h
  have hsb := Config.seed_bounds s.cfg p.toNat
  have hm := Config.memSize_bounds s.cfg
  rw [Region.inRange_iff] at hr
  simp only [State.count] at hr ho
  have hsz : (s.arg 1).toNat < 2147483648 := by omega
  constructor
  · exact ht
  · exact hp
  · simp only [boundVoice, Voice.stream]; rw [Region.inRange_iff]; exact hr
  · intro h
    simp only [boundVoice] at h
    exact ⟨by cases is8 <;> simp_all [boundVoice], ho h⟩
  · simp only [boundVoice, streamTotal, BitVec.toNat_ofNat]
    cases is8 <;> cases odd <;> simp <;> omega
  · simp [boundVoice]
  · cases is8 <;> simp [boundVoice]
  · simp [boundVoice, seeded]
  · simp only [boundVoice, seeded, shiftLimit8, shiftLimit4, BitVec.toNat_ofNat]
    cases is8 <;> simp <;> omega
  · simp [boundVoice, seeded, unityVol, volumeUnity, vshift]
  · simp [boundVoice, seeded, unityVol, volumeUnity, vshift]

/-- The voices a command writes exist, are bound and keep the invariant. -/
theorem effect_voices {i : Instr} {s : State} (hi : StateInv s) (hp : validate s.snapshot (checksOf i s) = .pass) :
    ∀ v ∈ voicesWrittenBy i s, v < s.cfg.raw.nVoices ∧ ((effectOf i s).2.voice v).bound = true ∧
      VoiceInv s.cfg ((effectOf i s).2.voice v) := by
  have hN := Config.nVoices_bounds s.cfg
  cases i with
  | nop | enc4 | enc8 | dec4 | dec8 | select | lookupDir | lookupFile => simp [voicesWrittenBy]
  | bind v t p is8 odd =>
    have hb := validate_bindChecks.1 hp
    have hv := hb.2.2.2.1
    intro w hw
    simp [voicesWrittenBy] at hw; subst hw
    have : (effectOf (.bind v t p is8 odd) s).2.voice v.toNat = boundVoice s.cfg t p is8 odd (s.arg 0) (s.arg 1) :=
      State.voice_setVoice_same s _ (by omega)
    rw [this]
    exact ⟨hv, rfl, boundVoice_inv hb⟩
  | rewind v =>
    have hb := validate_rewindChecks.1 hp
    intro w hw
    simp [voicesWrittenBy] at hw; subst hw
    have : (effectOf (.rewind v) s).2.voice v.toNat = (s.voice v.toNat).rewound s.cfg :=
      State.voice_setVoice_same s _ (by have := hb.1; omega)
    rw [this]
    exact ⟨hb.1, hb.2, rewound_inv (hi.bound _ hb.2)⟩
  | expand v add ove =>
    have hb := validate_expandChecks.1 hp
    obtain ⟨-, hvol, hv, hbd, -⟩ := hb
    intro w hw
    simp [voicesWrittenBy] at hw; subst hw
    have : (effectOf (.expand v add ove) s).2.voice v.toNat =
        (expandCore s.cfg s.base0 s.count s.expandVolume add ove ⟨s.voice v.toNat, s.wbuf, s.mem⟩).2.v :=
      State.voice_setVoice_same { s with wbuf := _, mem := _ } _ (by omega)
    rw [this]
    have := expandCore_inv s.cfg s.base0 s.count s.expandVolume add ove ⟨s.voice v.toNat, s.wbuf, s.mem⟩
      (by unfold State.expandVolume lowHalf; omega) (hi.bound _ hbd)
    exact ⟨hv, by rw [this.2.2.1.bound]; exact hbd, this.2.1⟩
  | fill ove =>
    have hb := validate_fillChecks.1 hp
    intro w hw
    simp only [voicesWrittenBy] at hw
    have h := fillFold_keeps s.fillFrames.base s.fillCount ove s.fillVoices
      ⟨0, 0, { s with mem := forUp (zeroFrame s.fillFrames.base) s.fillCount 0 s.mem }⟩ (fillVoices_lt s)
      (fun v hv => hi.bound v (hb.2.2.2.2.2 v hv).2.1)
    have h5 := h.2.2.2.2 w hw
    refine ⟨(hb.2.2.2.2.2 w hw).1, ?_, h5.1⟩
    exact h5.2.bound.trans (hb.2.2.2.2.2 w hw).2.1

/-! ### The buffers of a command -/

/-- Each buffer a command writes has its RANGE check (20_memory.md R40). -/
theorem writtenBy_checked (i : Instr) (s : State) :
    ∀ r ∈ writtenBy i s, ∃ reads, checkRange s reads r ∈ checksOf i s := by
  cases i <;> simp [writtenBy, bytesWrittenBy, checksOf, encChecks, decChecks, expandChecks, fillChecks, selectChecks,
    checkRange, Check.raises, checkAlign, checkOverlap, checkHighBits, checkVoice, checkBound, checkPair, checkStream, Check.needs]

/-- The bytes a command writes lie in the buffers it writes. -/
theorem bytesWrittenBy_sub {i : Instr} {s : State} {a : Nat} (h : ∃ r ∈ bytesWrittenBy i s, r.has a = true) :
    ∃ r ∈ writtenBy i s, r.has a = true := by
  cases i with
  | expand v add ove =>
    simp only [bytesWrittenBy, writtenBy, List.mem_singleton, exists_eq_left, State.producedFrames, State.wanted,
      State.expandFrames, Region.has_mk] at h ⊢
    omega
  | nop | enc4 | dec4 | enc8 | dec8 | bind | rewind | fill | select | lookupDir | lookupFile => exact h

/-- The checks of 40_lifecycle.md R64 alone, all passed. -/
theorem passed_of_running {f : ArgFile} {cs : List Check} (h : validate f (cs.filter Check.raisesError) = .pass) :
    ∀ c ∈ cs, c.raisesError = true → c.passed f := by
  intro c hc he
  refine passed_of_validate (fun d hd _ hp => ?_) h c (List.mem_filter.2 ⟨hc, he⟩)
  have := (List.mem_filter.1 hd).2
  simp [Check.raisesError, hp] at this

/-- The buffers a command writes lie in MEM, once the checks of 40_lifecycle.md R64 are passed. -/
theorem writtenBy_inRange {i : Instr} {s : State}
    (hp : validate s.snapshot ((checksOf i s).filter Check.raisesError) = .pass) :
    ∀ r ∈ writtenBy i s, r.inRange s.cfg.raw.memSize = true := by
  intro r hr
  obtain ⟨reads, hc⟩ := writtenBy_checked i s r hr
  simpa [checkRange, Check.raises] using (passed_of_running hp _ hc rfl).2

theorem checksOf_strict (i : Instr) (s : State) : ∀ c ∈ checksOf i s, c.strict := by
  cases i with
  | fill ove => exact fillChecks_strict s
  | nop | enc4 | dec4 | enc8 | dec8 | bind | expand | rewind | select | lookupDir | lookupFile =>
    simp [checksOf, nopChecks, encChecks, decChecks, bindChecks, expandChecks, rewindChecks, selectChecks, lookupChecks, checkPair,
      checkAlign, checkRange, checkOverlap, checkHighBits, checkVoice, checkBound, raises_strict, checkStream_strict, needs_strict]

/-- A command that passed all its checks passed those of 40_lifecycle.md R64. -/
theorem running_of_pass {i : Instr} {s : State} (h : validate s.snapshot (checksOf i s) = .pass) :
    validate s.snapshot ((checksOf i s).filter Check.raisesError) = .pass :=
  validate_of_passed fun c hc => passed_of_validate (checksOf_strict i s) h c (List.mem_filter.1 hc).1

/-- Which command runs, and its footprint, do not depend on MEM. -/
theorem running_mem (s : State) (m : MemPort) : ({ s with mem := m } : State).running = s.running := by
  have hc : ∀ i, checksOf i { s with mem := m } = checksOf i s := fun i => by cases i <;> rfl
  simp only [State.running, hc]

theorem footprint_mem (s : State) (m : MemPort) : ({ s with mem := m } : State).footprint = s.footprint := by
  have hw : ∀ i, writtenBy i { s with mem := m } ++ readBy i { s with mem := m } = writtenBy i s ++ readBy i s :=
    fun i => by cases i <;> rfl
  simp only [State.footprint, running_mem, hw]

/-- Everything `State.running` can answer. -/
theorem running_eq_some {s : State} {i : Instr} (h : s.running = some i) :
    s.phase = .busy ∧ decode s.cmd = .ok i ∧ validate s.snapshot ((checksOf i s).filter Check.raisesError) = .pass := by
  unfold State.running at h
  split at h
  · rename_i hp hd
    split at h
    · rename_i hv
      cases h
      exact ⟨hp, hd, hv⟩
    · cases h
  · cases h

/-- The buffers the running command writes lie in MEM. -/
theorem writtenNow_inRange (s : State) : ∀ r ∈ s.writtenNow, r.inRange s.cfg.raw.memSize = true := by
  intro r hr
  unfold State.writtenNow at hr
  split at hr
  · rename_i i hi
    exact writtenBy_inRange (running_eq_some hi).2.2 r hr
  · cases hr

/-- No cell appears outside MEM. -/
theorem effect_memIn {i : Instr} {s s' : State} (hi : StateInv s) (hp : validate s.snapshot (checksOf i s) = .pass)
    (h : EffectWithin i s s') :
    ∀ c ∈ s'.mem.cells, c.1 < s.cfg.raw.memSize := by
  have hone : bytesWrittenBy i s = [] ∨ ∃ r, bytesWrittenBy i s = [r] := by cases i <;> simp [bytesWrittenBy]
  intro c hc
  rcases hone with hn | ⟨r, hr⟩
  · rw [(h.mem ⟨0, 0⟩ (by simp [hn])).empty rfl] at hc
    exact hi.memIn c hc
  · rcases (h.mem r (by simp [hr])).cells c hc with hc | hc
    · exact hi.memIn c hc
    · obtain ⟨q, hq, hin⟩ := bytesWrittenBy_sub (i := i) (s := s) ⟨r, by rw [hr]; exact List.mem_singleton_self r, hc⟩
      have := writtenBy_inRange (running_of_pass hp) q hq
      rw [Region.inRange_iff] at this
      simp only [Region.has, Bool.and_eq_true, decide_eq_true_eq] at hin
      omega

end Sys2Proof.Machine
end

