-- ==== Sys2Proof/Laws/PerInstr.lean ====
section
/-! SUPPORT. The family RowSelection: the word of an instruction is selected by its own row of the opcode table and by no other
(30_encoding.md R54). -/

namespace Sys2Proof

/-- The fields masked one by one. -/
def Fields.mask (f g : Fields) : Fields :=
  ⟨f.rsv &&& g.rsv, f.pred &&& g.pred, f.odd &&& g.odd, f.is8 &&& g.is8, f.ove &&& g.ove, f.add &&& g.add,
    f.table &&& g.table, f.voice &&& g.voice, f.opc &&& g.opc⟩

theorem Fields.toWord_and (f g : Fields) : f.toWord &&& g.toWord = (f.mask g).toWord := by
  simp only [Fields.toWord, Fields.mask, ← BitVec.and_append]

theorem Fields.toWord_inj {f g : Fields} : f.toWord = g.toWord ↔ f = g :=
  ⟨fun h => by rw [← Fields.ofWord_toWord f, h, Fields.ofWord_toWord], fun h => h ▸ rfl⟩

/-- A row selects a word exactly when the word's fields, masked, are the row's. -/
theorem OpcodeRow.selects_toWord (r : OpcodeRow) (f : Fields) :
    r.selects f.toWord = true ↔ f.mask (Fields.ofWord r.mask) = Fields.ofWord r.value := by
  rw [OpcodeRow.selects, beq_iff_eq]
  conv_lhs => rw [← Fields.toWord_ofWord r.mask, ← Fields.toWord_ofWord r.value]
  rw [Fields.toWord_and, Fields.toWord_inj]

namespace Laws.RowSelection

/-- The instruction's own row selects its word, and no other row does. -/
def Statement (i : Instr) : Prop := ∀ r ∈ opcodeTable, (r.selects (encode i) = true ↔ r.mnemonic = i.mnemonic)

theorem nop : Statement .nop := by
  unfold Statement encode opcodeTable
  simp [OpcodeRow.selects_toWord, Instr.fields, Fields.only, Fields.mask, Fields.ofWord, Instr.mnemonic]

theorem enc4 (t : BitVec 4) (p : BitVec 2) : Statement (.enc4 t p) := by
  unfold Statement encode opcodeTable
  simp [OpcodeRow.selects_toWord, Instr.fields, Fields.only, Fields.mask, Fields.ofWord, Instr.mnemonic]

theorem dec4 (t : BitVec 4) (p : BitVec 2) (add ove : Bool) : Statement (.dec4 t p add ove) := by
  unfold Statement encode opcodeTable
  simp [OpcodeRow.selects_toWord, Instr.fields, Fields.only, Fields.mask, Fields.ofWord, Instr.mnemonic]

theorem enc8 (t : BitVec 4) (p : BitVec 2) : Statement (.enc8 t p) := by
  unfold Statement encode opcodeTable
  simp [OpcodeRow.selects_toWord, Instr.fields, Fields.only, Fields.mask, Fields.ofWord, Instr.mnemonic]

theorem dec8 (t : BitVec 4) (p : BitVec 2) (add ove : Bool) : Statement (.dec8 t p add ove) := by
  unfold Statement encode opcodeTable
  simp [OpcodeRow.selects_toWord, Instr.fields, Fields.only, Fields.mask, Fields.ofWord, Instr.mnemonic]

theorem bind (v t : BitVec 4) (p : BitVec 2) (is8 odd : Bool) : Statement (.bind v t p is8 odd) := by
  unfold Statement encode opcodeTable
  simp [OpcodeRow.selects_toWord, Instr.fields, Fields.only, Fields.mask, Fields.ofWord, Instr.mnemonic]

theorem expand (v : BitVec 4) (add ove : Bool) : Statement (.expand v add ove) := by
  unfold Statement encode opcodeTable
  simp [OpcodeRow.selects_toWord, Instr.fields, Fields.only, Fields.mask, Fields.ofWord, Instr.mnemonic]

theorem rewind (v : BitVec 4) : Statement (.rewind v) := by
  unfold Statement encode opcodeTable
  simp [OpcodeRow.selects_toWord, Instr.fields, Fields.only, Fields.mask, Fields.ofWord, Instr.mnemonic]

theorem fill (ove : Bool) : Statement (.fill ove) := by
  unfold Statement encode opcodeTable
  simp [OpcodeRow.selects_toWord, Instr.fields, Fields.only, Fields.mask, Fields.ofWord, Instr.mnemonic]

theorem select (is8 : Bool) : Statement (.select is8) := by
  unfold Statement encode opcodeTable
  simp [OpcodeRow.selects_toWord, Instr.fields, Fields.only, Fields.mask, Fields.ofWord, Instr.mnemonic]

theorem lookupDir : Statement .lookupDir := by
  unfold Statement encode opcodeTable
  simp [OpcodeRow.selects_toWord, Instr.fields, Fields.only, Fields.mask, Fields.ofWord, Instr.mnemonic]

theorem lookupFile : Statement .lookupFile := by
  unfold Statement encode opcodeTable
  simp [OpcodeRow.selects_toWord, Instr.fields, Fields.only, Fields.mask, Fields.ofWord, Instr.mnemonic]

end Laws.RowSelection

end Sys2Proof
end

