-- ==== Sys2Proof/Laws/Search.lean ====
section
/-! SUPPORT. The searches without races: the trials of SELECT (44_select.md R110, R111) and the scans of the lookups
(45_manifest.md R117, R119). -/

namespace Sys2Proof.Machine

/-! ### SELECT -/

theorem candidatePairs_mem {tm pm : Word} {tp : Nat × Nat} :
    tp ∈ candidatePairs tm pm ↔ (tp.1 < 16 ∧ tm.getLsbD tp.1 = true) ∧ tp.2 < 4 ∧ pm.getLsbD tp.2 = true := by
  obtain ⟨t, p⟩ := tp
  simp only [candidatePairs, List.mem_flatMap, List.mem_filter, List.mem_range, List.mem_map, Prod.mk.injEq]
  constructor
  · rintro ⟨t', ⟨h1, h2⟩, p', ⟨h3, h4⟩, rfl, rfl⟩
    exact ⟨⟨h1, h2⟩, h3, h4⟩
  · rintro ⟨⟨h1, h2⟩, h3, h4⟩
    exact ⟨t, ⟨h1, h2⟩, p, ⟨h3, h4⟩, rfl, rfl⟩

theorem lt_of_mask {w : Word} {n i : Nat} (h : w.toNat < 2 ^ n) (hi : w.getLsbD i = true) : i < n := by
  by_contra hn
  have : w.toNat < 2 ^ i := lt_of_lt_of_le h (Nat.pow_le_pow_right (by omega) (by omega))
  have h2 : w.getLsbD i = false := by
    rw [BitVec.getLsbD, Nat.testBit_lt_two_pow this]
  rw [h2] at hi
  cases hi

theorem exists_bit {w : Word} {n : Nat} (h : w.toNat < 2 ^ n) (h0 : w ≠ 0) : ∃ i < n, w.getLsbD i = true := by
  by_contra hc
  apply h0
  apply BitVec.eq_of_getLsbD_eq
  intro i _
  by_contra hb
  have hb' : w.getLsbD i = true := by
    have : (0 : Word).getLsbD i = false := BitVec.getLsbD_zero
    rw [this] at hb
    simpa using hb
  exact hc ⟨i, lt_of_mask h hb', hb'⟩

/-- What the trials keep: the first least of the pairs tried. -/
theorem tryPairs_spec (cfg : Config) (is8 : Bool) (src n : Nat) {m : MemPort} (hq : m.races = []) (l done : List (Nat × Nat))
    (hl : ∀ tp ∈ l, tp.1 < cfg.nTables) (best : Option Candidate)
    (hb : match best with
      | none => done = []
      | some c => c.sse = encodedSSE cfg is8 c.t c.p (samplesAt m src n) ∧
          FirstLeast (fun tp => encodedSSE cfg is8 tp.1 tp.2 (samplesAt m src n)) done (c.t, c.p)) :
    ∃ best', l.foldl (tryPair cfg is8 src n) (best, m) = (best', m) ∧
      match best' with
      | none => done ++ l = []
      | some c => c.sse = encodedSSE cfg is8 c.t c.p (samplesAt m src n) ∧
          FirstLeast (fun tp => encodedSSE cfg is8 tp.1 tp.2 (samplesAt m src n)) (done ++ l) (c.t, c.p) := by
  induction l generalizing done best with
  | nil => exact ⟨best, rfl, by simpa using hb⟩
  | cons tp l ih =>
    have ht := trial_spec cfg is8 src n tp.1 tp.2 hq (hl tp (by simp))
    rw [show done ++ tp :: l = (done ++ [tp]) ++ l by simp, List.foldl_cons]
    unfold tryPair
    simp only [ht]
    cases best with
    | none =>
      subst hb
      exact ih [tp] (fun q hq => hl q (by simp [hq])) _ ⟨rfl, [], [], rfl, by simp, by simp⟩
    | some c =>
      obtain ⟨hc, before, after, hd, h1, h2⟩ := hb
      simp only at h1 h2
      dsimp only
      split
      · rename_i hlt
        rw [hc] at hlt
        refine ih (done ++ [tp]) (fun q hq => hl q (by simp [hq])) _ ⟨rfl, done, [], rfl, ?_, by simp⟩
        intro q hqm
        simp only [hd, List.mem_append, List.mem_cons] at hqm
        rcases hqm with hqm | rfl | hqm
        · exact lt_trans hlt (h1 q hqm)
        · exact hlt
        · exact lt_of_lt_of_le hlt (h2 q hqm)
      · rename_i hge
        rw [hc] at hge
        refine ih (done ++ [tp]) (fun q hq => hl q (by simp [hq])) _ ⟨hc, before, after ++ [tp], by simp [hd], h1, ?_⟩
        intro q hqm
        rcases List.mem_append.1 hqm with hqm | hqm
        · exact h2 q hqm
        · simp only [List.mem_singleton] at hqm
          subst hqm
          exact not_lt.1 hge

/-- The winner of SELECT, its error, and that the trials change nothing. -/
theorem bestPair_spec (s : State) (is8 : Bool) (hq : s.mem.races = []) (ht0 : s.tableMask ≠ 0) (hp0 : s.predMask ≠ 0)
    (ht16 : s.tableMask.toNat < 2 ^ 16) (hp4 : s.predMask.toNat < 2 ^ 4) (htn : s.tableMask.toNat < 2 ^ s.cfg.nTables) :
    (bestPair s is8).2 = s.mem ∧
      (bestPair s is8).1.sse =
        encodedSSE s.cfg is8 (bestPair s is8).1.t (bestPair s is8).1.p (samplesAt s.mem s.srcBase s.count) ∧
      FirstLeast (fun tp => encodedSSE s.cfg is8 tp.1 tp.2 (samplesAt s.mem s.srcBase s.count))
        (candidatePairs s.tableMask s.predMask) ((bestPair s is8).1.t, (bestPair s is8).1.p) := by
  obtain ⟨best, h1, h2⟩ := tryPairs_spec s.cfg is8 s.srcBase s.count hq (candidatePairs s.tableMask s.predMask) []
    (fun tp h => lt_of_mask htn (candidatePairs_mem.1 h).1.2) none rfl
  unfold bestPair
  rw [h1]
  cases best with
  | none =>
    exfalso
    obtain ⟨t, htlt, htb⟩ := exists_bit ht16 ht0
    obtain ⟨p, hplt, hpb⟩ := exists_bit hp4 hp0
    have : (t, p) ∈ candidatePairs s.tableMask s.predMask := candidatePairs_mem.2 ⟨⟨htlt, htb⟩, hplt, hpb⟩
    simp only [List.nil_append] at h2
    rw [h2] at this
    simp at this
  | some c => exact ⟨rfl, h2.1, by simpa using h2.2⟩

theorem FirstLeast.mem {f : Nat × Nat → Nat} {l : List (Nat × Nat)} {w : Nat × Nat} (h : FirstLeast f l w) : w ∈ l := by
  obtain ⟨b, a, rfl, -⟩ := h
  simp

/-! ### Lookups -/

theorem readBytes_bytesAt {p : MemPort} (h : p.races = []) (a n : Nat) : p.readBytes a n = (bytesAt p a n, p) :=
  MemPort.readBytes_quiet h a n

theorem nameEq_quiet {p : MemPort} (h : p.races = []) (a : Nat) (name : List Byte) :
    nameEq a name p = (recordName p a == name, p) := by
  simp [nameEq, readBytes_bytesAt h, recordName]

theorem allZero_iff {p : MemPort} (a : Nat) :
    ((recordName p a).all fun b => b == 0) = true ↔ recordName p a = List.replicate 8 0 := by
  rw [List.all_eq_true, List.eq_replicate_iff]
  simp [recordName, bytesAt]

/-- The directory scan: the record it finds, or that there is none. -/
theorem dirScan_spec (cfg : Config) (i : Nat) (name : List Byte) {p : MemPort} (h : p.races = []) (left k : Nat)
    (hk : k + left = cfg.raw.numDir) (hused : ∀ j < k, recordName p (dirRecord i j) ≠ List.replicate 8 0)
    (hno : ∀ j < k, recordName p (dirRecord i j) ≠ name) :
    ∃ r, dirScan i name left k p = (r, p) ∧
      match r with
      | some j => isDir cfg p i name j
      | none => ∀ j, ¬ isDir cfg p i name j := by
  induction left generalizing k with
  | zero =>
    exact ⟨none, rfl, fun j hj => hno j (by have := hj.1; omega) hj.2.2.1⟩
  | succ left ih =>
    unfold dirScan
    simp only [readBytes_bytesAt h, nameEq_quiet h]
    by_cases hz : ((bytesAt p (dirRecord i k) 8).all fun b => b == 0) = true
    · simp only [hz, if_true]
      refine ⟨none, rfl, fun j hj => ?_⟩
      have hzk := (allZero_iff (p := p) (dirRecord i k)).1 hz
      rcases Nat.lt_or_ge j k with hlt | hge
      · exact hno j hlt hj.2.2.1
      · exact hj.2.1 k hge hzk
    · have hz' : recordName p (dirRecord i k) ≠ List.replicate 8 0 := fun he => hz ((allZero_iff _).2 he)
      simp only [hz, if_false, Bool.false_eq_true]
      by_cases hn : recordName p (dirRecord i k) = name
      · simp only [hn, BEq.rfl, if_true]
        refine ⟨some k, rfl, ⟨by omega, fun j hj => ?_, hn, hno⟩⟩
        rcases Nat.lt_or_ge j k with hlt | hge
        · exact hused j hlt
        · rw [show j = k by omega]; exact hz'
      · have hb : (recordName p (dirRecord i k) == name) = false := by simpa using hn
        simp only [hb, Bool.false_eq_true, if_false]
        refine ih (k + 1) (by omega) (fun j hj => ?_) (fun j hj => ?_)
        · rcases Nat.lt_or_ge j k with hlt | hge
          · exact hused j hlt
          · rw [show j = k by omega]; exact hz'
        · rcases Nat.lt_or_ge j k with hlt | hge
          · exact hno j hlt
          · rw [show j = k by omega]; exact hn

/-- The file scan: the record it finds, or that there is none. -/
theorem fileScan_spec (cfg : Config) (i : Nat) (name : List Byte) {p : MemPort} (h : p.races = []) (first count left j : Nat)
    (hj : j + left = first + count) (hf : first ≤ j)
    (hno : ∀ l, first ≤ l → l < j → recordName p (fileRecord cfg i l) ≠ name) :
    ∃ r, fileScan cfg i name left j p = (r, p) ∧
      match r with
      | some k => isFile cfg p i first count name k
      | none => ∀ k, ¬ isFile cfg p i first count name k := by
  induction left generalizing j with
  | zero =>
    exact ⟨none, rfl, fun k hk => hno k hk.1 (by have := hk.2.1; omega) hk.2.2.1⟩
  | succ left ih =>
    unfold fileScan
    simp only [nameEq_quiet h]
    by_cases hn : recordName p (fileRecord cfg i j) = name
    · simp only [hn, BEq.rfl, if_true]
      exact ⟨some j, rfl, hf, by omega, hn, hno⟩
    · have hb : (recordName p (fileRecord cfg i j) == name) = false := by simpa using hn
      simp only [hb, Bool.false_eq_true, if_false]
      refine ih (j + 1) (by omega) (by omega) (fun l h1 h2 => ?_)
      rcases Nat.lt_or_ge l j with hlt | hge
      · exact hno l h1 hlt
      · rw [show l = j by omega]; exact hn

theorem dirRun_quiet {p : MemPort} (h : p.races = []) (i k : Nat) : dirRun i k p = ((dirFirst p i k, dirCount p i k), p) := by
  simp [dirRun, readLE4_quiet h, dirFirst, dirCount, word3Size]

end Sys2Proof.Machine
end

