-- ==== Sys2Proof/Laws/Validation.lean ====
section
/-! SUPPORT. The order of validation: checks grouped by their error code answer the first code one of whose checks fails, and
the checks' conditions in the terms of Safety.lean. -/

namespace Sys2Proof.Machine

theorem validate_group (f : ArgFile) (cs1 cs2 : List Check) (e : ErrCode) (hc : ∀ c ∈ cs1, c.answer = .error e)
    (hw : ∀ c ∈ cs1, ∀ k ∈ c.reads, f.written[k] = true) :
    validate f (cs1 ++ cs2) = if ∃ c ∈ cs1, c.fails = true then .error e else validate f cs2 := by
  induction cs1 with
  | nil => simp
  | cons c cs ih =>
    have h1 := find_unwritten_none.2 (hw c (by simp))
    simp only [List.cons_append, validate, h1, List.mem_cons, exists_eq_or_imp]
    rw [ih (fun c h => hc c (by simp [h])) (fun c h => hw c (by simp [h])), hc c (by simp)]
    by_cases h : c.fails = true <;> simp [h]

theorem first_of_chain (m : Conditions) (P1 P2 P3 P4 P5 P6 : Prop) [Decidable P1] [Decidable P2] [Decidable P3]
    [Decidable P4] [Decidable P5] [Decidable P6] (V : Verdict) (m1 : m.illegal ↔ P1) (m2 : m.voice ↔ P2)
    (m3 : m.table ↔ P3) (m4 : m.align ↔ P4) (m5 : m.range ↔ P5) (m6 : m.overlap ↔ P6) (h7 : P2 ∨ V = .pass) :
    let r := if P1 then Verdict.error .illegal else if P2 then .error .voice else if P3 then .error .table
      else if P4 then .error .align else if P5 then .error .range else if P6 then .error .overlap else V
    (∀ c, c ≠ .none → m.first c → r = .error c) ∧ (m.first .none → r = .pass) := by
  constructor
  · intro c hc h
    cases c <;> simp_all [Conditions.first]
  · intro h
    simp_all [Conditions.first]

/-- Checks in the order of the error codes answer the first condition met (40_lifecycle.md R64). The checks after them (`L7`)
fail only when a VOICE check does. -/
theorem validate_in_order (f : ArgFile) (m : Conditions) (L1 L2 L3 L4 L5 L6 L7 : List Check)
    (c1 : ∀ c ∈ L1, c.answer = .error .illegal) (c2 : ∀ c ∈ L2, c.answer = .error .voice)
    (c3 : ∀ c ∈ L3, c.answer = .error .table) (c4 : ∀ c ∈ L4, c.answer = .error .align)
    (c5 : ∀ c ∈ L5, c.answer = .error .range) (c6 : ∀ c ∈ L6, c.answer = .error .overlap)
    (m1 : m.illegal ↔ ∃ c ∈ L1, c.fails = true) (m2 : m.voice ↔ ∃ c ∈ L2, c.fails = true)
    (m3 : m.table ↔ ∃ c ∈ L3, c.fails = true) (m4 : m.align ↔ ∃ c ∈ L4, c.fails = true)
    (m5 : m.range ↔ ∃ c ∈ L5, c.fails = true) (m6 : m.overlap ↔ ∃ c ∈ L6, c.fails = true)
    (h7 : (∃ c ∈ L2, c.fails = true) ∨ ∀ c ∈ L7, c.fails = false)
    (hw : ∀ c ∈ L1 ++ (L2 ++ (L3 ++ (L4 ++ (L5 ++ (L6 ++ L7))))), ∀ k ∈ c.reads, f.written[k] = true) :
    let cs := L1 ++ (L2 ++ (L3 ++ (L4 ++ (L5 ++ (L6 ++ L7)))))
    (∀ c, c ≠ .none → m.first c → validate f cs = .error c) ∧ (m.first .none → validate f cs = .pass) := by
  simp only [List.forall_mem_append] at hw
  obtain ⟨w1, w2, w3, w4, w5, w6, w7⟩ := hw
  intro cs
  rw [validate_group _ _ _ _ c1 w1, validate_group _ _ _ _ c2 w2, validate_group _ _ _ _ c3 w3,
    validate_group _ _ _ _ c4 w4, validate_group _ _ _ _ c5 w5, validate_group _ _ _ _ c6 w6]
  exact first_of_chain m _ _ _ _ _ _ (validate f L7) m1 m2 m3 m4 m5 m6
    (h7.imp_right fun h => validate_of_passed fun c hc => ⟨w7 c hc, h c hc⟩)

theorem sharesByte_iff (r q : Region) : sharesByte r q ↔ r.overlaps q = true := by
  unfold sharesByte
  simp only [Region.has, Region.overlaps, Bool.and_eq_true, decide_eq_true_eq]
  constructor
  · rintro ⟨a, h1, h2⟩; omega
  · rintro h
    exact ⟨max r.base q.base, by omega, by omega⟩

theorem leavesMem_iff (s : State) (r : Region) : leavesMem s r ↔ r.inRange s.cfg.raw.memSize = false := by
  rw [← Bool.not_eq_true, Region.inRange_iff, leavesMem]
  omega

theorem highBits_iff (w : Word) (n : Nat) : ¬ (w >>> n = 0#32) ↔ 2 ^ n ≤ w.toNat := by
  have := shiftRight_eq_zero_iff (w := w) (n := n)
  rw [beq_iff_eq] at this
  rw [show (w >>> n = 0#32) ↔ w.toNat < 2 ^ n from this]
  omega

theorem highMask_iff (w : Word) (n : Nat) : ¬ (w >>> n = 0#32) ↔ ∃ i, w.getLsbD i = true ∧ n ≤ i := by
  constructor
  · intro h
    by_contra hc
    apply h
    apply BitVec.eq_of_getLsbD_eq
    intro i hi
    simp only [BitVec.getLsbD_ushiftRight, BitVec.getLsbD_zero]
    by_contra h2
    exact hc ⟨n + i, by simpa using h2, by omega⟩
  · rintro ⟨i, h1, h2⟩ h
    have := congrArg (fun x => x.getLsbD (i - n)) h
    simp only [BitVec.getLsbD_ushiftRight, BitVec.getLsbD_zero] at this
    rw [show n + (i - n) = i by omega, h1] at this
    cases this

end Sys2Proof.Machine
end

