-- ==== Sys2Proof/Machine/Assembler.lean ====
section
/-! DEFINITION. The host's side of a command: the assembled form and the pseudo-commands (30_encoding.md R60, R61). They are
host register accesses only; the engine sees the real commands. -/

namespace Sys2Proof.Machine

/-- A 32-bit write at an offset of the register block. -/
def writeAt (cfg : Config) (off : Nat) (v : Word) : Turn := .host (.writeReg (cfg.raw.engineBase + off) 4 v)
/-- A 32-bit read at an offset of the register block. -/
def readAt (cfg : Config) (off : Nat) : Turn := .host (.readReg (cfg.raw.engineBase + off) 4)

/-- WAIT (R61): the engine completes, and the host reads STATUS with BUSY = 0. -/
def waitTurns (cfg : Config) : List Turn := [.engine, readAt cfg 0x004]

/-- ACK (R61): DONE, ERR and OVR are cleared. -/
def ackTurns (cfg : Config) : List Turn := [writeAt cfg 0x004 0x0000000E]

/-- The ARG writes of a command, ARG0 first (R60). -/
def argWrites (cfg : Config) : Nat → List Word → List Turn
  | _, [] => []
  | k, v :: vs => writeAt cfg (0x010 + 4 * k) v :: argWrites cfg (k + 1) vs

/-- A command with its ARG values as the host issues it (R60): the ARG writes, the CMD write, WAIT. -/
def assemble (cfg : Config) (i : Instr) (args : List Word) : List Turn :=
  argWrites cfg 0 args ++ [writeAt cfg 0x008 (encode i)] ++ waitTurns cfg

/-- Four bytes as a register, least significant first. -/
def wordOf (bs : List Byte) : Word :=
  bs.getD 3 0 ++ bs.getD 2 0 ++ bs.getD 1 0 ++ bs.getD 0 0

/-- A quoted name as two ARG values, padded with 0x00; a longer name is an assembly error (R60). -/
def packName (n : List Byte) : Option (Word × Word) :=
  if n.length ≤ 8 then some (wordOf n, wordOf (n.drop 4)) else none

/-- Two volumes as one ARG value of FILL (R60, 43_expander.md R109). -/
def packVolumes (even odd : BitVec 16) : Word := odd ++ even

/-- SILENCE (R61): a FILL with empty masks. -/
def silenceTurns (cfg : Config) (dst n : Word) : List Turn := assemble cfg (.fill false) [0, 0, dst, n]

/-- The first half of PLAY (R61): the lookup. -/
def playLookup (cfg : Config) (image : Word) (dir file : Word × Word) : List Turn :=
  assemble cfg .lookupFile [image, dir.1, dir.2, file.1, file.2]

/-- The second half of PLAY (R61), after the lookup has completed: nothing if the file was not found, else the BIND the host
builds from RES2 and RES3. -/
def playBind (s : State) (v : BitVec 4) : List Turn :=
  let w := s.res[2]
  if s.res[0] = notFound then []
  else assemble s.cfg (.bind v (word3Table w) (word3Pred w) (word3Is8 w) (word3Short w))
    [s.res[3], BitVec.ofNat 32 (word3Size w)]

/-- A bare flag of the assembler text. -/
def flagText (name : String) (b : Bool) : String := if b then " " ++ name else ""
/-- A `name=value` field of the assembler text. -/
def fieldText (name : String) (n : Nat) : String := " " ++ name ++ "=" ++ toString n

/-- The word fields of a command in the assembler text (R60). -/
def fieldsText : Instr → String
  | .nop => ""
  | .enc4 t p => fieldText "t" t.toNat ++ fieldText "p" p.toNat
  | .dec4 t p a o => fieldText "t" t.toNat ++ fieldText "p" p.toNat ++ flagText "add" a ++ flagText "ove" o
  | .enc8 t p => fieldText "t" t.toNat ++ fieldText "p" p.toNat
  | .dec8 t p a o => fieldText "t" t.toNat ++ fieldText "p" p.toNat ++ flagText "add" a ++ flagText "ove" o
  | .bind v t p i8 o =>
    fieldText "v" v.toNat ++ fieldText "t" t.toNat ++ fieldText "p" p.toNat ++ flagText "is8" i8 ++ flagText "odd" o
  | .expand v a o => fieldText "v" v.toNat ++ flagText "add" a ++ flagText "ove" o
  | .rewind v => fieldText "v" v.toNat
  | .fill o => flagText "ove" o
  | .select i8 => flagText "is8" i8
  | .lookupDir => ""
  | .lookupFile => ""

/-- A command in the assembler text (R60): mnemonic, word fields, ARG values in order. -/
def asmText (i : Instr) (args : List Word) : String :=
  i.mnemonic ++ fieldsText i ++ String.join (args.map fun a => ", " ++ toString a.toNat)

end Sys2Proof.Machine
end

