-- ==== Sys2Proof/WellFormed.lean ====
section
/-! DEFINITION. Well-formed commands. The fields of `Instr` have the widths of 30_encoding.md R51, so every term has a word;
the one combination of fields that a command's rule forbids in the word itself is BIND with IS8 = 1 and ODD = 1
(43_expander.md R102). A command may further name a voice, table or predictor the configuration lacks: legal in the word
(30_encoding.md R55), out of configuration here. -/

namespace Sys2Proof

/-- The word's fields are a combination the command's rule allows (43_expander.md R102: not IS8 = 1 with ODD = 1). -/
def Instr.wellFormed : Instr → Bool
  | .nop => true
  | .enc4 _ _ => true
  | .dec4 _ _ _ _ => true
  | .enc8 _ _ => true
  | .dec8 _ _ _ _ => true
  | .bind _ _ _ is8 odd => !(is8 && odd)
  | .expand _ _ _ => true
  | .rewind _ => true
  | .fill _ => true
  | .select _ => true
  | .lookupDir => true
  | .lookupFile => true

/-- TABLE and PRED name a table set and a seed of the configuration (30_encoding.md R55, 60_exceptions.md R122). -/
def Config.hasPair (c : Config) (table : BitVec 4) (pred : BitVec 2) : Bool :=
  decide (table.toNat < c.nTables) && decide (pred.toNat < c.nPred)

/-- The voice, table and predictor the word names exist in the configuration (30_encoding.md R55). -/
def Instr.inConfig (c : Config) : Instr → Bool
  | .nop => true
  | .enc4 t p => c.hasPair t p
  | .dec4 t p _ _ => c.hasPair t p
  | .enc8 t p => c.hasPair t p
  | .dec8 t p _ _ => c.hasPair t p
  | .bind v t p _ _ => decide (v.toNat < c.raw.nVoices) && c.hasPair t p
  | .expand v _ _ => decide (v.toNat < c.raw.nVoices)
  | .rewind v => decide (v.toNat < c.raw.nVoices)
  | .fill _ => true
  | .select _ => true
  | .lookupDir => true
  | .lookupFile => true

end Sys2Proof
end

