-- ==== Sys2Proof/Tests/Slice0.lean ====
section
/-! SUPPORT. The model's own tests, expected values from 95_test_vectors.md, and a witness for the hypotheses of every
statement that has any. -/

namespace Sys2Proof.Tests
set_option Elab.async false
open Sys2Proof Sys2Proof.Machine

/-! ### Smoke tests: one ill-formed configuration or command for each check -/

theorem test_x_accepted : (Config.build Config.rawX).isSome = true := by decide +kernel
theorem test_wf1_refuses : Config.build { Config.rawX with tables := [] } = none := by decide +kernel
theorem test_wf2_refuses :
    Config.build { Config.rawX with tables := Config.rawX.tables.map fun t => { t with step4 := 9 :: t.step4.tail } } = none := by
  decide +kernel
theorem test_wf2_refuses_a_short_table :
    Config.build { Config.rawX with tables := Config.rawX.tables.map fun t => { t with step4 := t.step4.tail } } = none := by
  decide +kernel
theorem test_wf3_refuses :
    Config.build { Config.rawX with tables := Config.rawX.tables.map fun t => { t with step4 := List.replicate 16 1 } } = none := by
  decide +kernel
theorem test_wf4_refuses :
    Config.build { Config.rawX with tables := Config.rawX.tables.map fun t => { t with delta8 := 128 :: t.delta8.tail } } = none := by
  decide +kernel
theorem test_wf5_refuses : Config.build { Config.rawX with seeds := List.replicate 5 ⟨0, 0, 0⟩ } = none := by decide +kernel
theorem test_wf6_refuses : Config.build { Config.rawX with seeds := [⟨0, 0, 9⟩] } = none := by decide +kernel
theorem test_wf7_refuses : Config.build { Config.rawX with bufferSize := 4096 } = none := by decide +kernel
theorem test_wf8_refuses : Config.build { Config.rawX with nVoices := 9 } = none := by decide +kernel
theorem test_wf9_refuses : Config.build { Config.rawX with memSize := 2 ^ 31 } = none := by decide +kernel
theorem test_wf10_refuses : Config.build { Config.rawX with heapOffset := 0xBF } = none := by decide +kernel
theorem test_wf11_refuses : Config.build { Config.rawX with easing := 0 } = none := by decide +kernel
theorem test_wf12_refuses : Config.build { Config.rawX with numDir := 65536, heapOffset := 2 ^ 21, imageSize := 2 ^ 21 } = none := by
  decide +kernel
theorem test_devices_in_mem_refused : Config.build { Config.rawX with memIsPlain := false } = none := by decide +kernel
theorem test_bind_is8_odd_ill_formed : (Instr.bind 0 0 0 true true).wellFormed = false := by decide
theorem test_out_of_config : (Instr.enc4 2 0).inConfig Config.x = false ∧ (Instr.dec8 0 2 false false).inConfig Config.x = false ∧
    (Instr.bind 2 0 0 false false).inConfig Config.x = false ∧ (Instr.bind 1 2 0 false false).inConfig Config.x = false ∧
    (Instr.expand 2 false false).inConfig Config.x = false ∧ (Instr.rewind 3).inConfig Config.x = false := by decide +kernel

/-! ### Decoding: words written out from 30_encoding.md R51, or given in 95_test_vectors.md, one for each constructor -/

theorem test_decode_nop : decode 0x00000000 = .ok .nop := by decide
theorem test_decode_enc4 : decode 0x00001001 = .ok (.enc4 1 0) ∧ decode 0x00100001 = .ok (.enc4 0 1) := by decide
theorem test_decode_dec4 : decode 0x00020002 = .ok (.dec4 0 0 false true) ∧ decode 0x00010002 = .ok (.dec4 0 0 true false) := by decide
theorem test_decode_enc8 : decode 0x0030F003 = .ok (.enc8 15 3) := by decide
theorem test_decode_dec8 : decode 0x00010004 = .ok (.dec8 0 0 true false) := by decide
theorem test_decode_bind : decode 0x00080010 = .ok (.bind 0 0 0 false true) ∧ decode 0x00040110 = .ok (.bind 1 0 0 true false) := by
  decide
theorem test_decode_expand : decode 0x00030011 = .ok (.expand 0 true true) ∧ decode 0x00000111 = .ok (.expand 1 false false) := by
  decide
theorem test_decode_rewind : decode 0x00000312 = .ok (.rewind 3) := by decide
theorem test_decode_fill : decode 0x00000013 = .ok (.fill false) ∧ decode 0x00020013 = .ok (.fill true) := by decide
theorem test_decode_select : decode 0x00000020 = .ok (.select false) ∧ decode 0x00040020 = .ok (.select true) := by decide
theorem test_decode_lookups : decode 0x00000030 = .ok .lookupDir ∧ decode 0x00000031 = .ok .lookupFile := by decide
theorem test_decode_rejects_by_name : decode 0x00000005 = .error (.reservedOpcode 5) ∧
    decode 0x00000101 = .error (.unusedField "ENC4") ∧ decode 0x80000000 = .error (.unusedField "NOP") := by decide

/-! ### Small machines of configuration X -/

/-- MEM holding these bytes from each address. -/
def memOf (l : List (Nat × List Byte)) : MemPort :=
  l.foldl (fun p r => (r.2.foldl (fun (q : MemPort × Nat) b => (q.1.poke q.2 b, q.2 + 1)) (p, r.1)).1) .empty

/-- A machine of configuration X that runs a command with these arguments over this MEM; `cmd` is the word accepted. -/
def machine (bytes : List (Nat × List Byte)) (args : List Word) (cmd : Word := 0) : State :=
  let s := State.reset.withArgs args
  { s with phase := .busy, cmd := cmd, args := s.snapshot, mem := memOf bytes }

/-- A voice at unity volume bound to a stream, from its seed (0, 0, 0). -/
def voiceOf (is8 odd : Bool) (base size total : Word) : Voice :=
  { bound := true, is8 := is8, odd := odd, table := 0, pred := 0, base := base, size := size, cursor := 0, total := total
    pos := 0, p := ⟨0, 0, 0, false, 0, 0x10000, 0x10000⟩ }

/-- Voice 0 of V-FILL-1: bytes 77 07, three samples. -/
def voiceA : Voice := voiceOf false true 0x100 2 3
/-- Voice 1 of V-FILL-1: bytes 64 CB 1F AB 1C, five samples. -/
def voiceB : Voice := voiceOf true false 0x110 5 5
/-- The MEM of V-FILL-1. -/
def streams : List (Nat × List Byte) := [(0x100, [0x77, 0x07]), (0x110, [0x64, 0xCB, 0x1F, 0xAB, 0x1C])]
/-- The machine of V-FILL-1 with both voices bound. -/
def player (args : List Word) (cmd : Word := 0) : State :=
  ((machine streams args cmd).setVoice 0 voiceA).setVoice 1 voiceB
/-- Voice 0 of V-FILL-1 after its first sample: in the middle of a byte. -/
def voiceMid : Voice := { voiceA with pos := 1, cursor := 1, p := ⟨7, 0, 2, true, 0x77, 0x10000, 0x10000⟩ }
/-- The directory and file records of a small image at 0x200: "dir0" with file "file0" of 4 bytes (V-LK-1). -/
def image (count : Byte) : List (Nat × List Byte) :=
  [(0x200, [0x64, 0x69, 0x72, 0x30]), (0x20C, [count]), (0x240, [0x66, 0x69, 0x6C, 0x65, 0x30]), (0x24C, [4])]

/-- The machine after a command, or nothing if it stopped. -/
def after : Result → Option State
  | .next t => some t
  | .fault _ => none
  | .refused _ => none

/-- RES0..RES3 after a command. -/
def results (r : Result) : Option (List Nat) := (after r).map fun t => t.res.toList.map (·.toNat)
/-- STATUS after a command. -/
def status (r : Result) : Option Nat := (after r).map fun t => t.statusWord.toNat
/-- Bytes of MEM after a command. -/
def bytes (a n : Nat) (r : Result) : Option (List Nat) := (after r).map fun t => (bytesAt t.mem a n).map (·.toNat)
/-- Frame words after a command, left and right. -/
def words (a n : Nat) (r : Result) : Option (List Int) :=
  (after r).map fun t => (List.range n).map fun k => frameWord t.mem (a + 4 * k)

/-! ### One-step tests -/

/-- V-DP-2, V-DP-3, V-DP-5, V-DP-8 (41_datapath.md R72, R77, R78). -/
theorem test_datapath_4bit :
    (⟨32767, -32768, 0, false, 0, 0, 0⟩ : Predictor).guess = 32767 ∧ (⟨-32768, 32767, 0, false, 0, 0, 0⟩ : Predictor).guess = -32768 ∧
    choose4 Config.x 0 ⟨32000, 32000, 8, false, 0, 0, 0⟩ 32767 = (2, 32512) ∧
    reconstruct4 Config.x 0 ⟨32000, 32000, 12, false, 0, 0, 0⟩ 7 = 32767 := by decide +kernel

/-- V-DP-10, V-DP-11, V-DP-12, V-DP-13, V-DP-14 (41_datapath.md R79, R80). -/
theorem test_datapath_8bit :
    choose8 ⟨32760, 32760, 4, false, 0, 0, 0⟩ 32767 = (false, 0) ∧ choose8 ⟨32700, 32700, 3, false, 0, 0, 0⟩ 32767 = (false, 8) ∧
    choose8 ⟨32704, 32704, 6, false, 0, 0, 0⟩ 32767 = (false, 0) ∧ choose8 ⟨0, 0, 0, false, 0, 0, 0⟩ (-1) = (true, 1) ∧
    reconstruct8 ⟨1000, 1000, 2, false, 0, 0, 0⟩ 0x85 = 980 := by decide

/-- V-DP-15, V-DP-17, V-DP-18, V-DP-21 (41_datapath.md R88, R90, R91). -/
theorem test_volume_and_error :
    ((⟨0, 0, 0, false, 0, 0x10000, 0x8000⟩ : Predictor).ease Config.x).volsh = 0xFFE0 ∧
    (⟨0, 0, 0, false, 0, 0x8000, 0x8000⟩ : Predictor).scale (-1) = -1 ∧
    (⟨0, 0, 0, false, 0, 0xFFFF00, 0xFFFF00⟩ : Predictor).scale 32767 = 8388224 ∧
    sseOf [100, 200] [7, 42] = 33613 ∧ mse 33613 2 = 16806 := by decide +kernel

/-- V-LC-2: NOP. -/
theorem test_nop : status (exec .nop (machine [] [])) = some 2 := by decide

/-- V-ENC4-3. -/
theorem test_enc4_odd : results (exec (.enc4 0 0) (machine [(0, [100])] [0, 1, 0x40])) = some [1, 8649, 0, 8649] ∧
    bytes 0x40 2 (exec (.enc4 0 0) (machine [(0, [100])] [0, 1, 0x40])) = some [0x07, 0] := by decide +kernel
/-- V-ERR-17, V-ERR-18: the code buffer against the samples. -/
theorem test_enc4_overlap : status (exec (.enc4 0 0) (machine [] [0, 1, 1])) = some 0x606 ∧
    status (exec (.enc4 0 0) (machine [] [0, 1, 2])) = some 2 := by decide +kernel

/-- V-DEC4-4: add and saturation, each word on its own. -/
theorem test_dec4_add_saturates : words 0x400 4 (exec (.dec4 0 0 true false) (machine [(0x40, [0x77]),
    (0x400, [0xFC, 0xFF, 0xFF, 0x7F, 0xF0, 0xFF, 0xFF, 0x7F, 0x0A, 0, 0, 0x80, 5])] [0x40, 2, 0x400, 256])) =
      some [0x7FFFFFFF, 0x7FFFFFF7, -2147483596, 47] := by decide +kernel
/-- V-DEC4-3, the first two frames: easing toward 0. -/
theorem test_dec4_eases : words 0x400 4 (exec (.dec4 0 0 false false) (machine [(0x40, [0x77])] [0x40, 2, 0x400, 0])) =
    some [6, 6, 41, 41] := by decide +kernel

/-- V-ENC8-2. -/
theorem test_enc8_minus_one : results (exec (.enc8 0 0) (machine [(2, [0xFF, 0xFF])] [0, 2, 0x40])) = some [2, 0, 0, 0] ∧
    bytes 0x40 2 (exec (.enc8 0 0) (machine [(2, [0xFF, 0xFF])] [0, 2, 0x40])) = some [0x00, 0x81] := by decide +kernel

/-- V-DEC8-2: 0x80 is 0. -/
theorem test_dec8_negative_zero : words 0x400 6 (exec (.dec8 0 0 false false) (machine [(0x40, [0x80, 0x00, 0x05])] [0x40, 3, 0x400, 256]))
    = some [0, 0, 0, 0, 5, 5] := by decide +kernel
/-- V-DEC8-4. -/
theorem test_dec8_negative_saturation : words 0x400 2 (exec (.dec8 0 0 true false)
    (machine [(0x40, [0xFF]), (0x400, [0x64, 0, 0, 0x80])] [0x40, 1, 0x400, 256])) = some [-2147483648, -127] := by decide +kernel

/-- The BIND of 95_test_vectors.md, 2.3: TOTAL 23, VCTL 0x5. -/
theorem test_bind_odd : (after (exec (.bind 0 0 0 false true) (machine [] [0x40, 12]))).map
    (fun t => ((t.voice 0).total, (t.voice 0).vctl, t.res[0], (t.voice 0).p.volsh)) = some (23, 5, 23, 0x10000) := by decide +kernel
/-- V-ERR-5, V-ERR-6. -/
theorem test_bind_illegal : status (exec (.bind 0 0 0 true true) (machine [] [0x40, 12])) = some 0x106 ∧
    status (exec (.bind 0 0 0 false true) (machine [] [0x40, 0])) = some 0x106 := by decide +kernel

/-- V-EXP-7: add, OVE, gain 2. -/
theorem test_expand_add_ove : words 0x400 6 (exec (.expand 0 true true) ((machine [(0x100, [0x64, 0, 0x32]),
    (0x400, [1, 0, 0, 0, 1, 0, 0, 0, 2, 0, 0, 0, 2, 0, 0, 0, 3, 0, 0, 0, 3])] [0x400, 3, 512]).setVoice 0 (voiceOf true false 0x100 3 3)))
      = some [201, 201, 402, 402, 803, 803] := by decide +kernel
/-- The odd stream of V-FILL-1 alone: exhaustion, and the pad nibble is never played (43_expander.md R101, R104). -/
theorem test_expand_exhausts : (after (exec (.expand 0 false false) (player [0x400, 8, 256]))).map
    (fun t => (t.res[0], t.res[1], (t.voice 0).cursor, (t.voice 0).p.high, (t.voice 0).p.held)) = some (3, 3, 2, true, 0x07) := by
  decide +kernel

/-- V-REW-1 on a voice in the middle of a byte. -/
theorem test_rewind : (after (exec (.rewind 0) ((player []).setVoice 0 voiceMid))).map (·.voice 0) = some voiceA := by decide +kernel

/-- V-FILL-1. -/
theorem test_fill_loops_and_ends : words 0x400 16 (exec (.fill false) (player [3, 1, 0x400, 8, 0x01000100])) =
      some [107, 107, -58, -58, 385, 385, -189, -189, 350, 350, 189, 189, 7, 7, 42, 42] ∧
    results (exec (.fill false) (player [3, 1, 0x400, 8, 0x01000100])) = some [2, 1, 0, 0] := by decide +kernel
/-- 20_memory.md R46 (O3), 43_expander.md R105, R109: a running FILL that lacks its volume ARG has its frames as the bytes it
writes; a running EXPAND of 8 over 3 samples left may write its first three frames only, and its buffer is still its
footprint. -/
theorem test_running_footprint :
    ({ player [1, 0, 0x400, 2] 0x13 with snapshot := ⟨(player [1, 0, 0x400, 2]).snapshot.val, (Vector.replicate 8 true).set 4 false⟩ }
      : State).bytesWrittenNow = [⟨0x400, 16⟩] ∧
    (player [0x400, 8, 256] 0x11).bytesWrittenNow = [⟨0x400, 24⟩] ∧ (player [0x400, 8, 256] 0x11).writtenNow = [⟨0x400, 64⟩] ∧
    (player [0x400, 8, 256] 0x11).footprint = [⟨0x400, 64⟩, ⟨0x100, 2⟩] := by decide +kernel
/-- V-FILL-3: an empty looping stream. -/
theorem test_fill_empty_stream : results (exec (.fill false) ((machine [] [1, 1, 0x400, 3, 0x100]).setVoice 0 (voiceOf false false 0x100 0 0)))
    = some [1, 1, 0, 0] := by decide +kernel

/-- V-SEL-5: ties go to the first pair, and its encoding is written. -/
theorem test_select_tie : results (exec (.select false) (machine [] [0, 5, 0x40, 3, 3])) = some [0, 0, 0, 0] := by decide +kernel
/-- V-ERR-22, V-ERR-24. -/
theorem test_select_masks : status (exec (.select false) (machine [] [0, 23, 0x40, 0, 1])) = some 0x306 ∧
    status (exec (.select false) (machine [] [0, 23, 0x40, 1, 0x10])) = some 0x106 := by decide +kernel

/-- V-LK-1, V-LK-2: found, not found, and a run that does not fit the file table. -/
theorem test_lookup_dir : results (exec .lookupDir (machine (image 2) [0x200, 0x30726964, 0])) = some [0, 0, 2, 0] ∧
    results (exec .lookupDir (machine (image 2) [0x200, 0x32726964, 0])) = some [0xFFFFFFFF, 0, 0, 0] ∧
    status (exec .lookupDir (machine (image 9) [0x200, 0x30726964, 0])) = some 0x706 := by decide +kernel
/-- V-LK-1, V-LK-3. -/
theorem test_lookup_file :
    results (exec .lookupFile (machine (image 2) [0x200, 0x30726964, 0, 0x656C6966, 0x30])) = some [0, 0, 4, 0x2C0] ∧
    status (exec .lookupFile (machine (image 2) [0xF80, 0x30726964, 0, 0x656C6966, 0x30])) = some 0x506 := by decide +kernel

/-- V-LC-3: a second command while BUSY sets OVR and is ignored. -/
theorem test_overrun : status (hostTurn (.writeReg 8 4 0x12) (State.reset.accept 0)) = some 9 ∧
    ((after (hostTurn (.writeReg 8 4 0x12) (State.reset.accept 0))).bind fun t => status (engineTurn t)) = some 0x0A := by decide +kernel
/-- V-LC-5, V-LC-6: the interrupt output. -/
theorem test_interrupt : ((after (engineTurn ((State.reset.accept 0).writeIE 1))).map (·.irq)) = some true ∧
    ((after (hostTurn (.writeReg 4 4 2) { State.reset with ie := true, done := true })).map (·.irq)) = some false := by decide +kernel
/-- V-LC-8: CFG0, CFG1, CFG2 under X. -/
theorem test_cfg_words : cfg0Word Config.x = 0x00420202 ∧ cfg1Word Config.x = 0x00080004 ∧ cfg2Word Config.x = 0xC0 := by decide +kernel
/-- An issued word runs at the next step (log 12); 30_encoding.md R60 packs the name "file2" as 95 2.5 does. -/
theorem test_issued_word_runs : status (step (State.reset.withFetchWord 32 5)) = some 0x106 ∧
    packName [0x66, 0x69, 0x6C, 0x65, 0x32] = some (0x656C6966, 0x32) := by decide +kernel

/-! ### Witnesses: for every statement with hypotheses, a state and operands that meet them, at the ends of each clause -/

/-- The voices of the two-voice machine. -/
theorem player_voice (args : List Word) (cmd : Word) (v : Nat) :
    (player args cmd).voice v = if v = 0 then voiceA else if v = 1 then voiceB else .reset := by
  match v with
  | 0 | 1 | 2 | 3 | 4 | 5 | 6 | 7 => rfl
  | _ + 8 => rfl

theorem voiceA_inv : VoiceInv Config.x voiceA := by constructor <;> decide +kernel
theorem voiceB_inv : VoiceInv Config.x voiceB := by constructor <;> decide +kernel
theorem voiceMid_inv : VoiceInv Config.x voiceMid := by constructor <;> decide +kernel

theorem player_inv (args : List Word) (cmd : Word) : StateInv (player args cmd) where
  memWf := show (memOf streams).wf = true by decide +kernel
  memIn := show ∀ c ∈ (memOf streams).cells, c.1 < 0x1000 by decide +kernel
  wbuf := rfl
  absent := fun v h => by
    have h2 : 2 ≤ v := h
    rw [player_voice, if_neg (by omega), if_neg (by omega)]
  unbound := fun v h => by
    rw [player_voice] at h ⊢
    split_ifs at h ⊢ <;> first | rfl | exact absurd h (by decide)
  bound := fun v h => by
    rw [player_voice] at h ⊢
    split_ifs at h ⊢ with h0 h1
    · exact voiceA_inv
    · exact voiceB_inv
    · exact absurd h (by decide)
  ecode := ⟨fun _ => rfl, fun _ => rfl⟩
  busyClear := fun _ => ⟨rfl, rfl⟩
  busyArgs := fun _ => rfl
  idleRaces := fun _ => rfl

theorem player_streamsInMem (args : List Word) (cmd : Word) : (player args cmd).streamsInMem :=
  fun v h => ((player_inv args cmd).bound v h).stream
theorem player_wrote (args : List Word) (cmd : Word) (ks : List (Fin 8)) : (player args cmd).wrote ks :=
  fun k _ => by fin_cases k <;> rfl
theorem player_quiet (args : List Word) (cmd : Word) : (player args cmd).quiet := ⟨rfl, (player_inv args cmd).memWf⟩
theorem reset_voice (v : Nat) : State.reset.voice v = .reset := by
  match v with
  | 0 | 1 | 2 | 3 | 4 | 5 | 6 | 7 => rfl
  | _ + 8 => rfl

/-- The state a command leaves. -/
def left (r : Result) : State := (after r).getD .reset
theorem next_left {r : Result} (h : (after r).isSome = true) : r = .next (left r) := by cases r <;> simp_all [after, left]
theorem next_with {r : Result} (f : State → Bool) (h : ((after r).map f) = some true) : ∃ t, r = .next t ∧ f t = true := by
  cases r <;> simp_all [after]

theorem witness_EncodeOfDecode : decode 0x0034FF10 = .ok (.bind 15 15 3 true false) := by decide
theorem witness_WordSelectsByMask : (⟨"LOOKUP_FILE", 0x31, 0xFFFFFFFF⟩ : OpcodeRow) ∈ opcodeTable := by decide

theorem witness_IllegalWordRaisesIllegal :
    (State.reset.accept 0xFFFFFFFF).phase = .busy ∧ (∀ r ∈ opcodeTable, r.selects (State.reset.accept 0xFFFFFFFF).cmd = false) ∧
      ∀ r ∈ opcodeTable, r.selects (State.reset.accept 0x00000005).cmd = false := by decide +kernel

theorem witness_StepRunsTheDecodedCommand : (State.reset.accept 0x12).phase = .busy ∧ decode (State.reset.accept 0x12).cmd = .ok (.rewind 0) ∧
    (State.reset.accept 0x12).script = [] ∧ (State.reset.issued 0x12).script = .engine :: [] ∧
    (State.reset.issued 0x12).phase = .busy ∧ decode (State.reset.issued 0x12).cmd = .ok (.rewind 0) := by decide +kernel

theorem witness_HostTurnsInOrder : ({ State.reset with script := [.host .reset] } : State).script = .host .reset :: [] ∧
    State.reset.phase = .idle ∧ State.reset.script = [] ∧
    ({ State.reset with script := [.engine] } : State).phase = .idle ∧
    ({ State.reset with script := [.engine] } : State).script = .engine :: [] := by decide +kernel

theorem witness_AcceptanceOfACommand : State.reset.phase = .idle ∧
    (∃ t, hostTurn (.writeReg (State.reset.cfg.raw.engineBase + 0x008) 4 0x12) State.reset = .next t ∧
      (∃ u, hostTurn (.writeReg (State.reset.cfg.raw.engineBase + (0x010 + 4 * (0 : Fin 8).val)) 4 1) t = .next u) ∧
      ∃ u, hostTurn (.writeReg (State.reset.cfg.raw.engineBase + (0x010 + 4 * (7 : Fin 8).val)) 4 1) t = .next u) :=
  ⟨rfl, _, rfl, ⟨_, rfl⟩, _, rfl⟩

theorem witness_WritesWhileBusyAreIgnored : (State.reset.accept 0).phase = .busy ∧
    ∃ s', turn .engine { State.reset.accept 0 with ovr := true } = .next s' ∧ ({ State.reset.accept 0 with ovr := true } : State).ovr = true :=
  ⟨rfl, _, rfl, rfl⟩

/-- The machine with both voices bound, the arguments of a command whose only fault is the one named. -/
theorem witness_FirstErrorInOrder :
    (∀ args, (player args).streamsInMem) ∧
    ((player [1, 23, 0x40, 0x10000]).wrote (argsReadBy (.dec4 2 0 false false) (player [1, 23, 0x40, 0x10000])) ∧
      (conditionsOf (.dec4 2 0 false false) (player [1, 23, 0x40, 0x10000])).first .illegal) ∧
    ((player [0, 1, 256]).wrote (argsReadBy (.expand 2 false false) (player [0, 1, 256])) ∧
      (conditionsOf (.expand 2 false false) (player [0, 1, 256])).first .voice) ∧
    ((player [1, 23, 0x40]).wrote (argsReadBy (.enc4 2 0) (player [1, 23, 0x40])) ∧
      (conditionsOf (.enc4 2 0) (player [1, 23, 0x40])).first .table) ∧
    ((player [1, 0, 0x40]).wrote (argsReadBy (.enc4 1 1) (player [1, 0, 0x40])) ∧
      (conditionsOf (.enc4 1 1) (player [1, 0, 0x40])).first .align) ∧
    ((player [0xFF0, 23, 0x40]).wrote (argsReadBy (.enc4 1 1) (player [0xFF0, 23, 0x40])) ∧
      (conditionsOf (.enc4 1 1) (player [0xFF0, 23, 0x40])).first .range) ∧
    ((player [0, 23, 0x2C]).wrote (argsReadBy (.enc4 1 1) (player [0, 23, 0x2C])) ∧
      (conditionsOf (.enc4 1 1) (player [0, 23, 0x2C])).first .overlap) ∧
    ((player [0, 23, 0x2E]).wrote (argsReadBy (.enc4 1 1) (player [0, 23, 0x2E])) ∧
      (conditionsOf (.enc4 1 1) (player [0, 23, 0x2E])).first .none) := by
  refine ⟨fun args => player_streamsInMem args 0, ?_⟩
  constructorm* _ ∧ _
  all_goals first
    | exact player_wrote _ _ _
    | (simp only [Conditions.first, conditionsOf, decConditions, encConditions, noPair, leavesMem, sharesByte]; decide +kernel)
    | skip
  · refine ⟨id, id, ?_, ?_, ?_, 0x2C, ?_⟩ <;>
      (try simp only [conditionsOf, encConditions, noPair, leavesMem]) <;> decide +kernel
  · refine ⟨id, id, ?_, ?_, ?_, ?_⟩
    · simp only [conditionsOf, encConditions, noPair]; decide +kernel
    · simp only [conditionsOf, encConditions]; decide +kernel
    · simp only [conditionsOf, encConditions, leavesMem]; decide +kernel
    · rintro ⟨a, h1, h2⟩
      have e1 : Region.has ((player [0, 23, 0x2E]).codeOut false) a = (decide (0x2E ≤ a) && decide (a < 0x2E + 12)) := rfl
      have e2 : Region.has (player [0, 23, 0x2E]).sampleRegion a = (decide (0 ≤ a) && decide (a < 0 + 46)) := rfl
      simp only [e1, e2, Bool.and_eq_true, decide_eq_true_eq] at h1 h2
      omega

theorem witness_ErrorsArePrecise : (player [1, 23, 0x40]).err = false ∧
    (∃ t, exec (.enc4 0 0) (player [1, 23, 0x40]) = .next t ∧ t.err = true) ∧
    (machine (image 9) [0x200, 0x30726964, 0]).err = false ∧
    ∃ t, exec .lookupDir (machine (image 9) [0x200, 0x30726964, 0]) = .next t ∧ t.err = true :=
  ⟨rfl, next_with State.err (by decide +kernel), rfl, next_with State.err (by decide +kernel)⟩

theorem witness_UnwrittenArgumentFaults : State.reset.streamsInMem ∧
    (conditionsOf (.enc4 1 1) State.reset).first .none ∧ (0 : Fin 8) ∈ argsReadBy (.enc4 1 1) State.reset ∧
    (2 : Fin 8) ∈ argsReadBy (.enc4 1 1) State.reset ∧ State.reset.snapshot.written[(0 : Fin 8)] = false ∧
    State.reset.snapshot.written[(2 : Fin 8)] = false := by
  refine ⟨fun v h => absurd h (by rw [reset_voice]; decide), ⟨id, id, ?_, ?_, ?_, ?_⟩, by decide, by decide, by decide, by decide⟩
  · simp only [conditionsOf, encConditions, noPair]; decide +kernel
  · simp only [conditionsOf, encConditions]; decide +kernel
  · simp only [conditionsOf, encConditions, leavesMem]; decide +kernel
  · rintro ⟨a, h1, h2⟩
    have e : Region.has State.reset.sampleRegion a = (decide (0 ≤ a) && decide (a < 0)) := rfl
    simp [e] at h2

theorem witness_EveryCommandCompletes : StateInv (player [0x400, 8, 256] 0x11) ∧ (player [0x400, 8, 256] 0x11).phase = .busy ∧
    (∃ i, decode (player [0x400, 8, 256] 0x11).cmd = .ok i) ∧
    ∀ i, decode (player [0x400, 8, 256] 0x11).cmd = .ok i →
      (player [0x400, 8, 256] 0x11).wrote (argsReadBy i (player [0x400, 8, 256] 0x11)) :=
  ⟨player_inv _ _, rfl, ⟨.expand 0 false false, by decide⟩, fun _ _ => player_wrote _ _ _⟩

/-- Writes that clear DONE and ERR: bits 1 and 2, alone (6), with OVR (ACK's 0xE), with every reserved bit. -/
theorem witness_InterruptOutput_acks : ([(6 : Word), 0xE, 0xFFFFFFFF].all fun v => v.getLsbD 1 && v.getLsbD 2 &&
    (after (hostTurn (.writeReg (State.reset.cfg.raw.engineBase + 0x004) 4 v) State.reset)).isSome) = true := by decide +kernel

theorem witness_InterruptOutput : (State.reset.accept 0).phase = .busy ∧ (∃ t, engineTurn (State.reset.accept 0) = .next t) ∧
    State.reset.phase = .idle ∧ (∃ t, hostTurn (.writeReg (State.reset.cfg.raw.engineBase + 0x004) 4 0xE) State.reset = .next t) ∧
    (0 : Word).getLsbD 0 = false ∧ (∃ t, hostTurn (.writeReg State.reset.cfg.raw.engineBase 4 0) State.reset = .next t) ∧
    (1 : Word).getLsbD 0 = true ∧ (1 : Word).getLsbD 1 = false ∧
    (∃ t, hostTurn (.writeReg State.reset.cfg.raw.engineBase 4 1) State.reset = .next t) ∧
    (∃ t, hostTurn (.writeReg (State.reset.cfg.raw.engineBase + 0x008) 4 0x12) State.reset = .next t) ∧
    ∃ t, hostTurn .reset State.reset = .next t := by
  refine ⟨rfl, ⟨_, rfl⟩, rfl, ?_, rfl, ?_, rfl, rfl, ?_, ?_, ?_⟩ <;> exact ⟨_, rfl⟩

theorem witness_HardwareReset : (player [0x400, 8, 256] 0x11).phase = .busy ∧
    (∃ r ∈ (player [0x400, 8, 256] 0x11).writtenNow, r.has 0x400 = true) ∧
    (∀ r ∈ (player [0x400, 8, 256] 0x11).writtenNow, r.has 0x3FF = false) ∧
    (∀ r ∈ (player [0x400, 8, 256] 0x11).writtenNow, r.has 0x440 = false) ∧ State.reset.phase = .idle := by decide +kernel

theorem witness_SoftReset : (3 : Word).getLsbD 1 = true ∧ (2 : Word).getLsbD 1 = true ∧ (1 : Word).getLsbD 1 = false ∧
    (0 : Word).getLsbD 1 = false := by decide

theorem witness_HostAccessWidthAndAlignment : (1023 < 1024 ∧ (4 ≠ 4 ∨ 1023 % 4 ≠ 0)) ∧ (1020 < 1024 ∧ (2 ≠ 4 ∨ 1020 % 4 ≠ 0)) ∧
    (0 < 1024 ∧ (8 ≠ 4 ∨ 0 % 4 ≠ 0)) ∧ (1020 < 1024 ∧ 4 = 4 ∧ 1020 % 4 = 0) ∧ (0 < 1024 ∧ 4 = 4 ∧ 0 % 4 = 0) := by decide

theorem witness_ReservedAndReadOnly : State.reset.cfg.raw.nVoices = 2 ∧
    (∀ off ∈ [0x00C, 0x04C, 0x0FC, 0x180, 0x3FC], off < 1024 ∧ off % 4 = 0 ∧
      (off = 0x00C ∨ (0x04C ≤ off ∧ off < 0x100) ∨ 0x100 + 0x40 * State.reset.cfg.raw.nVoices ≤ off)) ∧
    (∀ off ∈ [0x030, 0x03C, 0x040, 0x048, 0x100, 0x17C, 0x3FC], off < 1024 ∧ off % 4 = 0 ∧ 0x030 ≤ off) ∧
    0x28 ≤ 0x28 ∧ 0x28 ≤ 0x3C := by decide +kernel

theorem witness_ConfigurationRegisters : State.reset.cfg.raw.heapOffset < 2 ^ 32 := by decide +kernel

theorem witness_VoiceWindow : ({ player [] with phase := .idle } : State).phase = .idle ∧
    1 < ({ player [] with phase := .idle } : State).cfg.raw.nVoices ∧ (({ player [] with phase := .idle } : State).voice 1).bound = true ∧
    State.reset.phase = .idle ∧ 0 < State.reset.cfg.raw.nVoices ∧ (State.reset.voice 0).bound = false ∧
    (0x00 < 0x40 ∧ 0x00 % 4 = 0) ∧ (0x28 ≤ 0x28 ∧ 0x28 < 0x40 ∧ 0x28 % 4 = 0) ∧ 0x28 ≤ 0x3C ∧ 0x3C < 0x40 ∧ 0x3C % 4 = 0 := by decide +kernel

theorem witness_HostRegisterReads : State.reset.phase = .idle ∧ (0 : Fin 8) ≠ 7 := by decide

theorem witness_ContractActionsAreAdmitted :
    (HostAction.readReg 0x3FC 4).keepsContract State.reset = true ∧ (HostAction.writeReg 0x000 4 3).keepsContract State.reset = true ∧
    (HostAction.readMem 0xFFF).keepsContract State.reset = true ∧ (HostAction.writeMem 0xFFF 1).keepsContract State.reset = true ∧
    HostAction.reset.keepsContract State.reset = true ∧
    (HostAction.writeMem 0x440 1).keepsContract (player [0x400, 8, 256] 0x11) = true ∧
    (HostAction.readMem 0x101).keepsContract (player [0x400, 8, 256] 0x11) = true ∧
    (HostAction.readMem 0x418).keepsContract (player [0x400, 8, 256] 0x11) = true ∧
    (HostAction.readMem 0x417).keepsContract (player [0x400, 8, 256] 0x11) = false ∧
    0x418 < (player [0x400, 8, 256] 0x11).cfg.raw.memSize ∧
    (∀ a ∈ [0x3FF, 0x418, 0x101], ∀ r ∈ (player [0x400, 8, 256] 0x11).bytesWrittenNow, r.has a = false) ∧
    (player [0x400, 8, 256] 0x11).running = some (.expand 0 false false) ∧
    (player [0x400, 8, 256] 0x11).base0 + 8 * min (player [0x400, 8, 256] 0x11).count
      (((player [0x400, 8, 256] 0x11).voice (0 : BitVec 4).toNat).total.toNat -
        ((player [0x400, 8, 256] 0x11).voice (0 : BitVec 4).toNat).pos.toNat) ≤ 0x418 := by decide +kernel

theorem witness_MemReadsLastWrite : (memOf streams).wf = true ∧ (memOf streams).races = [] ∧ (0x101 : Nat) ≠ 0x100 := by decide +kernel

theorem witness_CanonicalMemIsUnique : (memOf streams).wf = true ∧ ({ memOf streams with draws := 1 } : MemPort).wf = true ∧
    ∀ a, (memOf streams).peek a = ({ memOf streams with draws := 1 } : MemPort).peek a :=
  ⟨by decide +kernel, by decide +kernel, fun _ => rfl⟩

theorem witness_LittleEndian : (memOf streams).races = [] ∧ (memOf streams).wf = true ∧ 0xFFFFFFFF < 256 ^ 4 ∧ 0 < 256 ^ 0 ∧ 3 < 4 ∧
    (0x103 < 0x104 ∨ 0x104 + 4 ≤ 0x103) ∧ (0x108 < 0x104 ∨ 0x104 + 4 ≤ 0x108) := by decide +kernel

theorem witness_HostWritesRace : (player [0x400, 8, 256] 0x11).quiet ∧ 0xFFF < (player [0x400, 8, 256] 0x11).cfg.raw.memSize ∧
    (∀ a ∈ [0x3FF, 0x440, 0x0FF, 0x102, 0xFFF], ∀ r ∈ (player [0x400, 8, 256] 0x11).footprint, r.has a = false) ∧
    ∀ a ∈ [0x400, 0x43F, 0x100, 0x101], ∃ r ∈ (player [0x400, 8, 256] 0x11).footprint, r.has a = true :=
  ⟨player_quiet _ _, by decide +kernel, by decide +kernel, by decide +kernel⟩

theorem witness_PredictionAndMultiplier : (⟨0, 0, 12, false, 0, 0, 0⟩ : Predictor).shift.toNat ≤ 12 ∧
    (⟨0, 0, 8, false, 0, 0, 0⟩ : Predictor).shift.toNat ≤ 8 := by decide

theorem witness_ShiftAdaptation : 1 < Config.x.nTables := by decide +kernel
theorem witness_DecoderReconstruction : 1 < Config.x.nTables := by decide +kernel
theorem witness_HistoryAdvances : 0 < Config.x.nTables ∧ 1 < Config.x.nTables := by decide +kernel

theorem witness_Encoder4Choice : 0 < Config.x.nTables ∧
    let p : Predictor := ⟨32767, 32767, 12, false, 0, 0, 0⟩
    (0 < 16 ∧ -32768 ≤ p.guess + p.mult * Config.x.step4 0 0 ∧ p.guess + p.mult * Config.x.step4 0 0 ≤ 32767) ∧
      15 < 16 ∧ -32768 ≤ p.guess + p.mult * Config.x.step4 0 15 ∧ p.guess + p.mult * Config.x.step4 0 15 ≤ 32767 := by decide +kernel

theorem witness_Lockstep : 1 < Config.x.nTables ∧ SameHistory (seeded Config.x 1 0) (seeded Config.x 1 0x10000) ∧
    3 ≤ [100, 200, 400].length := ⟨by decide +kernel, ⟨rfl, rfl, rfl⟩, by decide⟩

theorem witness_PackingRoundTrip : bytesAt (memOf [(0x40, [0x77, 0x01])]) 0x40 (packAll [7, 7, 1]).length = packAll [7, 7, 1] ∧
    [7, 7, 1].length % 2 = 1 := by decide +kernel

theorem witness_VolumeRamp : 65535 < 65536 ∧ 0 < 65536 ∧
    (let q := (⟨0, 0, 0, false, 0, 0, 0⟩ : Predictor).volSet 65535 false
     q.volsh.toNat ≤ q.voltgt.toNat) ∧
    let q := (⟨0, 0, 0, false, 0, 0xFFFF00, 0⟩ : Predictor).volSet 0 false
    q.voltgt.toNat ≤ q.volsh.toNat := by decide

theorem witness_OutputScale : (-32768 : Int) ≤ -32768 ∧ (32767 : Int) ≤ 32767 ∧
    (⟨0, 0, 0, false, 0, 0xFFFF00, 0⟩ : Predictor).volsh.toNat ≤ 65535 * 256 ∧
    (⟨0, 0, 0, false, 0, 0x10000, 0⟩ : Predictor).volsh.toNat = 65536 ∧ (⟨0, 0, 0, false, 0, 0, 0⟩ : Predictor).volsh.toNat = 0 := by decide

theorem witness_FrameOutput : (memOf streams).races = [] ∧ (memOf streams).wf = true ∧ (-2147483648 : Int) ≤ 2147483647 ∧
    (0x3FF < 0x400 + 8 * 1 ∨ 0x400 + 8 * 1 + 8 ≤ 0x3FF) ∧ (0x410 < 0x400 + 8 * 1 ∨ 0x400 + 8 * 1 + 8 ≤ 0x410) := by decide +kernel

/-- ENC4 at the end of MEM; the code buffer next to the samples (V-ENC4, V-ERR-18). -/
theorem witness_Enc4Result : CanEncode false 1 1 (player [0xFD2, 23, 0xFC6]) ∧ CanEncode false 0 0 (player [0xFF0, 0, 0xFFF]) ∧
    (player [0xFD2, 23, 0xFC6]).quiet := by
  refine ⟨?_, ?_, player_quiet _ _⟩ <;> unfold CanEncode State.wrote <;> decide +kernel
theorem witness_Enc8Result : CanEncode true 1 1 (player [0xFD2, 23, 0xFBB]) ∧ (player [0xFD2, 23, 0xFBB]).quiet := by
  refine ⟨?_, player_quiet _ _⟩; unfold CanEncode State.wrote; decide +kernel
theorem witness_Dec4Result : Decodable false 1 1 (player [0x100, 3, 0xFE8, 0xFFFF]) ∧ (player [0x100, 3, 0xFE8, 0xFFFF]).quiet := by
  refine ⟨?_, player_quiet _ _⟩; unfold Decodable State.wrote; decide +kernel
theorem witness_Dec8Result : Decodable true 1 1 (player [0x100, 3, 0xFE8, 0xFFFF]) ∧ (player [0x100, 3, 0xFE8, 0xFFFF]).quiet := by
  refine ⟨?_, player_quiet _ _⟩; unfold Decodable State.wrote; decide +kernel
theorem witness_BindResult : Bindable 1 1 1 false true (player [0xFFF, 1]) ∧ Bindable 0 0 0 true false (player [0, 0x1000]) := by
  constructor <;> unfold Bindable State.wrote <;> decide +kernel
theorem witness_ExpandResult : Expandable 1 (player [0xFC0, 8, 0xFFFF]) ∧
    VoiceInv (player [0xFC0, 8, 0xFFFF]).cfg ((player [0xFC0, 8, 0xFFFF]).voice 1) ∧ (player [0xFC0, 8, 0xFFFF]).quiet := by
  refine ⟨?_, voiceB_inv, player_quiet _ _⟩; unfold Expandable State.wrote; decide +kernel
theorem witness_RewindResult : Rewindable 1 (player []) := by unfold Rewindable; decide +kernel
theorem witness_FillResult : Fillable (player [3, 1, 0xFC0, 8, 0x01000100]) ∧
    (∀ v ∈ (player [3, 1, 0xFC0, 8, 0x01000100]).fillVoices,
      VoiceInv (player [3, 1, 0xFC0, 8, 0x01000100]).cfg ((player [3, 1, 0xFC0, 8, 0x01000100]).voice v)) ∧
    (player [3, 1, 0xFC0, 8, 0x01000100]).quiet := by
  refine ⟨by unfold Fillable State.wrote; decide +kernel, fun v hv => ?_, player_quiet _ _⟩
  have h : v = 0 ∨ v = 1 := by
    have e : (player [3, 1, 0xFC0, 8, 0x01000100]).fillVoices = [0, 1] := by decide +kernel
    rw [e] at hv
    simpa using hv
  rcases h with rfl | rfl
  · exact voiceA_inv
  · exact voiceB_inv
theorem witness_SelectResult : Selectable false (player [0xFD2, 23, 0xFC6, 3, 3]) ∧ Selectable true (player [0xFD2, 23, 0xFBB, 2, 1]) ∧
    (player [0xFD2, 23, 0xFC6, 3, 3]).quiet ∧ (player [0xFD2, 23, 0xFBB, 2, 1]).quiet := by
  refine ⟨?_, ?_, player_quiet _ _, player_quiet _ _⟩ <;> unfold Selectable State.wrote <;> decide +kernel
theorem witness_SelectOfOnePairIsEncode : Selectable true (player [0xFD2, 23, 0xFBB, 2, 1]) ∧ (player [0xFD2, 23, 0xFBB, 2, 1]).quiet ∧
    (player [0xFD2, 23, 0xFBB, 2, 1]).arg 3 = BitVec.ofNat 32 (2 ^ (1 : BitVec 4).toNat) ∧
    (player [0xFD2, 23, 0xFBB, 2, 1]).arg 4 = BitVec.ofNat 32 (2 ^ (0 : BitVec 2).toNat) :=
  ⟨witness_SelectResult.2.1, player_quiet _ _, by decide +kernel, by decide +kernel⟩

/-- A lookup's directory in the small image: record 0, with 2 files, or with more than the file table has. -/
theorem image_isDir (count : Byte) (args : List Word) (h : (machine (image count) args).mem = memOf (image count))
    (hc : count = 8 ∨ count = 9) (name : List Byte) (hn : name = [0x64, 0x69, 0x72, 0x30, 0, 0, 0, 0]) :
    isDir Config.x (machine (image count) args).mem 0x200 name 0 := by
  subst hn
  rw [h]
  unfold isDir dirUsed
  rcases hc with rfl | rfl <;> decide +kernel

theorem witness_LookupDirResult : Lookable [1, 2] (machine (image 8) [0x200, 0x30726964, 0]) ∧
    (machine (image 8) [0x200, 0x30726964, 0]).quiet ∧ (machine (image 9) [0x200, 0x30726964, 0]).quiet ∧
    isDir Config.x (machine (image 8) [0x200, 0x30726964, 0]).mem 0x200 ((machine (image 8) [0x200, 0x30726964, 0]).name 1 2) 0 ∧
    dirFirst (memOf (image 8)) 0x200 0 + dirCount (memOf (image 8)) 0x200 0 ≤ Config.x.raw.numFiles ∧
    isDir Config.x (machine (image 9) [0x200, 0x30726964, 0]).mem 0x200 ((machine (image 9) [0x200, 0x30726964, 0]).name 1 2) 0 ∧
    Config.x.raw.numFiles < dirFirst (memOf (image 9)) 0x200 0 + dirCount (memOf (image 9)) 0x200 0 ∧
    ∀ k, ¬ isDir Config.x (machine (image 8) [0x200, 0x32726964, 0]).mem 0x200 ((machine (image 8) [0x200, 0x32726964, 0]).name 1 2) k := by
  refine ⟨by unfold Lookable State.wrote; decide +kernel, ⟨rfl, by decide +kernel⟩, ⟨rfl, by decide +kernel⟩,
    image_isDir 8 _ rfl (.inl rfl) _ rfl, by decide +kernel, image_isDir 9 _ rfl (.inr rfl) _ rfl, by decide +kernel, ?_⟩
  rintro k ⟨hk, -, hn, -⟩
  have none : ∀ k < 4, recordName (machine (image 8) [0x200, 0x32726964, 0]).mem (dirRecord 0x200 k) ≠
      (machine (image 8) [0x200, 0x32726964, 0]).name 1 2 := by decide +kernel
  exact none k hk hn

theorem witness_LookupFileResult :
    Lookable [1, 2, 3, 4] (machine (image 8) [0x200, 0x30726964, 0, 0x656C6966, 0x30]) ∧
    (machine (image 8) [0x200, 0x30726964, 0, 0x656C6966, 0x30]).quiet ∧
    isDir Config.x (machine (image 8) [0x200, 0x30726964, 0, 0x656C6966, 0x30]).mem 0x200
      ((machine (image 8) [0x200, 0x30726964, 0, 0x656C6966, 0x30]).name 1 2) 0 ∧
    isFile Config.x (machine (image 8) [0x200, 0x30726964, 0, 0x656C6966, 0x30]).mem 0x200 0 8
      ((machine (image 8) [0x200, 0x30726964, 0, 0x656C6966, 0x30]).name 3 4) 0 ∧
    (∀ j, ¬ isFile Config.x (machine (image 8) [0x200, 0x30726964, 0, 0x656C6966, 0x33]).mem 0x200 0 8
      ((machine (image 8) [0x200, 0x30726964, 0, 0x656C6966, 0x33]).name 3 4) j) ∧
    isDir Config.x (machine (image 9) [0x200, 0x30726964, 0, 0x656C6966, 0x30]).mem 0x200
      ((machine (image 9) [0x200, 0x30726964, 0, 0x656C6966, 0x30]).name 1 2) 0 ∧
    ∀ k, ¬ isDir Config.x (machine (image 8) [0x200, 0x32726964, 0, 0x656C6966, 0x30]).mem 0x200
      ((machine (image 8) [0x200, 0x32726964, 0, 0x656C6966, 0x30]).name 1 2) k := by
  refine ⟨by unfold Lookable State.wrote; decide +kernel, ⟨rfl, by decide +kernel⟩, image_isDir 8 _ rfl (.inl rfl) _ rfl,
    ?_, ?_, image_isDir 9 _ rfl (.inr rfl) _ rfl, ?_⟩
  · refine ⟨by decide, by decide, by decide +kernel, fun l _ h => absurd h (by omega)⟩
  · rintro j ⟨-, hj, hn, -⟩
    have none : ∀ j < 8, recordName (machine (image 8) [0x200, 0x30726964, 0, 0x656C6966, 0x33]).mem (fileRecord Config.x 0x200 j) ≠
        (machine (image 8) [0x200, 0x30726964, 0, 0x656C6966, 0x33]).name 3 4 := by decide +kernel
    exact none j (by omega) hn
  · rintro k ⟨hk, -, hn, -⟩
    have none : ∀ k < 4, recordName (machine (image 8) [0x200, 0x32726964, 0, 0x656C6966, 0x30]).mem (dirRecord 0x200 k) ≠
        (machine (image 8) [0x200, 0x32726964, 0, 0x656C6966, 0x30]).name 1 2 := by decide +kernel
    exact none k hk hn

theorem witness_CommandFrame : (∃ t, exec (.expand 0 false false) (player [0x400, 8, 256]) = .next t) ∧
    (∀ r ∈ bytesWrittenBy (.expand 0 false false) (player [0x400, 8, 256]), r.has 0x3FF = false ∧ r.has 0x418 = false) ∧
    (2 : Fin 4) ∉ resWrittenBy (.expand 0 false false) ∧ 1 ∉ voicesWrittenBy (.expand 0 false false) (player [0x400, 8, 256]) :=
  ⟨⟨_, next_left (by decide +kernel)⟩, by decide +kernel, by decide, by decide⟩

theorem witness_ConfigurationIsImmutable : ∃ t, step (player [0x400, 8, 256] 0x11) = .next t := ⟨_, next_left (by decide +kernel)⟩

theorem witness_InvariantIsKept : StateInv (player [0x400, 8, 256] 0x11) ∧ ∃ t, step (player [0x400, 8, 256] 0x11) = .next t :=
  ⟨player_inv _ _, _, next_left (by decide +kernel)⟩

theorem witness_EncodeThenDecode :
    let s := machine [(0, [100])] [0, 1, 0x40]
    let d := machine [(0x40, [0x07])] [0x40, 1, 0x400, 256]
    CanEncode false 0 0 s ∧ s.quiet ∧ Decodable false 0 0 d ∧ d.quiet ∧ d.cfg = s.cfg ∧ d.srcBase = s.dstBase ∧ d.count = s.count ∧
      d.arg 3 = 256 ∧ ∃ u, exec (.enc4 0 0) s = .next u ∧
        ∀ a, s.dstBase ≤ a → a < s.dstBase + codeLen false s.count → d.mem.peek a = u.mem.peek a := by
  refine ⟨?_, ⟨rfl, by decide +kernel⟩, ?_, ⟨rfl, by decide +kernel⟩, rfl, by decide +kernel, by decide +kernel, by decide +kernel,
    _, next_left (by decide +kernel), ?_⟩
  · unfold CanEncode State.wrote; decide +kernel
  · unfold Decodable State.wrote; decide +kernel
  · intro a h1 h2
    have e : a = 0x40 := by
      have h1 : 0x40 ≤ a := h1
      have h2 : a < 0x40 + 1 := h2
      omega
    subst e; decide +kernel

theorem witness_EncodeThenDecode8 :
    let s := machine [(0, [100])] [0, 1, 0x40]
    let d := machine [(0x40, [0x64])] [0x40, 1, 0x400, 256]
    CanEncode true 0 0 s ∧ s.quiet ∧ Decodable true 0 0 d ∧ d.quiet ∧ d.cfg = s.cfg ∧ d.srcBase = s.dstBase ∧ d.count = s.count ∧
      d.arg 3 = 256 ∧ ∃ u, exec (.enc8 0 0) s = .next u ∧
        ∀ a, s.dstBase ≤ a → a < s.dstBase + codeLen true s.count → d.mem.peek a = u.mem.peek a := by
  intro s d
  have only : ∀ a, 0x40 ≤ a → a < 0x40 + 1 → d.mem.peek a = (left (exec (.enc8 0 0) s)).mem.peek a := fun a h1 h2 => by
    obtain rfl : a = 0x40 := by omega
    decide +kernel
  exact ⟨by unfold CanEncode State.wrote; decide +kernel, ⟨rfl, by decide +kernel⟩, by unfold Decodable State.wrote; decide +kernel,
    ⟨rfl, by decide +kernel⟩, rfl, by decide +kernel, by decide +kernel, by decide +kernel, _, next_left (by decide +kernel), only⟩

/-- The state after the first of the two EXPANDs of the witness below. -/
def chunk1 : State := left (exec (.expand 0 true false) ((player []).withArgs [0x400, 1, 128]))

theorem witness_ChunkEquivalence : (player []).quiet ∧ VoiceInv (player []).cfg ((player []).voice 0) ∧ 0x400 < 2 ^ 32 ∧
    Expandable 0 ((player []).withArgs [BitVec.ofNat 32 0x400, BitVec.ofNat 32 [1, 2].sum, 128]) ∧
    [1, 2].sum ≤ ((player []).voice 0).total.toNat - ((player []).voice 0).pos.toNat ∧
    (∃ u, ExpandRun 0 true false 128 (player []) 0x400 [1, 2] u) ∧
    (∃ w, exec (.expand 0 true false) ((player []).withArgs [BitVec.ofNat 32 0x400, BitVec.ofNat 32 [1, 2].sum, 128]) = .next w) := by
  refine ⟨player_quiet _ _, voiceA_inv, by decide, by unfold Expandable State.wrote; decide +kernel, by decide +kernel,
    ⟨left (exec (.expand 0 true false) (chunk1.withArgs [0x408, 2, 128])), .cons (t := chunk1) ?_ (.cons ?_ (.nil _ _))⟩,
    _, next_left (by decide +kernel)⟩
  · exact next_left (by decide +kernel)
  · exact next_left (by decide +kernel)

theorem witness_BufferSizeIsInvisible : Expandable 1 (player [0x400, 5, 256]) ∧ (player [0x400, 5, 256]).quiet ∧
    VoiceInv (player [0x400, 5, 256]).cfg ((player [0x400, 5, 256]).voice 1) ∧
    ∃ c : Config, c.raw = { (player [0x400, 5, 256]).cfg.raw with bufferSize := c.raw.bufferSize } ∧ c.raw.bufferSize = 4095 :=
  ⟨by unfold Expandable State.wrote; decide +kernel, player_quiet _ _, voiceB_inv,
    ⟨{ Config.rawX with bufferSize := 4095 }, by decide +kernel⟩, rfl, rfl⟩

/-- A voice in the middle of its pass, its volume settled at 128 << 8. -/
def voiceSettled : Voice := { voiceMid with p := { voiceMid.p with volsh := 0x8000, voltgt := 0x8000 } }

/-- The first pass at unity, and the one at a settled target; each over MEMs that hold the same stream. -/
theorem witness_RewindIsRebind (x : Voice) (hx : x = voiceMid ∨ x = voiceSettled) :
    let s := (player []).setVoice 0 x
    let b := machine streams [0x100, 2]
    Rewindable 0 s ∧ VoiceInv s.cfg (s.voice 0) ∧ b.cfg = s.cfg ∧ b.arg 0 = (s.voice 0).base ∧ b.arg 1 = (s.voice 0).size ∧
      b.wrote [0, 1] ∧ s.quiet ∧ b.quiet ∧ (∀ a, (s.voice 0).stream.has a = true → s.mem.peek a = b.mem.peek a) ∧
      ((s.voice 0).p.volsh = 0x10000 ∧ (s.voice 0).p.voltgt = 0x10000 ∨
        (s.voice 0).p.volsh.toNat = (128 : Word).toNat * 256 ∧ (s.voice 0).p.voltgt = (s.voice 0).p.volsh) ∧
      (128 : Word).toNat < 2 ^ 16 ∧ (0x400 : Word).toNat % 4 = 0 := by
  rcases hx with rfl | rfl <;>
  refine ⟨by unfold Rewindable; decide +kernel, by constructor <;> decide +kernel, rfl, by decide +kernel, by decide +kernel,
    by unfold State.wrote; decide +kernel, player_quiet [] 0, ⟨rfl, by decide +kernel⟩, fun _ _ => rfl, by decide +kernel,
    by decide, by decide⟩

/-- Where the passes of the witness above run: three samples in EXPANDs of 1 and 2, over frames that hold the same. -/
theorem witness_SamePasses :
    let t := left (exec (.rewind 0) ((player []).setVoice 0 voiceSettled))
    let u := left (exec (.bind 0 0 0 false true) (machine streams [0x100, 2]))
    Expandable 0 (t.withArgs [BitVec.ofNat 32 0x400, BitVec.ofNat 32 [1, 2].sum, 128]) ∧ 0x400 < 2 ^ 32 ∧ [1, 2].sum < 2 ^ 32 ∧
      ∀ a, 0x400 ≤ a → a < 0x400 + 8 * [1, 2].sum → t.mem.peek a = u.mem.peek a :=
  ⟨by unfold Expandable State.wrote; decide +kernel, by decide, by decide, fun _ _ _ => rfl⟩

end Sys2Proof.Tests
end

/-! The configuration under every step (00_scope.md R10). Each operation of the host port and each turn of the engine has its
own lemma; a step is one turn of either agent, taken on a state that differs at most in its script. -/

namespace Sys2Proof.Machine

/-! ### The host port -/

@[simp] theorem State.readReg_cfg (s : State) (r : Reg) : (s.readReg r).2.cfg = s.cfg := by
  obtain ⟨n, hn⟩ := readReg_state s r
  rw [hn]

@[simp] theorem State.readMem_cfg (s : State) (a : Nat) : (s.readMem a).2.cfg = s.cfg := by
  unfold State.readMem
  split <;> rfl

@[simp] theorem State.writeMem_cfg (s : State) (a : Nat) (b : Byte) : (s.writeMem a b).cfg = s.cfg := by
  unfold State.writeMem
  split <;> rfl

@[simp] theorem State.returned_cfg (r : Word × State) : (State.returned r).cfg = r.2.cfg := rfl

@[simp] theorem State.hardReset_cfg (s : State) : s.hardReset.cfg = s.cfg := rfl

@[simp] theorem State.writeCtrl_cfg (s : State) (v : Word) : (s.writeCtrl v).cfg = s.cfg := by
  unfold State.writeCtrl
  split <;> rfl

@[simp] theorem State.writeCmd_cfg (s : State) (v : Word) : (s.writeCmd v).cfg = s.cfg := by
  unfold State.writeCmd
  split <;> rfl

@[simp] theorem State.writeArg_cfg (s : State) (k : Fin 8) (v : Word) : (s.writeArg k v).cfg = s.cfg := by
  unfold State.writeArg
  split <;> rfl

@[simp] theorem State.writeReg_cfg (s : State) (v : Word) (r : Reg) : (s.writeReg v r).cfg = s.cfg := by
  cases r with
  | ctrl => exact s.writeCtrl_cfg v
  | status => exact s.writeStatus_cfg v
  | cmd => exact s.writeCmd_cfg v
  | arg k => exact s.writeArg_cfg k v
  | res | cfg0 | cfg1 | cfg2 | window | reserved => rfl

/-- Everything a host access can answer as a next state, by the access. -/
theorem hostTurn_next {a : HostAction} {s t : State} (h : hostTurn a s = .next t) :
    (∃ r, t = State.returned (s.readReg r)) ∨ (∃ v r, t = s.writeReg v r) ∨
    (∃ addr, t = State.returned ((s.readMem addr).1.setWidth 32, (s.readMem addr).2)) ∨
    (∃ addr b, t = s.writeMem addr b) ∨ t = s.hardReset := by
  cases a with
  | readReg addr width =>
    simp only [hostTurn] at h
    split at h
    · cases h
    · exact .inl ⟨_, (Host.Outcome.next.inj h).symm⟩
  | writeReg addr width v =>
    simp only [hostTurn] at h
    split at h
    · cases h
    · exact .inr (.inl ⟨_, _, (Host.Outcome.next.inj h).symm⟩)
  | readMem addr =>
    simp only [hostTurn] at h
    split at h
    · exact .inr (.inr (.inl ⟨_, (Host.Outcome.next.inj h).symm⟩))
    · cases h
  | writeMem addr b =>
    simp only [hostTurn] at h
    split at h
    · exact .inr (.inr (.inr (.inl ⟨_, _, (Host.Outcome.next.inj h).symm⟩)))
    · cases h
  | reset => exact .inr (.inr (.inr (.inr (Host.Outcome.next.inj h).symm)))

theorem hostTurn_cfg {a : HostAction} {s t : State} (h : hostTurn a s = .next t) : t.cfg = s.cfg := by
  obtain ⟨r, rfl⟩ | ⟨v, r, rfl⟩ | ⟨addr, rfl⟩ | ⟨addr, b, rfl⟩ | rfl := hostTurn_next h <;> simp

/-! ### The engine -/

theorem EffectWithin.cfg {i : Instr} {s t : State} (h : EffectWithin i s t) : t.cfg = s.cfg := by
  rw [h.fields]

theorem exec_cfg {i : Instr} {s t : State} (h : exec i s = .next t) : t.cfg = s.cfg := by
  obtain ⟨c, -, rfl⟩ | ⟨-, s', hw, rfl | ⟨rfl, -⟩⟩ := exec_next h
  · rfl
  · exact hw.cfg
  · exact hw.cfg

theorem runWord_cfg {s t : State} (h : runWord s = .next t) : t.cfg = s.cfg := by
  unfold runWord at h
  split at h
  · exact exec_cfg h
  · cases h; rfl

theorem engineTurn_cfg {s t : State} (h : engineTurn s = .next t) : t.cfg = s.cfg := by
  unfold engineTurn at h
  split at h
  · cases h; rfl
  · exact runWord_cfg h

/-! ### The step -/

/-- Every step is one turn of either agent, on the state as it is or with the turn taken off its script. -/
theorem step_next {s t : State} (h : step s = .next t) :
    engineTurn s = .next t ∨ ∃ x rest, s.script = x :: rest ∧ turn x { s with script := rest } = .next t := by
  unfold step at h
  split at h
  · exact .inl h
  · rename_i x rest hs
    exact .inr ⟨x, rest, hs, h⟩

theorem turn_cfg {x : Turn} {s t : State} (h : turn x s = .next t) : t.cfg = s.cfg := by
  cases x with
  | host a => exact hostTurn_cfg h
  | engine => exact engineTurn_cfg h

/-- Settles O54: a step is one turn, and neither agent's turn changes the configuration. -/
theorem configurationIsImmutable : Obligations.ConfigurationIsImmutable := by
  intro s t h
  obtain he | ⟨x, rest, -, ht⟩ := step_next h
  · exact engineTurn_cfg he
  · have hcfg : t.cfg = { s with script := rest }.cfg := turn_cfg ht
    exact hcfg

end Sys2Proof.Machine

/-! The step and the host's accesses to the block and to MEM (10_state.md R17..R32, 20_memory.md R43, R46): what each access
answers, said once for each register, and the statements about them. -/

namespace Sys2Proof

/-- The decoder undoes the encoder (30_encoding.md R51, R53, R54). -/
theorem decode_encode (i : Instr) : decode (encode i) = .ok i := by
  unfold decode encode
  rw [Fields.ofWord_toWord]
  cases i <;> simp [Instr.fields, Fields.only, Fields.decode, Fields.guard, Fields.keep]

end Sys2Proof

namespace Sys2Proof.Machine

/-! ### The step and the engine's turn -/

theorem step_of_script_nil {s : State} (h : s.script = []) : step s = engineTurn s := by
  simp [step, h]

theorem step_of_script_cons {s : State} {x : Turn} {rest : List Turn} (h : s.script = x :: rest) :
    step s = turn x { s with script := rest } := by
  simp [step, h]

theorem engineTurn_of_idle {s : State} (h : s.phase = .idle) : engineTurn s = .next s := by
  simp [engineTurn, h]

theorem engineTurn_of_decode {s : State} {i : Instr} (h : s.phase = .busy) (hd : decode s.cmd = .ok i) :
    engineTurn s = exec i s := by
  simp [engineTurn, h, runWord, hd]

theorem withFetchWord_encode (s : State) (i : Instr) : s.withFetchWord 32 (encode i).toNat = s.issued (encode i) := by
  rw [State.withFetchWord, Nat.mod_eq_of_lt (encode i).isLt, BitVec.ofNat_toNat, BitVec.setWidth_eq]

/-- The engine's turn that `issued` puts first in the script runs the issued command (log 12). -/
theorem step_issued_encode (s : State) (i : Instr) : step (s.issued (encode i)) =
    exec i ({ s with args := ⟨s.args.val, Vector.replicate 8 true⟩ }.accept (encode i)) := by
  have hstep : step (s.issued (encode i)) =
      engineTurn ({ s with args := ⟨s.args.val, Vector.replicate 8 true⟩ }.accept (encode i)) :=
    step_of_script_cons (s := s.issued (encode i)) (x := .engine) (rest := s.script) rfl
  rw [hstep]
  exact engineTurn_of_decode (State.accept_phase _ _) (decode_encode i)

/-- Settles O6: the engine's turn decodes CMD, and an issued word is in CMD with the engine's turn next. -/
theorem stepRunsTheDecodedCommand : Obligations.StepRunsTheDecodedCommand := by
  intro s i
  constructor
  · intro hb hd
    exact ⟨engineTurn_of_decode hb hd, fun hs => (step_of_script_nil hs).trans (engineTurn_of_decode hb hd),
      fun rest hs => (step_of_script_cons hs).trans (engineTurn_of_decode (s := { s with script := rest }) hb hd)⟩
  · rw [withFetchWord_encode]
    exact step_issued_encode s i

/-- Settles O7: the step takes the script's next turn, and an IDLE engine's turn is no change. -/
theorem hostTurnsInOrder : Obligations.HostTurnsInOrder := by
  intro s a rest
  refine ⟨step_of_script_cons, fun hi => ⟨engineTurn_of_idle hi, fun hs => ?_, fun hs => ?_⟩⟩
  · exact (step_of_script_nil hs).trans (engineTurn_of_idle hi)
  · exact (step_of_script_cons hs).trans (engineTurn_of_idle (s := { s with script := rest }) hi)

/-! ### Host register accesses -/

theorem busy_iff (s : State) : s.busy = true ↔ s.phase = .busy := by
  cases hp : s.phase <;> simp [State.busy, hp]

theorem busy_of_idle {s : State} (h : s.phase = .idle) : s.busy = false := by
  simp [State.busy, h]

/-- An admitted read of a register whose reading leaves the state alone changes the outbox only. -/
theorem hostTurn_read_shows {s : State} {off : Nat} {r : Reg} {w : Word} (h : off < 1024) (h4 : off % 4 = 0)
    (hr : regAt s.cfg off = r) (hw : s.readReg r = (w, s)) :
    hostTurn (.readReg (s.cfg.raw.engineBase + off) 4) s = .next { s with outbox := w :: s.outbox } := by
  rw [hostTurn_read s h h4, hr, hw]
  rfl

theorem hostTurn_refused (s : State) {off width : Nat} (v : Word) (h : off < 1024) (hw : width ≠ 4 ∨ off % 4 ≠ 0) :
    hostTurn (.readReg (s.cfg.raw.engineBase + off) width) s = .refused .hostAccess ∧
      hostTurn (.writeReg (s.cfg.raw.engineBase + off) width v) s = .refused .hostAccess := by
  simp [hostTurn, locate_refused s.cfg h hw]

/-- From RES0 up the register map holds no register the host can write (10_state.md R17, R19). -/
theorem writeReg_readOnly (s : State) (v : Word) {off : Nat} (h : 0x030 ≤ off) : s.writeReg v (regAt s.cfg off) = s := by
  simp only [regAt, show off ≠ 0x000 by omega, show off ≠ 0x004 by omega, show off ≠ 0x008 by omega,
    show ¬ off < 0x030 by omega, and_false, if_false]
  (repeat' split) <;> rfl

theorem hostTurn_write_readOnly (s : State) (v : Word) {off : Nat} (h : off < 1024) (h4 : off % 4 = 0) (hr : 0x030 ≤ off) :
    hostTurn (.writeReg (s.cfg.raw.engineBase + off) 4 v) s = .next s := by
  rw [hostTurn_write s v h h4, writeReg_readOnly s v hr]

/-- Settles O17: `locate` refuses by width and offset, and admits every other offset of the block. -/
theorem hostAccessWidthAndAlignment : Obligations.HostAccessWidthAndAlignment := by
  intro s off width v h
  refine ⟨hostTurn_refused s v h, ?_⟩
  rintro ⟨rfl, h4⟩
  exact ⟨⟨_, hostTurn_read s h h4⟩, ⟨_, hostTurn_write s v h h4⟩⟩

/-! ### STATUS and CTRL -/

theorem statusWord_bits (s : State) : s.statusWord.getLsbD 0 = s.busy ∧ s.statusWord.getLsbD 1 = s.done ∧
    s.statusWord.getLsbD 2 = s.err ∧ s.statusWord.getLsbD 3 = s.ovr := by
  simp only [State.statusWord, BitVec.getLsbD_append]
  simp

theorem statusWord_fields (s : State) : s.statusWord.extractLsb' 4 4 = 0 ∧ s.statusWord.extractLsb' 8 4 = s.ecode.bits ∧
    s.statusWord.extractLsb' 12 20 = 0 := by
  simp only [State.statusWord]
  refine ⟨?_, ?_, ?_⟩ <;> repeat rw [BitVec.extractLsb'_append_eq_of_le (by omega)]
  · exact BitVec.extractLsb'_append_eq_right
  · exact BitVec.extractLsb'_append_eq_right
  · exact BitVec.extractLsb'_eq_self

theorem statusWord_reserved (s : State) : s.statusWord &&& 0xFFFFF0F0 = 0 := by
  have hmask : (0xFFFFF0F0 : Word) = 0xFFFFF#20 ++ 0#4 ++ 0xF#4 ++ 0#1 ++ 0#1 ++ 0#1 ++ 0#1 := rfl
  rw [hmask, State.statusWord]
  repeat rw [BitVec.and_append]
  simp

theorem ctrlWord_reserved (s : State) : s.ctrlWord &&& 0xFFFFFFFE = 0 := by
  have hmask : (0xFFFFFFFE : Word) = 0x7FFFFFFF#31 ++ 0#1 := rfl
  rw [hmask, State.ctrlWord, BitVec.and_append]
  simp

theorem ctrlWord_eq (s : State) : s.ctrlWord = if s.ie then 1 else 0 := by
  cases h : s.ie <;> simp [State.ctrlWord, h]

theorem writeStatus_mask (s : State) (v : Word) : s.writeStatus v = s.writeStatus (v &&& 0xE) := by
  simp [State.writeStatus]

theorem writeCtrl_mask (s : State) (v : Word) : s.writeCtrl v = s.writeCtrl (v &&& 3) := by
  simp [State.writeCtrl, State.writeIE]

/-- Settles O18: a read returns the STATUS word, a write is `writeStatus`. -/
theorem statusRegister : Obligations.StatusRegister := by
  intro s
  obtain ⟨b0, b1, b2, b3⟩ := statusWord_bits s
  refine ⟨⟨s.statusWord, hostTurn_read_shows (r := .status) (by decide) rfl rfl rfl, ?_, b1, b2, b3, statusWord_fields s⟩,
    fun v => ?_⟩
  · rw [b0, busy_iff]
  · rw [hostTurn_write s v (by decide) rfl, regAt_status]
    rfl

/-! ### The configuration registers -/

theorem cfg0Word_fields (c : Config) : (cfg0Word c).extractLsb' 0 8 = BitVec.ofNat 8 c.raw.nVoices ∧
    (cfg0Word c).extractLsb' 8 8 = BitVec.ofNat 8 c.nTables ∧ (cfg0Word c).extractLsb' 16 4 = BitVec.ofNat 4 c.nPred ∧
    (cfg0Word c).extractLsb' 20 12 = BitVec.ofNat 12 c.raw.bufferSize := by
  simp only [cfg0Word]
  refine ⟨?_, ?_, ?_, ?_⟩ <;> repeat rw [BitVec.extractLsb'_append_eq_of_le (by omega)]
  case refine_4 => exact BitVec.extractLsb'_eq_self
  all_goals exact BitVec.extractLsb'_append_eq_right

theorem cfg1Word_fields (c : Config) : (cfg1Word c).extractLsb' 0 16 = BitVec.ofNat 16 c.raw.numDir ∧
    (cfg1Word c).extractLsb' 16 16 = BitVec.ofNat 16 c.raw.numFiles :=
  ⟨BitVec.extractLsb'_append_eq_right, BitVec.extractLsb'_append_eq_left⟩

/-- A field that holds a number it is wide enough for reads as that number. -/
theorem toNat_of_field {n k : Nat} {w : BitVec n} (hw : w = BitVec.ofNat n k) (hk : k < 2 ^ n) : w.toNat = k := by
  rw [hw, BitVec.toNat_ofNat, Nat.mod_eq_of_lt hk]

/-- Settles O20: the bounds of 00_scope.md R9 make every number fit its field. -/
theorem configurationRegisters : Obligations.ConfigurationRegisters := by
  intro s
  have hv := s.cfg.nVoices_bounds
  have ht := s.cfg.nTables_bounds
  have hp := s.cfg.nPred_bounds
  have hb := s.cfg.bufferSize_bounds
  have hi := s.cfg.image_bounds
  obtain ⟨voices, tables, preds, buffer⟩ := cfg0Word_fields s.cfg
  obtain ⟨dirs, files⟩ := cfg1Word_fields s.cfg
  exact ⟨cfg0Word s.cfg, cfg1Word s.cfg, cfg2Word s.cfg,
    hostTurn_read_shows (r := .cfg0) (by decide) rfl rfl rfl,
    hostTurn_read_shows (r := .cfg1) (by decide) rfl rfl rfl,
    hostTurn_read_shows (r := .cfg2) (by decide) rfl rfl rfl,
    toNat_of_field voices (by omega), toNat_of_field tables (by omega), toNat_of_field preds (by omega),
    toNat_of_field buffer (by omega), toNat_of_field dirs (by omega), toNat_of_field files (by omega),
    fun hfit => toNat_of_field rfl hfit⟩

/-! ### The voice windows -/

theorem vctl_flags (x : Voice) : x.vctl.getLsbD 0 = x.bound ∧ x.vctl.getLsbD 1 = x.is8 ∧ x.vctl.getLsbD 2 = x.odd ∧
    x.vctl.getLsbD 3 = x.p.high := by
  simp only [Voice.vctl, BitVec.getLsbD_append]
  simp

theorem vctl_fields (x : Voice) : x.vctl.extractLsb' 4 4 = x.p.shift ∧ x.vctl.extractLsb' 8 4 = x.table ∧
    x.vctl.extractLsb' 12 2 = x.pred ∧ x.vctl.extractLsb' 14 2 = 0 ∧ x.vctl.extractLsb' 16 8 = x.p.held ∧
    x.vctl.extractLsb' 24 8 = 0 := by
  simp only [Voice.vctl]
  refine ⟨?_, ?_, ?_, ?_, ?_, ?_⟩ <;> repeat rw [BitVec.extractLsb'_append_eq_of_le (by omega)]
  case refine_6 => exact BitVec.extractLsb'_eq_self
  all_goals exact BitVec.extractLsb'_append_eq_right

theorem vctl_reserved (x : Voice) : x.vctl &&& 0xFF00C000 = 0 := by
  have hmask : (0xFF00C000 : Word) = 0xFF#8 ++ 0#8 ++ 3#2 ++ 0#2 ++ 0#4 ++ 0#4 ++ 0#1 ++ 0#1 ++ 0#1 ++ 0#1 := rfl
  rw [hmask, Voice.vctl]
  repeat rw [BitVec.and_append]
  simp

theorem windowWord_reserved (x : Voice) {word : Nat} (h : 0x28 ≤ word) : x.windowWord word = 0 := by
  unfold Voice.windowWord
  repeat rw [if_neg (by omega)]

theorem readWindow_bound {s : State} {v : Nat} (word : Nat) (h : s.phase = .idle) (hb : (s.voice v).bound = true) :
    s.readWindow v word = ((s.voice v).windowWord word, s) := by
  simp [State.readWindow, busy_of_idle h, hb]

theorem readWindow_unbound {s : State} {v : Nat} (word : Nat) (h : s.phase = .idle) (hb : (s.voice v).bound = false) :
    s.readWindow v word =
      ((anyVoice s.mem.draws).windowWord word, { s with mem := { s.mem with draws := s.mem.draws + 9 } }) := by
  simp [State.readWindow, busy_of_idle h, hb]

theorem windowOffset_lt {c : Config} {v word : Nat} (hv : v < c.raw.nVoices) (hw : word < 0x40) :
    0x100 + 0x40 * v + word < 1024 := by
  have := c.nVoices_bounds
  omega

theorem hostTurn_read_window {s : State} {v word : Nat} (hv : v < s.cfg.raw.nVoices) (hw : word < 0x40)
    (h4 : word % 4 = 0) : hostTurn (.readReg (s.cfg.raw.engineBase + (0x100 + 0x40 * v + word)) 4) s =
      .next (State.returned (s.readWindow v word)) := by
  rw [hostTurn_read s (windowOffset_lt hv hw) (by omega), regAt_window s.cfg hv hw]
  rfl

theorem hostTurn_read_window_bound {s : State} {v word : Nat} (hi : s.phase = .idle) (hv : v < s.cfg.raw.nVoices)
    (hb : (s.voice v).bound = true) (hw : word < 0x40) (h4 : word % 4 = 0) :
    hostTurn (.readReg (s.cfg.raw.engineBase + (0x100 + 0x40 * v + word)) 4) s =
      .next { s with outbox := (s.voice v).windowWord word :: s.outbox } := by
  rw [hostTurn_read_window hv hw h4, readWindow_bound word hi hb]
  rfl

/-- Settles O21: a window read while IDLE returns `windowWord`, of the voice itself when it is bound and of a voice with
BOUND = 0 when it is not; the windows lie in the read-only part of the map. -/
theorem voiceWindow : Obligations.VoiceWindow := by
  intro s v hi hv x read shows
  refine ⟨fun hb => ?_, fun hb => ?_, fun word value hw h4 => ?_⟩
  · have hword : ∀ word, word < 0x40 → word % 4 = 0 → shows word (x.windowWord word) :=
      fun word hw h4 => hostTurn_read_window_bound hi hv hb hw h4
    obtain ⟨bound, is8, odd, high⟩ := vctl_flags x
    refine ⟨⟨x.vctl, hword 0x00 (by decide) rfl, bound.trans hb, is8, odd, high, vctl_fields x⟩,
      ⟨_, hword 0x04 (by decide) rfl, BitVec.toInt_signExtend_of_le (by decide)⟩,
      ⟨_, hword 0x08 (by decide) rfl, BitVec.toInt_signExtend_of_le (by decide)⟩,
      ⟨_, hword 0x0C (by decide) rfl, BitVec.toNat_setWidth_of_le (b := x.p.volsh) (by decide : 24 ≤ 32)⟩,
      ⟨_, hword 0x10 (by decide) rfl, BitVec.toNat_setWidth_of_le (b := x.p.voltgt) (by decide : 24 ≤ 32)⟩,
      hword 0x14 (by decide) rfl, hword 0x18 (by decide) rfl, hword 0x1C (by decide) rfl, hword 0x20 (by decide) rfl,
      hword 0x24 (by decide) rfl, fun word hlo hw h4 => ?_⟩
    rw [← windowWord_reserved x hlo]
    exact hword word hw h4
  · have hturn : read 0x00 = .next (State.returned (s.readWindow v 0x00)) := hostTurn_read_window hv (by decide) rfl
    rw [readWindow_unbound 0x00 hi hb] at hturn
    exact ⟨_, _, hturn, rfl, (vctl_flags _).1⟩
  · exact hostTurn_write_readOnly s value (windowOffset_lt hv hw) (by omega) (by omega)

/-- Settles O19: reserved offsets reach `Reg.reserved`, the offsets from RES0 up ignore writes, and the words and writes of
the registers have their reserved bits masked out. -/
theorem reservedAndReadOnly : Obligations.ReservedAndReadOnly := by
  intro s v
  refine ⟨fun off h h4 hr => ⟨?_, ?_⟩, fun off h h4 hr => hostTurn_write_readOnly s v h h4 hr, writeStatus_mask s v,
    writeCtrl_mask s v, statusWord_reserved s, ctrlWord_reserved s,
    fun x => ⟨vctl_reserved x, fun word hw => windowWord_reserved x hw⟩⟩
  · exact hostTurn_read_shows h h4 (regAt_reserved s.cfg off hr) rfl
  · rw [hostTurn_write s v h h4, regAt_reserved s.cfg off hr]
    rfl

/-! ### CMD, ARG and RES -/

theorem writeArg_of_idle {s : State} (h : s.phase = .idle) (k : Fin 8) (v : Word) :
    s.writeArg k v = { s with args := s.args.write k v } := by
  simp [State.writeArg, busy_of_idle h]

theorem ArgFile.write_same (f : ArgFile) (k : Fin 8) (v : Word) :
    (f.write k v).val[k] = v ∧ (f.write k v).written[k] = true := by
  simp [ArgFile.write]

theorem ArgFile.write_other (f : ArgFile) {k j : Fin 8} (v : Word) (h : j ≠ k) :
    (f.write k v).val[j] = f.val[j] ∧ (f.write k v).written[j] = f.written[j] := by
  have hne : k.val ≠ j.val := fun e => h (Fin.ext e.symm)
  simp [ArgFile.write, Vector.getElem_set_ne _ _ hne]

/-- Settles O22: each offset reaches its register, and only a read of RES while BUSY draws a free value. -/
theorem hostRegisterReads : Obligations.HostRegisterReads := by
  intro s
  refine ⟨fun k v hi => ?_, fun k => ?_, fun k hi => ?_, fun k => ?_, ?_, ?_⟩
  · refine ⟨{ s with args := s.args.write k v }, ?_, (s.args.write_same k v).1, (s.args.write_same k v).2,
      fun j hj => s.args.write_other v hj, rfl⟩
    rw [hostTurn_write s v (by omega) (by omega), regAt_arg]
    exact congrArg _ (writeArg_of_idle hi k v)
  · exact hostTurn_read_shows (by omega) (by omega) (regAt_arg s.cfg k) rfl
  · exact hostTurn_read_shows (by omega) (by omega) (regAt_res s.cfg k) (by simp [State.readReg, busy_of_idle hi])
  · obtain ⟨n, hn⟩ := readReg_state s (.res k)
    refine ⟨(s.readReg (.res k)).1, n, ?_⟩
    rw [hostTurn_read s (by omega) (by omega), regAt_res, State.returned, hn]
  · exact hostTurn_read_shows (r := .cmd) (by decide) rfl rfl rfl
  · rw [← ctrlWord_eq]
    exact hostTurn_read_shows (off := 0) (r := .ctrl) (by decide) rfl rfl rfl

/-! ### Host accesses to MEM -/

theorem hostTurn_readMem {s : State} {addr : Nat} (h : addr < s.cfg.raw.memSize) :
    hostTurn (.readMem addr) s = .next (State.returned ((s.readMem addr).1.setWidth 32, (s.readMem addr).2)) := by
  simp [hostTurn, h]

theorem hostTurn_writeMem {s : State} {addr : Nat} (b : Byte) (h : addr < s.cfg.raw.memSize) :
    hostTurn (.writeMem addr b) s = .next (s.writeMem addr b) := by
  simp [hostTurn, h]

theorem hostTurn_readMem_plain {s : State} {addr : Nat} (h : addr < s.cfg.raw.memSize)
    (hr : ∀ r ∈ s.bytesWrittenNow, r.has addr = false) :
    hostTurn (.readMem addr) s = .next { s with outbox := (s.mem.peek addr).setWidth 32 :: s.outbox } := by
  have hfree : s.bytesWrittenNow.any (·.has addr) = false := by simpa using hr
  have hread : s.readMem addr = (s.mem.peek addr, s) := by simp [State.readMem, hfree]
  rw [hostTurn_readMem h, hread]
  rfl

/-- A host read of a MEM byte changes nothing but the count of used free values. -/
theorem readMem_state (s : State) (addr : Nat) : ∃ n, (s.readMem addr).2 = { s with mem := { s.mem with draws := n } } := by
  unfold State.readMem
  split <;> exact ⟨_, rfl⟩

theorem bytesWrittenNow_of_running {s : State} {i : Instr} (h : s.running = some i) :
    s.bytesWrittenNow = bytesWrittenBy i s := by
  simp [State.bytesWrittenNow, h]

theorem safe_of_keepsContract {s : State} {a : HostAction} (h : a.keepsContract s = true) : Safe (hostTurn a s) := by
  cases a with
  | readReg addr width | writeReg addr width v =>
    cases hloc : locate s.cfg addr width with
    | error e => simp [HostAction.keepsContract, hloc] at h
    | ok off => simp [Safe, hostTurn, hloc]
  | readMem addr =>
    simp only [HostAction.keepsContract, Bool.and_eq_true, decide_eq_true_eq] at h
    exact ⟨_, hostTurn_readMem h.1⟩
  | writeMem addr b =>
    simp only [HostAction.keepsContract, Bool.and_eq_true, decide_eq_true_eq] at h
    exact ⟨_, hostTurn_writeMem b h.1⟩
  | reset => exact ⟨_, rfl⟩

/-- Settles O23: the contract is what `locate` and MEM_SIZE ask, and a MEM read draws a free value only for a byte the running
command writes. -/
theorem contractActionsAreAdmitted : Obligations.ContractActionsAreAdmitted := by
  intro s
  refine ⟨fun a ha => safe_of_keepsContract ha, fun addr h => ⟨hostTurn_readMem_plain h, ?_, ?_⟩⟩
  · obtain ⟨n, hn⟩ := readMem_state s addr
    refine ⟨(s.readMem addr).1.setWidth 32, n, ?_, ?_⟩
    · rw [hostTurn_readMem h, hn]
      rfl
    · rw [BitVec.toNat_setWidth_of_le (by decide)]
      exact (s.readMem addr).1.isLt
  · intro v add ove hrun hpast
    refine hostTurn_readMem_plain h fun r hr => ?_
    rw [bytesWrittenNow_of_running hrun] at hr
    obtain rfl : r = s.producedFrames v.toNat := by simpa [bytesWrittenBy] using hr
    rw [← Bool.not_eq_true, State.producedFrames, Region.has_mk, State.wanted]
    omega

end Sys2Proof.Machine

/-! The frame of every command (20_memory.md R37, 40_lifecycle.md R69), and the commands that read an ARG nothing has written
(10_state.md R23): the checks of a command fail exactly on the conditions of its rule, and read exactly the ARGs it names. -/

namespace Sys2Proof.Machine

/-! ### The frame -/

theorem EffectWithin.refl (i : Instr) (s : State) : EffectWithin i s s :=
  ⟨rfl, fun _ _ => .refl _ _, fun _ _ => rfl, fun _ _ => rfl, id⟩

/-- A command's next state is the end, with or without an error, of a state its effect may leave. -/
theorem exec_within {i : Instr} {s t : State} (h : exec i s = .next t) :
    ∃ s', EffectWithin i s s' ∧ (t = s'.complete ∨ ∃ c, t = s'.raiseError c) := by
  obtain ⟨c, -, ht⟩ | ⟨-, s', hw, ht | ⟨ht, -⟩⟩ := exec_next h
  · exact ⟨s, .refl i s, .inr ⟨c, ht⟩⟩
  · exact ⟨s', hw, .inl ht⟩
  · exact ⟨s', hw, .inr ⟨_, ht⟩⟩

/-- Settles O53: both ends of a command change STATUS, the phase and the races only, so its frame is its effect's. -/
theorem commandFrame : Obligations.CommandFrame := by
  intro i s t h
  obtain ⟨s', hw, rfl | ⟨c, rfl⟩⟩ := exec_within h
  all_goals
    have hc := hw.completed
    exact ⟨fun a ha => hw.peek ha, hw.res, hw.voices, hc.args, hc.snapshot, hc.cmd, hc.ie, hc.ovr, hc.cfg, hc.script,
      hc.outbox, rfl, rfl⟩

/-! ### When a check fails -/

theorem checkPair_fails_iff (s : State) (t : BitVec 4) (p : BitVec 2) : (checkPair s t p).fails = true ↔ noPair s t p := by
  simp [checkPair, Check.raises, noPair]

theorem checkAlign_fails_iff (ks : List (Fin 8)) (b k : Nat) : (checkAlign ks b k).fails = true ↔ b % k ≠ 0 := by
  simp [checkAlign, Check.raises]

theorem checkRange_fails_iff (s : State) (ks : List (Fin 8)) (r : Region) :
    (checkRange s ks r).fails = true ↔ leavesMem s r := by
  simp [checkRange, Check.raises, leavesMem_iff]

theorem checkOverlap_fails_iff (ks : List (Fin 8)) (r q : Region) :
    (checkOverlap ks r q).fails = true ↔ sharesByte r q := (sharesByte_iff r q).symm

theorem checkHighBits_fails_iff (k : Fin 8) (s : State) (n : Nat) :
    (checkHighBits k s n).fails = true ↔ 2 ^ n ≤ (s.arg k).toNat := by
  simp [checkHighBits, Check.raises, highBits_iff]

theorem checkVoice_fails_iff (s : State) (v : Nat) : (checkVoice s v).fails = true ↔ s.cfg.raw.nVoices ≤ v := by
  simp [checkVoice, Check.raises]

theorem checkBound_fails_iff (s : State) (v : Nat) : (checkBound s v).fails = true ↔ (s.voice v).bound = false := by
  simp [checkBound, Check.raises]

theorem raises_fails (c : ErrCode) (ks : List (Fin 8)) (b : Bool) : (Check.raises c ks b).fails = b := rfl

theorem needs_passes (ks : List (Fin 8)) : ¬ (Check.needs ks).fails = true := by simp [Check.needs]

theorem checkStream_passes {s : State} (hs : s.streamsInMem) {v : Nat} (hb : (s.voice v).bound = true) :
    ¬ (checkStream s v).fails = true := by
  simp [checkStream, hs v hb]

/-- A mask with a bit at or above `n` set, as SELECT's checks of its masks ask. -/
theorem beyondMask_iff (w : Word) (n : Nat) : (w >>> n != 0) = true ↔ ∃ i, w.getLsbD i = true ∧ n ≤ i := by
  rw [bne_iff_ne]
  exact highMask_iff w n

theorem fillChecks_pass {ove : Bool} {s : State} (h : (conditionsOf (.fill ove) s).first .none) (hs : s.streamsInMem) :
    ∀ c ∈ fillChecks s, ¬ c.fails = true := by
  simp only [conditionsOf, Conditions.first, not_or, not_exists, not_and, Bool.not_eq_false] at h
  obtain ⟨hillegal, hvoice, -, halign, hrange, hoverlap⟩ := h
  simp only [fillChecks, List.forall_mem_append, List.forall_mem_cons, List.forall_mem_flatMap, List.forall_mem_map,
    List.not_mem_nil, false_imp_iff, implies_true, and_true, checkHighBits_fails_iff, checkVoice_fails_iff,
    checkBound_fails_iff, checkAlign_fails_iff, checkRange_fails_iff, checkOverlap_fails_iff, Bool.not_eq_false]
  exact ⟨⟨⟨⟨⟨hillegal, hvoice⟩, halign, hrange⟩, hoverlap⟩, needs_passes _⟩,
    fun v hv => checkStream_passes hs (hvoice v hv).2⟩

/-- With no condition of a command's rule met, none of its checks fails. -/
theorem checksOf_pass {i : Instr} {s : State} (h : (conditionsOf i s).first .none) (hs : s.streamsInMem) :
    ∀ c ∈ checksOf i s, ¬ c.fails = true := by
  cases i with
  | nop => simp [checksOf, nopChecks]
  | fill ove => exact fillChecks_pass h hs
  | expand v add ove =>
    obtain ⟨hillegal, hvoice, -, halign, hrange, hoverlap⟩ := h
    simp only [conditionsOf, not_or, Bool.not_eq_false] at hillegal hvoice halign hrange hoverlap
    simp only [checksOf, expandChecks, List.forall_mem_cons, List.not_mem_nil, false_imp_iff, implies_true, and_true,
      checkHighBits_fails_iff, checkVoice_fails_iff, checkBound_fails_iff, checkAlign_fails_iff, checkRange_fails_iff,
      checkOverlap_fails_iff, Bool.not_eq_false]
    exact ⟨hillegal, hvoice.1, hvoice.2, halign, hrange, hoverlap, checkStream_passes hs hvoice.2⟩
  | enc4 | dec4 | enc8 | dec8 | bind | rewind | select | lookupDir | lookupFile =>
    simp only [conditionsOf, encConditions, decConditions, Conditions.first, not_or] at h
    simp only [checksOf, encChecks, decChecks, bindChecks, rewindChecks, selectChecks, lookupChecks, List.forall_mem_cons,
      List.not_mem_nil, false_imp_iff, implies_true, and_true, checkPair_fails_iff, checkAlign_fails_iff,
      checkRange_fails_iff, checkOverlap_fails_iff, checkHighBits_fails_iff, checkVoice_fails_iff, checkBound_fails_iff,
      raises_fails, needs_passes, beyondMask_iff, Bool.and_eq_true, beq_iff_eq]
    tauto

/-! ### The ARGs the checks read -/

theorem mem_fillChecks_reads (s : State) (k : Fin 8) :
    k ∈ (fillChecks s).flatMap Check.reads ↔ k ∈ [0, 1, 2, 3] ++ s.fillVoices.map volumeArg := by
  simp only [fillChecks, List.flatMap_append, List.flatMap_assoc, List.flatMap_map]
  simp [checkHighBits, checkAlign, checkRange, checkOverlap, checkVoice, checkBound, checkStream, Check.raises, Check.needs]
  tauto

theorem mem_argsReadBy_iff (i : Instr) (s : State) (k : Fin 8) :
    k ∈ argsReadBy i s ↔ k ∈ (checksOf i s).flatMap Check.reads := by
  cases i with
  | fill ove => exact (mem_fillChecks_reads s k).symm
  | nop | rewind | lookupDir | lookupFile =>
    simp [argsReadBy, checksOf, nopChecks, rewindChecks, lookupChecks, checkRange, checkVoice, checkBound, Check.raises,
      Check.needs]
  | enc4 | dec4 | enc8 | dec8 | bind | expand | select =>
    simp [argsReadBy, checksOf, encChecks, decChecks, bindChecks, expandChecks, selectChecks, checkPair, checkAlign,
      checkRange, checkOverlap, checkHighBits, checkVoice, checkBound, checkStream, Check.raises]
    tauto

/-- Checks of which none fails, one of them with an unwritten ARG, stop on an unwritten ARG one of them reads. -/
theorem validate_unwritten {f : ArgFile} {cs : List Check} (hp : ∀ c ∈ cs, ¬ c.fails = true) {k : Fin 8}
    (hk : ∃ c ∈ cs, k ∈ c.reads) (hu : f.written[k] = false) :
    ∃ j, (∃ c ∈ cs, j ∈ c.reads) ∧ f.written[j] = false ∧ validate f cs = .fault (.unwrittenArg j) := by
  induction cs with
  | nil => simp at hk
  | cons c cs ih =>
    rw [List.forall_mem_cons] at hp
    cases hfind : c.reads.find? fun k => !f.written[k] with
    | some j =>
      exact ⟨j, ⟨c, List.mem_cons_self, List.mem_of_find?_eq_some hfind⟩, by simpa using List.find?_some hfind,
        by rw [validate, hfind]⟩
    | none =>
      have hw := find_unwritten_none.1 hfind
      have hk' : ∃ d ∈ cs, k ∈ d.reads := by
        obtain ⟨d, hd, hkd⟩ := hk
        rcases List.mem_cons.1 hd with rfl | hd
        · rw [hw k hkd] at hu
          cases hu
        · exact ⟨d, hd, hkd⟩
      obtain ⟨j, ⟨d, hd, hj⟩, hju, hv⟩ := ih hp.2 hk'
      have hpassed : c.passed f := ⟨hw, Bool.eq_false_iff.2 hp.1⟩
      exact ⟨j, ⟨d, List.mem_cons_of_mem c hd, hj⟩, hju, (validate_cons_passed hpassed cs).trans hv⟩

theorem exec_fault_of_validate {i : Instr} {s : State} {f : Fault} (h : validate s.snapshot (checksOf i s) = .fault f) :
    exec i s = .fault f := by
  rw [exec_eq, command, h]

/-- Settles O12: no check fails, so validation goes on to the first check that reads an unwritten ARG, and stops there. -/
theorem unwrittenArgumentFaults : Obligations.UnwrittenArgumentFaults := by
  intro i s k hc hs hk hu
  have hreads := List.mem_flatMap.1 ((mem_argsReadBy_iff i s k).1 hk)
  obtain ⟨j, hj, hju, hv⟩ := validate_unwritten (checksOf_pass hc hs) hreads hu
  exact ⟨j, (mem_argsReadBy_iff i s j).2 (List.mem_flatMap.2 hj), hju, exec_fault_of_validate hv⟩

end Sys2Proof.Machine

/-! Host and engine over MEM (20_memory.md R38, R43, R46): one byte as last written, values of several bytes as their
little-endian digits, and the race of a host write inside the running command's footprint. -/

namespace Sys2Proof.Machine

/-! ### One byte -/

/-- Settles O24: the laws of `poke`, which is what the engine's port does while no race is open. -/
theorem memReadsLastWrite : Obligations.MemReadsLastWrite := fun p a b hw =>
  ⟨MemPort.peek_poke_same a b hw, fun _ ha => p.peek_poke_other b ha, MemPort.wf_poke a b hw,
    fun hq => ⟨MemPort.read_quiet hq a, MemPort.write_quiet hq a b⟩⟩

/-! ### Little-endian values -/

theorem Region.has_mk_false {b l a : Nat} (h : a < b ∨ b + l ≤ a) : (Region.mk b l).has a = false := by
  rw [← Bool.not_eq_true, has_mk]
  omega

theorem MemPort.peek_writeLE_other (p : MemPort) {a n x : Nat} (v : Nat) (h : x < a ∨ a + n ≤ x) :
    (p.writeLE a n v).peek x = p.peek x := by
  have hw : Within ⟨a, n⟩ p (p.writeLE a n v) := writeLE_within v fun _ h1 h2 => Region.has_mk.2 ⟨h1, h2⟩
  exact hw.peek x (Region.has_mk_false h)

theorem MemPort.writeLE_races (p : MemPort) (a n v : Nat) : (p.writeLE a n v).races = p.races :=
  (writeLE_within (r := ⟨a, n⟩) v fun _ h1 h2 => Region.has_mk.2 ⟨h1, h2⟩).races

/-- The little-endian value of the low `n` base-256 digits of `v`. -/
theorem leValue_digits (n v : Nat) :
    leValue ((List.range n).map fun i => BitVec.ofNat 8 (v / 256 ^ i)) = v % 256 ^ n := by
  induction n generalizing v with
  | zero => simp [leValue, Nat.mod_one]
  | succ n ih =>
    have htail : ((fun i => BitVec.ofNat 8 (v / 256 ^ i)) ∘ Nat.succ) = fun i => BitVec.ofNat 8 (v / 256 / 256 ^ i) := by
      funext i
      simp [Nat.div_div_eq_div_mul, Nat.pow_succ, Nat.mul_comm]
    rw [List.range_succ_eq_map, List.map_cons, List.map_map, htail, leValue, ih, Nat.pow_succ, Nat.mul_comm (256 ^ n),
      Nat.mod_mul]
    simp

/-- A value written little-endian reads back modulo the bytes written. -/
theorem MemPort.readLE_writeLE {p : MemPort} (hw : p.wf = true) (hq : p.races = []) (a n v : Nat) :
    ((p.writeLE a n v).readLE a n).1 = v % 256 ^ n := by
  have hbytes : ((List.range n).map fun i => (p.writeLE a n v).peek (a + i)) =
      (List.range n).map fun i => BitVec.ofNat 8 (v / 256 ^ i) :=
    List.map_congr_left fun i hi => peek_writeLE hw hq a n v i (List.mem_range.1 hi)
  rw [readLE_quiet ((p.writeLE_races a n v).trans hq), hbytes, leValue_digits]

/-- A sample is the two's complement value of its two bytes. -/
theorem sampleAt_eq (p : MemPort) (a : Nat) : sampleAt p a =
    ((p.peek a).toNat + 256 * (p.peek (a + 1)).toNat : Int) - (if 128 ≤ (p.peek (a + 1)).toNat then 65536 else 0) := by
  have hlo := (p.peek a).isLt
  rw [sampleAt, BitVec.toInt_eq_toNat_cond, byte_append_toNat]
  split <;> split <;> omega

theorem packCodes_toNat (lo hi : BitVec 4) : (packCodes lo hi).toNat = lo.toNat + 16 * hi.toNat := by
  revert lo hi
  decide

/-- Settles O26: the port reads and writes the base-256 digits of a value upward. -/
theorem littleEndian : Obligations.LittleEndian := by
  intro p a v n hq hw
  refine ⟨MemPort.peek_writeLE hw hq a n v, fun x => p.peek_writeLE_other v, fun hv => ?_, ?_, ?_, packCodes_toNat⟩
  · rw [MemPort.readLE_writeLE hw hq, Nat.mod_eq_of_lt hv]
  · rw [readLE4_quiet hq]
    simp only [word32At, byte_append_toNat]
  · rw [readSample_quiet hq, sampleAt_eq]

/-! ### Races -/

theorem MemPort.peek_race_same {p : MemPort} (hw : p.wf = true) (a : Nat) (b : Byte) : (p.race a b).peek a = b :=
  peek_poke_same a b hw

theorem MemPort.peek_race_other (p : MemPort) {a a' : Nat} (b : Byte) (h : a' ≠ a) : (p.race a b).peek a' = p.peek a' :=
  p.peek_poke_other b h

theorem MemPort.wf_race {p : MemPort} (hw : p.wf = true) (a : Nat) (b : Byte) : (p.race a b).wf = true :=
  wf_poke a b hw

/-- The values of a byte that a racing host write keeps for the engine: those of its record, or what MEM holds while it has
none (20_memory.md R46, O3). -/
def MemPort.held (p : MemPort) (a : Nat) : List Byte :=
  match p.raceAt a with
  | none => [p.peek a]
  | some r => r.host :: r.old

theorem MemPort.held_quiet {p : MemPort} (h : p.races = []) (a : Nat) : p.held a = [p.peek a] := by
  rw [held, raceAt_quiet h]

/-- A racing host write replaces the byte's record: its own byte as the host's, and every value held before it. -/
theorem MemPort.race_races (p : MemPort) (a : Nat) (b : Byte) :
    (p.race a b).races = ⟨a, b, p.held a⟩ :: p.races.filter fun r => r.addr != a := by
  cases h : p.raceAt a <;> simp only [race, held, h]

theorem MemPort.raceAt_race_same (p : MemPort) (a : Nat) (b : Byte) :
    (p.race a b).raceAt a = some ⟨a, b, p.held a⟩ := by
  simp [raceAt, race_races]

theorem MemPort.raceAt_race_other (p : MemPort) {a a' : Nat} (b : Byte) (h : a' ≠ a) :
    (p.race a b).raceAt a' = p.raceAt a' := by
  have hkept : (fun r : Race => decide ((r.addr != a) = true ∧ (r.addr == a') = true)) = fun r => r.addr == a' := by
    funext r
    by_cases hr : r.addr = a' <;> simp [hr, h]
  rw [raceAt, race_races, List.find?_cons_of_neg (by simpa using Ne.symm h), List.find?_filter, hkept, raceAt]

theorem MemPort.held_race (p : MemPort) (a : Nat) (b : Byte) : (p.race a b).held a = b :: p.held a := by
  rw [held, raceAt_race_same]

theorem MemPort.read_of_noRace {p : MemPort} {a : Nat} (h : p.raceAt a = none) : (p.read a).1 = p.peek a := by
  rw [read, h]

/-- An engine read of a byte returns a value the byte has held since acceptance. -/
theorem MemPort.read_mem_held (p : MemPort) (a : Nat) : (p.read a).1 ∈ p.peek a :: p.held a := by
  cases h : p.raceAt a with
  | none => simp [read_of_noRace h]
  | some r =>
    simp only [read, held, h]
    rw [List.getD_eq_getElem _ _ (Nat.mod_lt _ (by simp))]
    exact List.getElem_mem _

/-- A byte both the host and the engine write ends with the host's last value or the engine's. -/
theorem MemPort.peek_write_race {p : MemPort} (hw : p.wf = true) (a : Nat) (b c : Byte) :
    ((p.race a b).write a c).peek a = b ∨ ((p.race a b).write a c).peek a = c := by
  have hpoke : ∀ x, ((p.race a b).draw.2.poke a x).peek a = x := fun x => peek_poke_same a x (wf_race hw a b)
  simp only [write, raceAt_race_same, hpoke]
  split
  · exact .inr rfl
  · exact .inl rfl

/-- After one host write, the engine reads the byte before it or the host's. -/
theorem MemPort.read_race {p : MemPort} (hq : p.races = []) (hw : p.wf = true) (a : Nat) (b : Byte) :
    ((p.race a b).read a).1 = p.peek a ∨ ((p.race a b).read a).1 = b := by
  have h := (p.race a b).read_mem_held a
  simp only [peek_race_same hw, held_race, held_quiet hq, List.mem_cons, List.not_mem_nil, or_false] at h
  tauto

/-- After two host writes, the engine reads the byte before them or one of the host's. -/
theorem MemPort.read_race_race {p : MemPort} (hq : p.races = []) (hw : p.wf = true) (a : Nat) (b b2 : Byte) :
    (((p.race a b).race a b2).read a).1 = p.peek a ∨ (((p.race a b).race a b2).read a).1 = b ∨
      (((p.race a b).race a b2).read a).1 = b2 := by
  have h := ((p.race a b).race a b2).read_mem_held a
  simp only [peek_race_same (wf_race hw a b), held_race, held_quiet hq, List.mem_cons, List.not_mem_nil, or_false] at h
  tauto

/-- A race at one address leaves the engine's reads of the others alone. -/
theorem MemPort.read_race_other {p : MemPort} (hq : p.races = []) {a a' : Nat} (b : Byte) (h : a' ≠ a) :
    ((p.race a b).read a').1 = p.peek a' := by
  rw [read_of_noRace ((p.raceAt_race_other b h).trans (raceAt_quiet hq a')), p.peek_race_other b h]

theorem MemPort.peek_write_other (p : MemPort) {a a' : Nat} (c : Byte) (h : a' ≠ a) :
    (p.write a c).peek a' = p.peek a' := by
  have hw : Within ⟨a, 1⟩ p (p.write a c) := write_within c (Region.has_mk.2 (by omega))
  exact hw.peek a' (Region.has_mk_false (by omega))

/-! ### A host write of MEM -/

theorem writeMem_outside {s : State} {a : Nat} (b : Byte) (h : ∀ r ∈ s.footprint, r.has a = false) :
    s.writeMem a b = { s with mem := s.mem.poke a b } := by
  have hany : s.footprint.any (·.has a) = false := by simpa using h
  simp [State.writeMem, hany]

theorem writeMem_inside {s : State} {a : Nat} (b : Byte) (h : ∃ r ∈ s.footprint, r.has a = true) :
    s.writeMem a b = { s with mem := s.mem.race a b } := by
  have hany : s.footprint.any (·.has a) = true := by simpa using h
  simp [State.writeMem, hany]

theorem peek_writeMem_same {s : State} (hw : s.mem.wf = true) (a : Nat) (b : Byte) : (s.writeMem a b).mem.peek a = b := by
  unfold State.writeMem
  split <;> exact MemPort.peek_poke_same a b hw

theorem peek_writeMem_other (s : State) {a a' : Nat} (b : Byte) (h : a' ≠ a) :
    (s.writeMem a b).mem.peek a' = s.mem.peek a' := by
  unfold State.writeMem
  split <;> exact s.mem.peek_poke_other b h

/-- A host write of MEM changes MEM alone. -/
theorem writeMem_frame (s : State) (a : Nat) (b : Byte) : { s.writeMem a b with mem := s.mem } = s := by
  unfold State.writeMem
  split <;> rfl

/-- The second host write to a byte of the footprint races as the first did: the footprint does not depend on MEM. -/
theorem writeMem_inside_twice {s : State} {a : Nat} (b b2 : Byte) (h : ∃ r ∈ s.footprint, r.has a = true) :
    (s.writeMem a b).writeMem a b2 = { s with mem := (s.mem.race a b).race a b2 } := by
  rw [writeMem_inside b h, writeMem_inside b2 (by rwa [footprint_mem])]

/-- Settles O27: outside the footprint a host write pokes MEM; inside, it opens a race that records the values before it, once
and again. -/
theorem hostWritesRace : Obligations.HostWritesRace := by
  intro s a b ha ⟨hq, hw⟩
  refine ⟨s.writeMem a b, hostTurn_writeMem b ha, peek_writeMem_same hw a b, fun _ => peek_writeMem_other s b,
    writeMem_frame s a b, ?_, ?_, ?_⟩
  · intro hout
    rw [writeMem_outside b hout]
    exact hq
  · intro hin
    rw [writeMem_inside b hin]
    refine ⟨MemPort.read_race hq hw a b, fun c => ⟨MemPort.peek_write_race hw a b c, fun a' h => ?_⟩⟩
    exact ⟨MemPort.read_race_other hq b h, (MemPort.peek_write_other _ c h).trans (s.mem.peek_race_other b h)⟩
  · intro hin b2
    refine ⟨(s.writeMem a b).writeMem a b2, hostTurn_writeMem b2 (by rwa [State.writeMem_cfg]), ?_⟩
    rw [writeMem_inside_twice b b2 hin]
    have hw' : (s.mem.race a b).wf = true := MemPort.wf_race hw a b
    exact ⟨MemPort.peek_race_same hw' a b2,
      fun a' h => (MemPort.peek_race_other _ b2 h).trans (s.mem.peek_race_other b h), rfl,
      MemPort.read_race_race hq hw a b b2, MemPort.peek_write_race hw' a b2⟩

end Sys2Proof.Machine

/-! The encoding of the command words (30_encoding.md R51..R55): decoder and encoder are inverse, and each row of the opcode
table selects the words of its command. -/

namespace Sys2Proof

/-! ### The decoder's words -/

/-- `Fields.guard` answers its instruction, and only for fields that are 0 wherever the row has none. -/
theorem Fields.guard_ok {f used : Fields} {i j : Instr} (h : f.guard used i = .ok j) : f = used ∧ i = j := by
  unfold Fields.guard at h
  split at h
  next hf => exact ⟨hf, Except.ok.inj h⟩
  next => cases h

/-- One branch of `Fields.decode`: fields with its opcode are its instruction's, and other fields are the later branches'. -/
theorem Fields.fields_of_branch {f used : Fields} {k : BitVec 8} {i j : Instr} {later : Except IllegalWord Instr}
    (hi : f.opc = k → i.fields = used) (hl : later = .ok j → j.fields = f)
    (h : (if f.opc = k then f.guard used i else later) = .ok j) : j.fields = f := by
  split at h
  next hk =>
    obtain ⟨hf, rfl⟩ := Fields.guard_ok h
    exact (hi hk).trans hf.symm
  next => exact hl h

/-- Fields that decode are those of the instruction they decode to: each of the twelve branches keeps the fields its instruction
has. -/
theorem Fields.fields_of_decode {f : Fields} {i : Instr} : f.decode = .ok i → i.fields = f := by
  unfold Fields.decode
  iterate 12
    refine Fields.fields_of_branch
      (fun hk => by simp [Instr.fields, Fields.only, Fields.keep, ofBool_flag, hk]) ?_
  exact fun h => nomatch h

theorem encode_of_decode {w : BitVec 32} {i : Instr} (h : decode w = .ok i) : encode i = w := by
  rw [encode, Fields.fields_of_decode h, Fields.toWord_ofWord]

theorem decodeTableWord_encode (i : Instr) : decodeTableWord 32 (encode i).toNat = some i := by
  rw [decodeTableWord, Nat.mod_eq_of_lt (encode i).isLt, BitVec.ofNat_toNat, BitVec.setWidth_eq, decode_encode]

/-! ### The rows of the opcode table -/

theorem OpcodeRow.selects_iff (r : OpcodeRow) (w : BitVec 32) : r.selects w = true ↔ w &&& r.mask = r.value := by
  rw [OpcodeRow.selects, beq_iff_eq]

/-- A row selects the word of an instruction exactly when it is the instruction's row (Laws.RowSelection, all instructions). -/
theorem selects_encode_iff {r : OpcodeRow} (hr : r ∈ opcodeTable) (i : Instr) :
    r.selects (encode i) = true ↔ r.mnemonic = i.mnemonic := by
  cases i with
  | nop => exact Laws.RowSelection.nop r hr
  | enc4 t p => exact Laws.RowSelection.enc4 t p r hr
  | dec4 t p add ove => exact Laws.RowSelection.dec4 t p add ove r hr
  | enc8 t p => exact Laws.RowSelection.enc8 t p r hr
  | dec8 t p add ove => exact Laws.RowSelection.dec8 t p add ove r hr
  | bind v t p is8 odd => exact Laws.RowSelection.bind v t p is8 odd r hr
  | expand v add ove => exact Laws.RowSelection.expand v add ove r hr
  | rewind v => exact Laws.RowSelection.rewind v r hr
  | fill ove => exact Laws.RowSelection.fill ove r hr
  | select is8 => exact Laws.RowSelection.select is8 r hr
  | lookupDir => exact Laws.RowSelection.lookupDir r hr
  | lookupFile => exact Laws.RowSelection.lookupFile r hr

theorem Instr.exists_row (i : Instr) : ∃ r ∈ opcodeTable, r.mnemonic = i.mnemonic := by
  cases i <;> simp [opcodeTable, Instr.mnemonic]

/-- A field all of whose bits a mask has is as it was under the mask, at each width R51 gives a field. -/
theorem and_ones : (∀ b : BitVec 1, b &&& 1#1 = b) ∧ (∀ b : BitVec 2, b &&& 3#2 = b) ∧ (∀ b : BitVec 4, b &&& 15#4 = b) ∧
    (∀ b : BitVec 8, b &&& 255#8 = b) ∧ ∀ b : BitVec 10, b &&& 1023#10 = b :=
  ⟨fun _ => BitVec.and_allOnes, fun _ => BitVec.and_allOnes, fun _ => BitVec.and_allOnes, fun _ => BitVec.and_allOnes,
    fun _ => BitVec.and_allOnes⟩

/-- The fields a row selects decode to a command of the row: the mask fixes OPC and every field the row's commands have not. -/
theorem Fields.exists_decode_of_mask {r : OpcodeRow} (hr : r ∈ opcodeTable) (f : Fields)
    (h : f.mask (Fields.ofWord r.mask) = Fields.ofWord r.value) : ∃ i, f.decode = .ok i ∧ i.mnemonic = r.mnemonic := by
  obtain ⟨rsv, pred, odd, is8, ove, add, table, voice, opc⟩ := f
  simp only [opcodeTable, List.cons_append, List.nil_append, List.mem_cons, List.not_mem_nil, or_false] at hr
  rcases hr with rfl | rfl | rfl | rfl | rfl | rfl | rfl | rfl | rfl | rfl | rfl | rfl
  all_goals
    simp [Fields.mask, Fields.ofWord, and_ones] at h
    simp [Fields.decode, Fields.guard, Fields.keep, Instr.mnemonic, h]

theorem exists_decode_of_selects {r : OpcodeRow} (hr : r ∈ opcodeTable) {w : BitVec 32} (h : r.selects w = true) :
    ∃ i, decode w = .ok i ∧ i.mnemonic = r.mnemonic := by
  rw [← Fields.toWord_ofWord w, OpcodeRow.selects_toWord] at h
  exact Fields.exists_decode_of_mask hr _ h

/-- A row selects exactly the words that decode to a command of its mnemonic. -/
theorem selects_iff_decode {r : OpcodeRow} (hr : r ∈ opcodeTable) (w : BitVec 32) :
    r.selects w = true ↔ ∃ i, decode w = .ok i ∧ i.mnemonic = r.mnemonic := by
  constructor
  · exact exists_decode_of_selects hr
  · rintro ⟨i, hd, hm⟩
    rw [← encode_of_decode hd, selects_encode_iff hr, hm]

/-- Two rows that select one word have one mnemonic, that of the command the word decodes to. -/
theorem mnemonic_eq_of_selects {r q : OpcodeRow} (hr : r ∈ opcodeTable) (hq : q ∈ opcodeTable) {w : BitVec 32}
    (hrw : r.selects w = true) (hqw : q.selects w = true) : r.mnemonic = q.mnemonic := by
  obtain ⟨i, hi, him⟩ := exists_decode_of_selects hr hrw
  obtain ⟨j, hj, hjm⟩ := exists_decode_of_selects hq hqw
  have hij : i = j := Except.ok.inj (hi.symm.trans hj)
  rw [← him, ← hjm, hij]

theorem opcodeTable_mnemonics_ne : opcodeTable.Pairwise fun r q => r.mnemonic ≠ q.mnemonic := by decide

/-- A word no row selects does not decode. -/
theorem exists_decode_error {w : BitVec 32} (h : ∀ r ∈ opcodeTable, r.selects w = false) : ∃ e, decode w = .error e := by
  cases hd : decode w with
  | error e => exact ⟨e, rfl⟩
  | ok i =>
    obtain ⟨r, hr, hm⟩ := i.exists_row
    have hsel : r.selects w = true := (selects_iff_decode hr w).2 ⟨i, hd, hm.symm⟩
    rw [h r hr] at hsel
    cases hsel

theorem Machine.engineTurn_of_decode_error {s : Machine.State} {e : IllegalWord} (h : s.phase = .busy)
    (hd : decode s.cmd = .error e) : Machine.engineTurn s = .next (s.raiseError .illegal) := by
  simp [Machine.engineTurn, h, Machine.runWord, hd]

/-! ### The statements -/

/-- Settles O1: the decoder undoes the encoder, and a word of 32 bits is read whole. -/
theorem decodeOfEncode : Obligations.DecodeOfEncode :=
  fun i => ⟨decode_encode i, decodeTableWord_encode i⟩

/-- Settles O2: the fields that decode are the instruction's, and a word is the word of its fields. -/
theorem encodeOfDecode : Obligations.EncodeOfDecode :=
  fun _ _ => encode_of_decode

/-- Settles O3: a row selects the words of its mnemonic, and no two rows have one mnemonic. -/
theorem wordSelectsByMask : Obligations.WordSelectsByMask := by
  constructor
  · exact fun w r hr => ⟨r.selects_iff w, selects_iff_decode hr w⟩
  · refine opcodeTable_mnemonics_ne.imp_of_mem fun hr hq hne w hw => ?_
    exact hne (mnemonic_eq_of_selects hr hq hw.1 hw.2)

/-- Settles O4: the decoder evaluated on the fifteen words. -/
theorem specWordsDecode : Obligations.SpecWordsDecode := by
  unfold Obligations.SpecWordsDecode
  decide

/-- Settles O5: a word no row selects does not decode, and the engine then raises ILLEGAL and does nothing else. -/
theorem illegalWordRaisesIllegal : Obligations.IllegalWordRaisesIllegal := by
  intro s hb hsel
  obtain ⟨e, he⟩ := exists_decode_error hsel
  exact Machine.engineTurn_of_decode_error hb he

end Sys2Proof

/-! The command lifecycle (40_lifecycle.md R62..R68): acceptance, writes while BUSY, the error a command raises, completion. -/

namespace Sys2Proof.Machine

/-! ### Host writes while BUSY -/

theorem writeCmd_of_idle {s : State} (h : s.phase = .idle) (v : Word) : s.writeCmd v = s.accept v := by
  simp [State.writeCmd, busy_of_idle h]

theorem writeCmd_of_busy {s : State} (h : s.phase = .busy) (v : Word) : s.writeCmd v = { s with ovr := true } := by
  simp [State.writeCmd, (busy_iff s).2 h]

theorem writeArg_of_busy {s : State} (h : s.phase = .busy) (k : Fin 8) (v : Word) :
    s.writeArg k v = { s with ovr := true } := by
  simp [State.writeArg, (busy_iff s).2 h]

theorem hostTurn_writeCmd (s : State) (v : Word) :
    hostTurn (.writeReg (s.cfg.raw.engineBase + 0x008) 4 v) s = .next (s.writeCmd v) := by
  rw [hostTurn_write s v (by decide) rfl, regAt_cmd]
  rfl

theorem hostTurn_writeArg (s : State) (k : Fin 8) (v : Word) :
    hostTurn (.writeReg (s.cfg.raw.engineBase + (0x010 + 4 * k.val)) 4 v) s = .next (s.writeArg k v) := by
  rw [hostTurn_write s v (by omega) (by omega), regAt_arg]
  rfl

/-- Settles O8: the write is `State.accept`, and the state it leaves is BUSY, where an ARG write only sets OVR. -/
theorem acceptanceOfACommand : Obligations.AcceptanceOfACommand := by
  intro s w hi
  refine ⟨s.accept w, ?_, rfl, rfl, rfl, rfl, rfl, rfl, rfl, rfl, rfl, rfl, rfl, rfl, rfl, fun _ => rfl, fun k v u hu => ?_⟩
  · rw [hostTurn_writeCmd, writeCmd_of_idle hi]
  · have hwrite : hostTurn (.writeReg (s.cfg.raw.engineBase + (0x010 + 4 * k.val)) 4 v) (s.accept w) =
        .next { s.accept w with ovr := true } :=
      (hostTurn_writeArg (s.accept w) k v).trans (congrArg _ (writeArg_of_busy (State.accept_phase s w) k v))
    obtain rfl := Host.Outcome.next.inj (hwrite.symm.trans hu)
    exact ⟨rfl, fun _ => rfl⟩

/-! ### OVR -/

/-- The only register writes that clear OVR are W1C of STATUS bit 3 and the soft reset. -/
theorem writeReg_ovr {s : State} (h : s.ovr = true) (v : Word) (r : Reg) :
    (s.writeReg v r).ovr = true ∨ (r = .status ∧ v.getLsbD 3 = true) ∨ (r = .ctrl ∧ v.getLsbD 1 = true) := by
  cases r with
  | ctrl =>
    cases hv : v.getLsbD 1 with
    | true => exact .inr (.inr ⟨rfl, rfl⟩)
    | false => exact .inl (by rw [State.writeReg, State.writeCtrl, hv]; exact h)
  | status =>
    cases hv : v.getLsbD 3 with
    | true => exact .inr (.inl ⟨rfl, rfl⟩)
    | false => exact .inl (by rw [State.writeReg, State.writeStatus_ovr, h, hv]; rfl)
  | cmd => cases hb : s.busy <;> simp [State.writeReg, State.writeCmd, hb, h]
  | arg k => cases hb : s.busy <;> simp [State.writeReg, State.writeArg, hb, h]
  | res | cfg0 | cfg1 | cfg2 | window | reserved => exact .inl h

theorem regAt_eq_ctrl {c : Config} {off : Nat} (h : regAt c off = .ctrl) : off = 0x000 := by
  unfold regAt at h
  split_ifs at h with h0
  exact h0

theorem regAt_eq_status {c : Config} {off : Nat} (h : regAt c off = .status) : off = 0x004 := by
  unfold regAt at h
  split_ifs at h with _ h4
  exact h4

/-- An admitted register access is 32 bits wide and at its offset from ENGINE_BASE. -/
theorem eq_of_locate_ok {c : Config} {addr width off : Nat} (h : locate c addr width = .ok off) :
    width = 4 ∧ addr = c.raw.engineBase + off := by
  unfold locate at h
  split_ifs at h with hblock hform
  obtain rfl := Except.ok.inj h
  omega

/-- A register write that clears OVR goes to STATUS with bit 3 set or to CTRL with SRST set. -/
theorem hostTurn_writeReg_ovr {s t : State} {addr width : Nat} {v : Word} (h : s.ovr = true)
    (ht : hostTurn (.writeReg addr width v) s = .next t) :
    t.ovr = true ∨ (width = 4 ∧ ((addr = s.cfg.raw.engineBase + 0x004 ∧ v.getLsbD 3 = true) ∨
      (addr = s.cfg.raw.engineBase ∧ v.getLsbD 1 = true))) := by
  cases hl : locate s.cfg addr width with
  | error e => simp [hostTurn, hl] at ht
  | ok off =>
    obtain ⟨hw, rfl⟩ := eq_of_locate_ok hl
    obtain rfl : s.writeReg v (regAt s.cfg off) = t := by simpa [hostTurn, hl] using ht
    rcases writeReg_ovr h v (regAt s.cfg off) with ho | ⟨hr, hv⟩ | ⟨hr, hv⟩
    · exact .inl ho
    · exact .inr ⟨hw, .inl ⟨by rw [regAt_eq_status hr], hv⟩⟩
    · exact .inr ⟨hw, .inr ⟨by rw [regAt_eq_ctrl hr, Nat.add_zero], hv⟩⟩

@[simp] theorem State.readReg_ovr (s : State) (r : Reg) : (s.readReg r).2.ovr = s.ovr := by
  obtain ⟨n, hn⟩ := readReg_state s r
  rw [hn]

@[simp] theorem State.readMem_ovr (s : State) (a : Nat) : (s.readMem a).2.ovr = s.ovr := by
  obtain ⟨n, hn⟩ := readMem_state s a
  rw [hn]

@[simp] theorem State.writeMem_ovr (s : State) (a : Nat) (b : Byte) : (s.writeMem a b).ovr = s.ovr := by
  unfold State.writeMem
  split <;> rfl

@[simp] theorem State.returned_ovr (r : Word × State) : (State.returned r).ovr = r.2.ovr := rfl

theorem exec_ovr {i : Instr} {s t : State} (h : exec i s = .next t) : t.ovr = s.ovr := by
  obtain ⟨s', hw, rfl | ⟨c, rfl⟩⟩ := exec_within h
  · exact hw.completed.ovr
  · exact hw.completed.ovr

theorem engineTurn_ovr {s t : State} (h : engineTurn s = .next t) : t.ovr = s.ovr := by
  cases hp : s.phase with
  | idle =>
    rw [engineTurn_of_idle hp] at h
    cases h; rfl
  | busy =>
    cases hd : decode s.cmd with
    | ok i => exact exec_ovr ((engineTurn_of_decode hp hd).symm.trans h)
    | error e =>
      rw [engineTurn_of_decode_error hp hd] at h
      cases h; rfl

/-- Of the host's accesses only a reset and the two register writes can clear OVR. -/
theorem hostTurn_ovr {a : HostAction} {s t : State} (h : s.ovr = true) (ht : hostTurn a s = .next t) :
    t.ovr = true ∨ a = .reset ∨ ∃ addr v, a = .writeReg addr 4 v ∧
      ((addr = s.cfg.raw.engineBase + 0x004 ∧ v.getLsbD 3 = true) ∨
        (addr = s.cfg.raw.engineBase ∧ v.getLsbD 1 = true)) := by
  cases a with
  | readReg addr width =>
    simp only [hostTurn] at ht
    split at ht
    · cases ht
    · cases ht
      exact .inl (by simpa using h)
  | writeReg addr width v =>
    obtain ho | ⟨rfl, hw⟩ := hostTurn_writeReg_ovr h ht
    · exact .inl ho
    · exact .inr (.inr ⟨addr, v, rfl, hw⟩)
  | readMem addr | writeMem addr b =>
    simp only [hostTurn] at ht
    split_ifs at ht
    cases ht
    exact .inl (by simpa using h)
  | reset => exact .inr (.inl rfl)

/-- Settles O9: while BUSY both writes only set OVR, and the engine's turn never clears it. -/
theorem writesWhileBusyAreIgnored : Obligations.WritesWhileBusyAreIgnored := by
  refine ⟨fun s v hb => ⟨?_, fun k => ?_⟩, fun s s' t ht ho => ?_⟩
  · rw [hostTurn_writeCmd, writeCmd_of_busy hb]
  · rw [hostTurn_writeArg, writeArg_of_busy hb]
  · cases t with
    | engine => exact .inl ((engineTurn_ovr ht).trans ho)
    | host a =>
      obtain ho' | rfl | ⟨addr, v, rfl, hw⟩ := hostTurn_ovr ho ht
      · exact .inl ho'
      · exact .inr (.inl rfl)
      · exact .inr (.inr ⟨addr, v, rfl, hw⟩)

/-! ### The error a command raises -/

@[simp] theorem raises_answer (c : ErrCode) (ks : List (Fin 8)) (b : Bool) : (Check.raises c ks b).answer = .error c := rfl
@[simp] theorem checkPair_answer (s : State) (t : BitVec 4) (p : BitVec 2) :
    (checkPair s t p).answer = .error .table := rfl
@[simp] theorem checkAlign_answer (ks : List (Fin 8)) (b k : Nat) : (checkAlign ks b k).answer = .error .align := rfl
@[simp] theorem checkRange_answer (s : State) (ks : List (Fin 8)) (r : Region) :
    (checkRange s ks r).answer = .error .range := rfl
@[simp] theorem checkOverlap_answer (ks : List (Fin 8)) (r q : Region) :
    (checkOverlap ks r q).answer = .error .overlap := rfl
@[simp] theorem checkHighBits_answer (k : Fin 8) (s : State) (n : Nat) :
    (checkHighBits k s n).answer = .error .illegal := rfl
@[simp] theorem checkVoice_answer (s : State) (v : Nat) : (checkVoice s v).answer = .error .voice := rfl
@[simp] theorem checkBound_answer (s : State) (v : Nat) : (checkBound s v).answer = .error .voice := rfl
@[simp] theorem needs_answer (ks : List (Fin 8)) : (Check.needs ks).answer = .pass := rfl
@[simp] theorem checkStream_answer (s : State) (v : Nat) : (checkStream s v).answer = .fault .memHole := rfl

/-- The checks of a list that raise `c`, in their order. -/
def raising (c : ErrCode) (cs : List Check) : List Check := cs.filter fun k => k.answer = .error c

/-- The checks of a list that raise no error: those of logs 9 and 10. -/
def notRaising (cs : List Check) : List Check := cs.filter fun k => !k.raisesError

/-- The checks of a list, those of each error code together, in the order of 40_lifecycle.md R64. -/
def inErrorOrder (cs : List Check) : List Check :=
  raising .illegal cs ++ (raising .voice cs ++ (raising .table cs ++ (raising .align cs ++ (raising .range cs ++
    (raising .overlap cs ++ notRaising cs)))))

theorem mem_raising {c : ErrCode} {cs : List Check} {k : Check} : k ∈ raising c cs ↔ k ∈ cs ∧ k.answer = .error c := by
  simp [raising]

theorem mem_notRaising {cs : List Check} {k : Check} : k ∈ notRaising cs ↔ k ∈ cs ∧ k.raisesError = false := by
  simp [notRaising]

theorem inErrorOrder_subset {cs : List Check} {k : Check} (h : k ∈ inErrorOrder cs) : k ∈ cs := by
  simp only [inErrorOrder, List.mem_append, mem_raising, mem_notRaising] at h
  tauto

theorem fillChecks_inErrorOrder (s : State) : inErrorOrder (fillChecks s) = fillChecks s := by
  have hnil : s.fillVoices.flatMap (fun _ => ([] : List Check)) = [] := by simp
  simp [inErrorOrder, fillChecks, raising, notRaising, List.filter_flatMap, List.filter_map, Function.comp_def,
    Check.raisesError, hnil]

/-- The checks of every command stand in the order of the error codes (40_lifecycle.md R64). -/
theorem checksOf_inErrorOrder (i : Instr) (s : State) : inErrorOrder (checksOf i s) = checksOf i s := by
  cases i with
  | fill ove => exact fillChecks_inErrorOrder s
  | nop | enc4 | dec4 | enc8 | dec8 | bind | expand | rewind | select | lookupDir | lookupFile => rfl

/-- The condition of an error code, of those a validation can raise. -/
def Conditions.met (m : Conditions) : ErrCode → Prop
  | .illegal => m.illegal
  | .voice => m.voice
  | .table => m.table
  | .align => m.align
  | .range => m.range
  | .overlap => m.overlap
  | .none | .image => False

theorem conditionsOf_fill_met_iff (ove : Bool) (s : State) (c : ErrCode) :
    (conditionsOf (.fill ove) s).met c ↔ ∃ k ∈ fillChecks s, k.answer = .error c ∧ k.fails = true := by
  rw [← not_iff_not]
  simp only [fillChecks, not_exists, not_and, List.forall_mem_append, List.forall_mem_cons, List.forall_mem_flatMap,
    List.forall_mem_map, List.not_mem_nil, false_imp_iff, implies_true, and_true, checkHighBits_fails_iff,
    checkVoice_fails_iff, checkBound_fails_iff, checkAlign_fails_iff, checkRange_fails_iff, checkOverlap_fails_iff,
    needs_passes]
  cases c <;> simp [conditionsOf, Conditions.met]

/-- A condition of a command's rule is met exactly when a check of its error code fails: the checks are the rule's conditions
(40_lifecycle.md R64, 60_exceptions.md R122). -/
theorem conditionsOf_met_iff (i : Instr) (s : State) (c : ErrCode) :
    (conditionsOf i s).met c ↔ ∃ k ∈ checksOf i s, k.answer = .error c ∧ k.fails = true := by
  cases i with
  | fill ove => exact conditionsOf_fill_met_iff ove s c
  | nop | enc4 | dec4 | enc8 | dec8 | bind | expand | rewind | select | lookupDir | lookupFile =>
    simp only [checksOf, nopChecks, encChecks, decChecks, bindChecks, expandChecks, rewindChecks, selectChecks, lookupChecks,
      List.exists_mem_cons_iff, List.not_mem_nil, checkPair_fails_iff, checkAlign_fails_iff,
      checkRange_fails_iff, checkOverlap_fails_iff, checkHighBits_fails_iff, checkVoice_fails_iff, checkBound_fails_iff,
      raises_fails, beyondMask_iff, Bool.and_eq_true, beq_iff_eq]
    cases c <;> simp [conditionsOf, encConditions, decConditions, Conditions.met]

/-- Checks in the order of the error codes answer the first condition met, when each condition is that a check of its code
fails and the checks that raise no error fail only with a VOICE condition. -/
theorem validate_inErrorOrder (f : ArgFile) (m : Conditions) (cs : List Check)
    (hm : ∀ c, m.met c ↔ ∃ k ∈ cs, k.answer = .error c ∧ k.fails = true)
    (hr : ¬ m.voice → ∀ k ∈ notRaising cs, k.fails = false) (hw : ∀ k ∈ cs, ∀ j ∈ k.reads, f.written[j] = true) :
    (∀ c, c ≠ .none → m.first c → validate f (inErrorOrder cs) = .error c) ∧
      (m.first .none → validate f (inErrorOrder cs) = .pass) := by
  have hcode : ∀ c, ∀ k ∈ raising c cs, k.answer = .error c := fun c k hk => (mem_raising.1 hk).2
  have hmet : ∀ c, m.met c ↔ ∃ k ∈ raising c cs, k.fails = true := fun c => by
    simp only [hm, mem_raising, and_assoc]
  exact validate_in_order f m _ _ _ _ _ _ _ (hcode _) (hcode _) (hcode _) (hcode _) (hcode _) (hcode _)
    (hmet .illegal) (hmet .voice) (hmet .table) (hmet .align) (hmet .range) (hmet .overlap)
    ((Classical.em _).imp (hmet .voice).1 hr) fun k hk => hw k (inErrorOrder_subset hk)

theorem notRaising_fillChecks (s : State) :
    notRaising (fillChecks s) = .needs (s.fillVoices.map volumeArg) :: s.fillVoices.map (checkStream s) := by
  simp [notRaising, fillChecks, List.filter_flatMap, List.filter_map, Function.comp_def, Check.raisesError]

theorem checkStream_fails_eq_false {s : State} (hs : s.streamsInMem) {v : Nat} (hb : ¬ (s.voice v).bound = false) :
    (checkStream s v).fails = false :=
  Bool.eq_false_iff.2 (checkStream_passes hs (Bool.not_eq_false _ ▸ hb))

/-- A check that raises no error fails only for a voice that is not bound, which is a VOICE condition: an ARG read after
validation fails no check (log 9), and the streams of bound voices lie in MEM (log 10). -/
theorem notRaising_pass (i : Instr) {s : State} (hs : s.streamsInMem) (hv : ¬ (conditionsOf i s).voice) :
    ∀ k ∈ notRaising (checksOf i s), k.fails = false := by
  cases i with
  | expand v add ove =>
    simp only [conditionsOf, not_or] at hv
    exact List.forall_mem_singleton.2 (checkStream_fails_eq_false hs hv.2)
  | fill ove =>
    simp only [conditionsOf, not_exists, not_and, not_or] at hv
    rw [checksOf, notRaising_fillChecks, List.forall_mem_cons, List.forall_mem_map]
    exact ⟨rfl, fun v hmem => checkStream_fails_eq_false hs (hv v hmem).2⟩
  | lookupDir | lookupFile => exact List.forall_mem_singleton.2 rfl
  | nop | enc4 | dec4 | enc8 | dec8 | bind | rewind | select => exact fun k hk => absurd hk List.not_mem_nil

/-- With its ARGs written, the validation of a command answers the first condition of its rule that is met. -/
theorem validate_first {i : Instr} {s : State} (hw : s.wrote (argsReadBy i s)) (hs : s.streamsInMem) :
    (∀ c, c ≠ .none → (conditionsOf i s).first c → validate s.snapshot (checksOf i s) = .error c) ∧
      ((conditionsOf i s).first .none → validate s.snapshot (checksOf i s) = .pass) := by
  have hwritten : ∀ k ∈ checksOf i s, ∀ j ∈ k.reads, s.snapshot.written[j] = true := fun k hk j hj =>
    hw j ((mem_argsReadBy_iff i s j).2 (List.mem_flatMap.2 ⟨k, hk, hj⟩))
  have h := validate_inErrorOrder s.snapshot (conditionsOf i s) (checksOf i s) (conditionsOf_met_iff i s)
    (notRaising_pass i hs) hwritten
  rwa [checksOf_inErrorOrder] at h

theorem exec_error_of_validate {i : Instr} {s : State} {c : ErrCode}
    (h : validate s.snapshot (checksOf i s) = .error c) : exec i s = .next (s.raiseError c) := by
  rw [exec_eq, command_fails h]

/-- A command whose checks pass completes with its effect, or raises IMAGE. -/
theorem exec_of_validate_pass {i : Instr} {s : State} (h : validate s.snapshot (checksOf i s) = .pass) :
    ∃ s', EffectWithin i s s' ∧ (exec i s = .next s'.complete ∨ exec i s = .next (s'.raiseError .image)) := by
  obtain ⟨hw, he⟩ := effect_within i s
  refine ⟨_, hw, ?_⟩
  rw [exec_eq]
  rcases he with he | ⟨he, -⟩
  · exact .inl (command_pass h (Prod.ext he rfl))
  · exact .inr (command_error h (Prod.ext he rfl))

/-- Settles O10: the validation answers the first condition met; with none met the effect completes, or raises IMAGE. -/
theorem firstErrorInOrder : Obligations.FirstErrorInOrder := by
  intro i s hw hs
  obtain ⟨herror, hpass⟩ := validate_first hw hs
  refine ⟨fun c hc hfirst => exec_error_of_validate (herror c hc hfirst), fun hnone => ?_⟩
  obtain ⟨s', heff, h | h⟩ := exec_of_validate_pass (hpass hnone)
  · exact ⟨_, h, .inl ⟨heff.completed.err, heff.completed.ecode⟩⟩
  · exact ⟨_, h, .inr rfl⟩

/-! ### Completion -/

theorem Conditions.exists_first (m : Conditions) : ∃ c, m.first c := by
  by_cases h1 : m.illegal
  · exact ⟨.illegal, h1⟩
  by_cases h2 : m.voice
  · exact ⟨.voice, h1, h2⟩
  by_cases h3 : m.table
  · exact ⟨.table, h1, h2, h3⟩
  by_cases h4 : m.align
  · exact ⟨.align, h1, h2, h3, h4⟩
  by_cases h5 : m.range
  · exact ⟨.range, h1, h2, h3, h4, h5⟩
  by_cases h6 : m.overlap
  · exact ⟨.overlap, h1, h2, h3, h4, h5, h6⟩
  · exact ⟨.none, h1, h2, h3, h4, h5, h6⟩

theorem StateInv.streamsInMem {s : State} (h : StateInv s) : s.streamsInMem := fun v hv => (h.bound v hv).stream

/-- A command whose ARGs are written does not stop: some condition is the first met, or none is. -/
theorem exec_next_of_wrote {i : Instr} {s : State} (hw : s.wrote (argsReadBy i s)) (hs : s.streamsInMem) :
    ∃ t, exec i s = .next t := by
  obtain ⟨herror, hnone⟩ := firstErrorInOrder i s hw hs
  obtain ⟨c, hc⟩ := (conditionsOf i s).exists_first
  by_cases h : c = .none
  · obtain ⟨t, ht, -⟩ := hnone (h ▸ hc)
    exact ⟨t, ht⟩
  · exact ⟨_, herror c h hc⟩

theorem exec_completes {i : Instr} {s t : State} (h : exec i s = .next t) : t.phase = .idle ∧ t.done = true := by
  obtain ⟨s', -, rfl | ⟨c, rfl⟩⟩ := exec_within h <;> exact ⟨rfl, rfl⟩

/-- Settles O13: an illegal word raises ILLEGAL; a command with its ARGs written has a next state, and every next state of a
command is complete. -/
theorem everyCommandCompletes : Obligations.EveryCommandCompletes := by
  intro s hinv hb hw
  cases hd : decode s.cmd with
  | ok i =>
    obtain ⟨t, ht⟩ := exec_next_of_wrote (hw i hd) hinv.streamsInMem
    exact ⟨t, (engineTurn_of_decode hb hd).trans ht, exec_completes ht⟩
  | error e => exact ⟨_, engineTurn_of_decode_error hb hd, rfl, rfl⟩

/-! ### NOP -/

/-- Settles O39: NOP has no checks and no effect, so it is `State.complete`. -/
theorem nopResult : Obligations.NopResult := fun s =>
  ⟨s.complete, rfl, (EffectWithin.refl .nop s).completed, rfl, rfl, rfl, rfl⟩

end Sys2Proof.Machine

/-! The datapath (41_datapath.md R72..R92): prediction and adaptation, the encoders' choices and the decoders' reconstructions,
packing, volume and output. On its own code a decoder's step is the encoder's, so what is said of the decoders' steps is
said of the encoders'. -/

namespace Sys2Proof.Machine

/-! ### Clamps and the multiplier -/

theorem clamp_eq_max_min {v lo hi : Int} (h : lo ≤ hi) : clamp v lo hi = max lo (min hi v) := by
  unfold clamp
  split <;> [skip; split] <;> omega

theorem clamp16_eq_max_min (v : Int) : clamp16 v = max (-32768) (min 32767 v) := clamp_eq_max_min (by decide)
theorem sat32_eq_max_min (v : Int) : sat32 v = max (-2147483648) (min 2147483647 v) := clamp_eq_max_min (by decide)

theorem Predictor.mult_bounds {p : Predictor} {n : Nat} (h : p.shift.toNat ≤ n) : 1 ≤ p.mult ∧ p.mult ≤ 2 ^ n :=
  ⟨p.mult_pos, pow_le_pow_right₀ (by decide) h⟩

/-- Settles O28: `guess` is a clamp to 16 bits and `mult` a power of two, monotone in the shift. -/
theorem predictionAndMultiplier : Obligations.PredictionAndMultiplier := fun _ =>
  ⟨clamp16_eq_max_min _, rfl, fun h => Predictor.mult_bounds h, fun h => Predictor.mult_bounds h⟩

/-! ### Encoder and decoder from one state -/

theorem SameHistory.refl (p : Predictor) : SameHistory p p := ⟨rfl, rfl, rfl⟩

theorem SameHistory.eq_of_packing {e d : Predictor} (h : SameHistory e d) (hhigh : e.high = d.high) (hheld : e.held = d.held)
    (hvolsh : e.volsh = d.volsh) (hvoltgt : e.voltgt = d.voltgt) : e = d := by
  obtain ⟨h1, h2, h3⟩ := h
  cases e
  cases d
  simp_all

/-- A decoder's step on the encoder's code, from the encoder's state, is the encoder's step (41_datapath.md R85). -/
theorem dec4Step_enc4Step (cfg : Config) {t : Nat} (p : Predictor) (value : Int) (ht : t < cfg.nTables) :
    dec4Step cfg t p (enc4Step cfg t p value).1 = (enc4Step cfg t p value).2 := by
  obtain ⟨hrec, hist⟩ := lockstep4 cfg value ht (.refl p)
  exact Prod.ext hrec (hist.eq_of_packing rfl rfl rfl rfl).symm

theorem dec8Step_enc8Step (cfg : Config) (t : Nat) (p : Predictor) (value : Int) :
    dec8Step cfg t p (enc8Step cfg t p value).1 = (enc8Step cfg t p value).2 := by
  obtain ⟨hrec, hist⟩ := lockstep8 cfg (t := t) value (.refl p)
  exact Prod.ext hrec (hist.eq_of_packing rfl rfl rfl rfl).symm

/-! ### Adaptation and history -/

theorem dec4Step_shift (cfg : Config) (t : Nat) (p : Predictor) (c : BitVec 4) :
    ((dec4Step cfg t p c).2.shift.toNat : Int) =
      max 0 (min 12 (p.shift.toNat + cfg.delta4 t (cfg.step4 t c.toNat).natAbs)) :=
  (Predictor.adapt_shift _ _ (by decide)).trans (clamp_eq_max_min (by decide))

theorem dec8Step_shift (cfg : Config) (t : Nat) (p : Predictor) (b : Byte) :
    ((dec8Step cfg t p b).2.shift.toNat : Int) = max 0 (min 8 (p.shift.toNat + cfg.delta8 t (b.toNat % 128))) :=
  (Predictor.adapt_shift _ _ (by decide)).trans (clamp_eq_max_min (by decide))

/-- Settles O29: the decoders' steps adapt by a clamped table entry, and the encoders' steps are theirs. -/
theorem shiftAdaptation : Obligations.ShiftAdaptation := by
  intro cfg t p value c b
  refine ⟨dec4Step_shift cfg t p c, dec8Step_shift cfg t p b, fun ht => ?_, ?_⟩
  · rw [← dec4Step_enc4Step cfg p value ht]
    exact dec4Step_shift cfg t p _
  · rw [← dec8Step_enc8Step]
    exact dec8Step_shift cfg t p _

/-- `q` is `p` after the reconstruction `r`, whatever its shift (41_datapath.md R74). -/
def Advanced (p q : Predictor) (r : Int) : Prop :=
  q.prev2 = p.prev1 ∧ q.prev1.toInt = r ∧ q.high = p.high ∧ q.held = p.held ∧ q.volsh = p.volsh ∧ q.voltgt = p.voltgt

theorem advanced_push_adapt (p : Predictor) {r : Int} (d : Int) (l : Nat) (h1 : -32768 ≤ r) (h2 : r ≤ 32767) :
    Advanced p ((p.push r).adapt d l) r := ⟨rfl, toInt_ofInt16 h1 h2, rfl, rfl, rfl, rfl⟩

theorem dec4Step_advanced (cfg : Config) (t : Nat) (p : Predictor) (c : BitVec 4) :
    Advanced p (dec4Step cfg t p c).2 (dec4Step cfg t p c).1 :=
  advanced_push_adapt p _ _ (dec4Step_bounds p cfg t c).1 (dec4Step_bounds p cfg t c).2

theorem dec8Step_advanced (cfg : Config) (t : Nat) (p : Predictor) (b : Byte) :
    Advanced p (dec8Step cfg t p b).2 (dec8Step cfg t p b).1 :=
  advanced_push_adapt p _ _ (dec8Step_bounds p cfg t b).1 (dec8Step_bounds p cfg t b).2

/-- Settles O30: the decoders' steps push a 16-bit reconstruction, and the encoders' steps are theirs. -/
theorem historyAdvances : Obligations.HistoryAdvances := by
  intro cfg t p value c b ht
  refine ⟨?_, dec4Step_advanced cfg t p c, ?_, dec8Step_advanced cfg t p b⟩
  · rw [← dec4Step_enc4Step cfg p value ht]
    exact dec4Step_advanced cfg t p _
  · rw [← dec8Step_enc8Step]
    exact dec8Step_advanced cfg t p _

/-! ### The encoders' choices -/

/-- Settles O31: the search of R77 keeps the first legal candidate of least error. -/
theorem encoder4Choice : Obligations.Encoder4Choice := by
  intro cfg t p value ht
  obtain ⟨c, r, hc, h16, hr, hleg, hmin, hfirst⟩ := choose4_spec cfg p value ht
  have hcode : (enc4Step cfg t p value).1.toNat = c := by
    simp only [enc4Step, hc, BitVec.toNat_ofNat]
    omega
  have hrec : (enc4Step cfg t p value).2.1 = r := by simp only [enc4Step, hc]
  obtain ⟨hlo, hhi⟩ := legal16_iff.1 hleg
  simp only [hcode, hrec, ← hr]
  exact ⟨trivial, hlo, hhi, fun j hj h1 h2 =>
    ⟨hmin j hj (legal16_iff.2 ⟨h1, h2⟩), fun hjc => hfirst j hjc (legal16_iff.2 ⟨h1, h2⟩)⟩⟩

/-- A shift right by the predictor's shift divides by the multiplier. -/
theorem Predictor.shiftRight_eq_div_mult (p : Predictor) (n : Nat) : ((n >>> p.shift.toNat : Nat) : Int) = n / p.mult := by
  rw [Nat.shiftRight_eq_div_pow, p.mult_eq]
  exact Int.natCast_ediv _ _

theorem roundedMag_eq (p : Predictor) (err : Int) :
    (roundedMag p err : Int) = min ((err.natAbs + (p.mult - 1) / 2) / p.mult) 127 := by
  have hhalf : (((2 ^ p.shift.toNat - 1) >>> 1 : Nat) : Int) = (p.mult - 1) / 2 := by
    have hpos : 0 < 2 ^ p.shift.toNat := by positivity
    rw [Nat.shiftRight_eq_div_pow, p.mult_eq]
    omega
  rw [roundedMag, Nat.cast_min, p.shiftRight_eq_div_mult, Nat.cast_add, hhalf]
  rfl

theorem choose8_sign (p : Predictor) (value : Int) : (choose8 p value).1 = decide (value < p.guess) := by
  simp only [choose8, sub_neg]
  split <;> [skip; split] <;> rfl

/-- The magnitude of R79: the rounded one, or, where that would leave 16 bits, the largest that does not. -/
theorem choose8_magnitude (p : Predictor) (value : Int) {r : Int}
    (hr : r = p.guess + signed (choose8 p value).1 (roundedMag p (value - p.guess)) * p.mult) :
    ((choose8 p value).2 : Int) = if r > 32767 then (32767 - p.guess) / p.mult
      else if r < -32768 then (p.guess + 32768) / p.mult else roundedMag p (value - p.guess) := by
  obtain ⟨hlo, hhi⟩ := p.guess_bounds
  rw [choose8_sign] at hr
  simp only [choose8, sub_neg, ← hr]
  split
  · rw [p.shiftRight_eq_div_mult, Int.toNat_of_nonneg (by omega)]
  · split
    · rw [p.shiftRight_eq_div_mult, Int.toNat_of_nonneg (by omega)]
    · rfl

/-- Settles O32: `choose8` over the integers; its reconstruction stays in 16 bits. -/
theorem encoder8Choice : Obligations.Encoder8Choice := by
  intro cfg t p value g mu s m0 r m b q
  have hm0 : (roundedMag p (value - g) : Int) = m0 := roundedMag_eq p _
  have hsign : (choose8 p value).1 = s := choose8_sign p value
  have hmag : ((choose8 p value).2 : Int) = m := by
    rw [choose8_magnitude p value rfl, hsign, signed, hm0]
  obtain ⟨hbs, hbm⟩ := enc8Step_byte cfg t p value
  have hq : q = g + signed (choose8 p value).1 (choose8 p value).2 * mu := rfl
  obtain ⟨-, hlo, hhi⟩ := choose8_spec p value
  refine ⟨hbs.trans hsign, (congrArg Nat.cast hbm).trans hmag, ?_, hlo, hhi⟩
  rw [hq, hsign, signed, hmag]

/-! ### The decoders' reconstructions -/

theorem dec8Step_zeroDelta (cfg : Config) (t : Nat) (p : Predictor) {b : Byte} (h : byteMag b = 0) :
    dec8Step cfg t p b = (p.guess, (p.push p.guess).adapt8 cfg t 0) := by
  have hrec : reconstruct8 p b = p.guess := by
    obtain ⟨hlo, hhi⟩ := p.guess_bounds
    simpa [reconstruct8, signed, h] using clamp16_of_mem hlo hhi
  simp only [dec8Step, hrec, h]

/-- Settles O33: the decoders clamp the sum; on the encoder's code they step as the encoder does. -/
theorem decoderReconstruction : Obligations.DecoderReconstruction := by
  intro cfg t p value c b
  have h00 := dec8Step_zeroDelta cfg t p (b := 0x00) rfl
  have h80 := dec8Step_zeroDelta cfg t p (b := 0x80) rfl
  exact ⟨clamp16_eq_max_min _, clamp16_eq_max_min _, congrArg Prod.fst h00, h80.trans h00.symm,
    fun ht => congrArg Prod.fst (dec4Step_enc4Step cfg p value ht), congrArg Prod.fst (dec8Step_enc8Step cfg t p value)⟩

/-- Settles O34: lockstep over a sequence holds of each of its beginnings. -/
theorem lockstep : Obligations.Lockstep := by
  intro cfg t e d values ht h k _
  obtain ⟨hrec4, hist4⟩ := lockstep4_run cfg (values.take k) ht h
  obtain ⟨hrec8, hist8⟩ := lockstep8_run cfg (t := t) (values.take k) h
  exact ⟨hrec4, hist4, hrec8, hist8⟩

/-! ### Packing -/

theorem packAll_length (cs : List (BitVec 4)) : (packAll cs).length = (cs.length + 1) / 2 := by
  simp [packAll, packedLen_eq]

/-- Code q of packed codes, the pad code included (41_datapath.md R86). -/
theorem codeAt_packed {cs : List (BitVec 4)} {m : MemPort} {a q : Nat}
    (h : bytesAt m a (packAll cs).length = packAll cs) (hq : q / 2 < (packAll cs).length) :
    codeAt m false a q = .four (cs.getD q 0) := by
  have hbyte : m.peek (a + q / 2) = packCodes (cs.getD (2 * (q / 2)) 0) (cs.getD (2 * (q / 2) + 1) 0) := by
    have hk := congrArg (·[q / 2]?) h
    simpa [bytesAt, packAll, hq, show q / 2 < packedLen cs.length by simpa [packAll] using hq] using hk
  simp only [codeAt, hbyte, lowNibble_pack, highNibble_pack]
  rcases Nat.mod_two_eq_zero_or_one q with heven | hodd
  · simp [heven, show 2 * (q / 2) = q by omega]
  · simp [hodd, show 2 * (q / 2) + 1 = q by omega]

/-- Settles O35: each code is the nibble its place in `packAll` gives it. -/
theorem packingRoundTrip : Obligations.PackingRoundTrip := by
  intro cs m a h
  have hlen := packAll_length cs
  refine ⟨hlen, List.ext_getElem (by simp [codesAt_length]) fun i hi hi' => ?_, fun hodd => ?_⟩
  · have hics : i < cs.length := by simpa using hi'
    rw [codesAt_getElem m false a cs.length hics, codeAt_packed h (by omega)]
    simp [hics]
  · rw [codeAt_packed h (by omega)]
    simp

/-! ### Volume -/

theorem Predictor.volSet_voltgt (p : Predictor) {vol : Nat} (ove : Bool) (h : vol < 65536) :
    (p.volSet vol ove).voltgt.toNat = vol * 256 := by
  simp only [Predictor.volSet, vshift, Nat.shiftLeft_eq, BitVec.toNat_ofNat]
  omega

/-- The ramp (41_datapath.md R90): `q` has the target of `p`, is nearer to it by `d` or has reached it, and is on the same
side of it. -/
def Predictor.Nearer (d : Nat) (p q : Predictor) : Prop :=
  q.voltgt = p.voltgt ∧
    ((p.volsh.toNat : Int) - p.voltgt.toNat).natAbs - d = ((q.volsh.toNat : Int) - q.voltgt.toNat).natAbs ∧
    (p.volsh.toNat ≤ p.voltgt.toNat → q.volsh.toNat ≤ q.voltgt.toNat) ∧
    (p.voltgt.toNat ≤ p.volsh.toNat → q.voltgt.toNat ≤ q.volsh.toNat)

theorem Predictor.Nearer.trans {d e : Nat} {p q r : Predictor} (h : Nearer d p q) (k : Nearer e q r) :
    Nearer (d + e) p r := by
  obtain ⟨ht, hd, hle, hge⟩ := h
  obtain ⟨ht', hd', hle', hge'⟩ := k
  exact ⟨ht'.trans ht, by rw [← hd', ← hd, Nat.sub_add_eq], hle' ∘ hle, hge' ∘ hge⟩

theorem Predictor.nearer_ease (p : Predictor) (cfg : Config) : Nearer cfg.raw.easing p (p.ease cfg) := by
  have hv := p.ease_volsh cfg
  refine ⟨p.ease_voltgt cfg, ?_, ?_, ?_⟩ <;> rw [ease_voltgt, hv] <;> split <;> omega

theorem Predictor.nearer_ease_iterate (p : Predictor) (cfg : Config) (k : Nat) :
    Nearer (k * cfg.raw.easing) p ((fun x : Predictor => x.ease cfg)^[k] p) := by
  induction k with
  | zero => exact ⟨rfl, by simp, id, id⟩
  | succ k ih =>
    rw [Function.iterate_succ_apply', Nat.succ_mul]
    exact ih.trans (nearer_ease _ cfg)

/-- Settles O36: each easing step brings the volume EASING nearer, and the distances add up. -/
theorem volumeRamp : Obligations.VolumeRamp := fun cfg p _ ove k hvol =>
  ⟨p.volSet_voltgt ove hvol, rfl, (p.volSet _ ove).nearer_ease_iterate cfg k⟩

/-! ### Output -/

theorem Predictor.scale_eq_div (p : Predictor) (r : Int) : p.scale r = r * p.volsh.toNat / 65536 :=
  Int.shiftRight_eq_div_pow _ _

/-- Settles O37: the output value is a floor division by 2^16. -/
theorem outputScale : Obligations.OutputScale := by
  intro p r hlo hhi
  obtain ⟨hblo, hbhi⟩ := p.scale_bounds hlo hhi
  have hscale := p.scale_eq_div r
  refine ⟨hscale, hblo, by omega, fun hv => ?_, fun hv => ?_, fun hv => ?_⟩
  · have hprod : -32768 * (65535 * 256) ≤ r * p.volsh.toNat := by nlinarith
    omega
  · rw [hscale, hv]
    omega
  · simp [hscale, hv]

theorem mixed_eq_max_min (add : Bool) (old o : Int) :
    mixed add old o = if add then max (-2147483648) (min 2147483647 (old + o)) else o := by
  rw [mixed, sat32_eq_max_min]

/-- Settles O38: both words are mixed, and the frame is all that is written. -/
theorem frameOutput : Obligations.FrameOutput := by
  intro p add d k o hq hw hlo hhi
  obtain ⟨hleft, hright, hwithin⟩ := emitFrame_spec hw hq add d k hlo hhi
  exact ⟨hleft.trans (mixed_eq_max_min _ _ _), hright.trans (mixed_eq_max_min _ _ _),
    fun a ha => hwithin.peek a (Region.has_mk_false ha)⟩

end Sys2Proof.Machine

/-! The codec commands (42_codec.md R95..R99). ENC4 and ENC8 differ in the pass they run and in the length of the code buffer,
DEC4 and DEC8 in the pass; so what is said of either is said once, for `is8`, and each command's statement is one case of it. -/

namespace Sys2Proof.Machine

/-! ### Runs over lists -/

section Run
variable {σ α β : Type} (f : σ → α → β × σ)

theorem runOver_map {γ : Type} (g : γ → α) (s : σ) (cs : List γ) :
    runOver f s (cs.map g) = runOver (fun s c => f s (g c)) s cs := by
  induction cs generalizing s with
  | nil => rfl
  | cons c cs ih => simp only [List.map_cons, runOver, ih]

theorem exists_step_of_mem_runOver {s : σ} {as : List α} {b : β} (h : b ∈ (runOver f s as).1) : ∃ s' a, b = (f s' a).1 := by
  induction as generalizing s with
  | nil => cases h
  | cons a as ih =>
    obtain rfl | h := List.mem_cons.1 h
    · exact ⟨s, a, rfl⟩
    · exact ih h

end Run

/-! ### The codes of an encoding, and their reconstructions (41_datapath.md R85) -/

/-- The codes of ENC4 or ENC8 on a sample sequence. -/
def encodedCodes (cfg : Config) (is8 : Bool) (t pred : Nat) (values : List Int) : List Code :=
  if is8 then ((encodeAll8 cfg t (seeded cfg pred 0) values).1.map (·.1)).map .eight
  else ((encodeAll4 cfg t (seeded cfg pred 0) values).1.map (·.1)).map .four

theorem encodedRecs_length (cfg : Config) (is8 : Bool) (t pred : Nat) (values : List Int) :
    (encodedRecs cfg is8 t pred values).length = values.length := by
  cases is8 <;> simp [encodedRecs, encodeAll4, encodeAll8]

theorem codesAt_eight (m : MemPort) (a n : Nat) : codesAt m true a n = (bytesAt m a n).map .eight := by
  simp [codesAt, bytesAt, codeAt]

/-- A buffer that holds the bytes of an encoding holds its codes. -/
theorem codesAt_encodedBytes {cfg : Config} {is8 : Bool} {t pred a : Nat} {values : List Int} {m : MemPort}
    (h : bytesAt m a (codeLen is8 values.length) = encodedBytes cfg is8 t pred values) :
    codesAt m is8 a values.length = encodedCodes cfg is8 t pred values := by
  cases is8 with
  | true => exact (codesAt_eight m a _).trans (congrArg (List.map Code.eight) h)
  | false =>
    let cs := (encodeAll4 cfg t (seeded cfg pred 0) values).1.map (·.1)
    have hlen : cs.length = values.length := by simp [cs, encodeAll4]
    have hbytes : bytesAt m a (packAll cs).length = packAll cs := by
      rw [packAll_length, hlen, ← packedLen_eq]
      exact h
    rw [← hlen]
    exact (packingRoundTrip cs m a hbytes).2.1

/-- Decoding the codes of an encoding gives its reconstructions, from any state with the history of the seed. -/
theorem decode_encodedCodes (cfg : Config) (is8 : Bool) {t pred : Nat} {d : Predictor} (values : List Int)
    (ht : t < cfg.nTables) (hd : SameHistory (seeded cfg pred 0) d) :
    (runOver (decodeOne cfg t) d (encodedCodes cfg is8 t pred values)).1 = encodedRecs cfg is8 t pred values := by
  cases is8 with
  | true => exact (congrArg Prod.fst (runOver_map _ _ _ _)).trans (lockstep8_run cfg values hd).1
  | false => exact (congrArg Prod.fst (runOver_map _ _ _ _)).trans (lockstep4_run cfg values ht hd).1

theorem encodedRecs_bounds {cfg : Config} {is8 : Bool} {t pred : Nat} {values : List Int} (ht : t < cfg.nTables) :
    ∀ r ∈ encodedRecs cfg is8 t pred values, -32768 ≤ r ∧ r ≤ 32767 := by
  intro r hr
  rw [← decode_encodedCodes cfg is8 values ht (.refl _)] at hr
  obtain ⟨d, c, rfl⟩ := exists_step_of_mem_runOver _ hr
  exact decodeOne_bounds cfg t d c

/-! ### The error sum in its registers (41_datapath.md R88) -/

theorem samplesAt_bounds {p : MemPort} {a n : Nat} : ∀ v ∈ samplesAt p a n, -32768 ≤ v ∧ v ≤ 32767 := by
  intro v hv
  obtain ⟨i, -, rfl⟩ := List.mem_map.1 hv
  exact sampleAt_bounds p _

theorem sqErr_le {v r : Int} (hv : -32768 ≤ v ∧ v ≤ 32767) (hr : -32768 ≤ r ∧ r ≤ 32767) : sqErr v r ≤ 65535 ^ 2 :=
  Nat.pow_le_pow_left (by omega) 2

theorem sseOf_le {values recs : List Int} (hv : ∀ v ∈ values, -32768 ≤ v ∧ v ≤ 32767)
    (hr : ∀ r ∈ recs, -32768 ≤ r ∧ r ≤ 32767) : sseOf values recs ≤ values.length * 65535 ^ 2 := by
  induction values generalizing recs with
  | nil => simp [sseOf]
  | cons v vs ih =>
    cases recs with
    | nil => simp [sseOf]
    | cons r rs =>
      rw [List.forall_mem_cons] at hv hr
      have hhead := sqErr_le hv.1 hr.1
      have htail := ih hv.2 hr.2
      simp only [sseOf, List.zipWith_cons_cons, List.sum_cons, List.length_cons] at htail ⊢
      omega

/-- RES1..RES3 hold an error sum of at most 2^32 samples whole: it fits in 64 bits, and its mean in 32. -/
theorem errorResults_setError (s : State) {sse n : Nat} (hn : n < 2 ^ 32) (h : sse ≤ n * 65535 ^ 2) :
    errorResults (s.setError sse n) sse n := by
  have hmean : mse sse n < 2 ^ 32 := by
    unfold mse
    split
    · exact lt_of_le_of_lt (Nat.div_le_of_le_mul h) (by decide)
    · decide
  refine ⟨?_, ?_⟩
  · have hwords : sse % 4294967296 + 4294967296 * (sse / 4294967296 % 4294967296) = sse := by omega
    simpa [State.setError] using hwords
  · simpa [State.setError] using hmean

theorem errorResults_complete {s : State} {sse n : Nat} (h : errorResults s sse n) : errorResults s.complete sse n := h

/-! ### Encoding -/

/-- The encoding pass of ENC4 or ENC8. -/
def encodeRun (is8 : Bool) (cfg : Config) (t pred src n dst : Nat) (port : MemPort) : EncRun :=
  if is8 then encode8 cfg t pred src n dst port else encode4 cfg t pred src n dst port

theorem encodeRun_within (is8 : Bool) (cfg : Config) (t pred src n dst : Nat) (port : MemPort) :
    Within ⟨dst, codeLen is8 n⟩ port (encodeRun is8 cfg t pred src n dst port).port := by
  cases is8 with
  | true => exact encode8_within cfg t pred src n dst port
  | false => exact encode4_within cfg t pred src n dst port

/-- Without races an encoding pass writes the bytes of the encoding and sums its error. -/
theorem encodeRun_spec (is8 : Bool) (cfg : Config) (t pred src n dst : Nat) {p : MemPort} (hw : p.wf = true) (hq : p.races = [])
    (hd : (Region.mk dst (codeLen is8 n)).overlaps ⟨src, 2 * n⟩ = false) :
    bytesAt (encodeRun is8 cfg t pred src n dst p).port dst (codeLen is8 n) =
        encodedBytes cfg is8 t pred (samplesAt p src n) ∧
      (encodeRun is8 cfg t pred src n dst p).sse = encodedSSE cfg is8 t pred (samplesAt p src n) := by
  cases is8 with
  | true =>
    obtain ⟨hsse, hbytes⟩ := encode8_spec cfg t pred src n dst hw hq hd
    refine ⟨List.ext_getElem ?_ fun k _ hk => ?_, hsse⟩
    · simp [bytesAt, codeLen, encodedBytes, encodeAll8, samplesAt_length]
    · simpa [bytesAt, encodedBytes, encodeRun] using hbytes k (by simpa [encodedBytes] using hk)
  | false =>
    obtain ⟨hsse, hbytes⟩ := encode4_spec cfg t pred src n dst hw hq hd
    have hlen : ((encodeAll4 cfg t (seeded cfg pred 0) (samplesAt p src n)).1.map (·.1)).length = n := by
      simp [encodeAll4, samplesAt_length]
    refine ⟨?_, hsse⟩
    simp only [encodedBytes, packAll, hlen, Bool.false_eq_true, if_false]
    exact List.map_congr_left fun k hk => hbytes k (List.mem_range.1 hk)

/-- What ENC4 or ENC8 leaves of `s` before it completes. -/
def State.encoded (s : State) (is8 : Bool) (r : EncRun) : State :=
  ({ s with mem := r.port }.setRes 0 (BitVec.ofNat 32 (codeLen is8 s.count))).setError r.sse s.count

theorem exec_enc {is8 : Bool} {t : BitVec 4} {p : BitVec 2} {s : State} (h : CanEncode is8 t p s) :
    exec (if is8 then .enc8 t p else .enc4 t p) s =
      .next (s.encoded is8 (encodeRun is8 s.cfg t.toNat p.toNat s.srcBase s.count s.dstBase s.mem)).complete := by
  cases is8 <;> exact plainCommand_pass (validate_encChecks.2 h)

theorem effect_enc (is8 : Bool) (t : BitVec 4) (p : BitVec 2) (s : State) :
    EffectWithin (if is8 then .enc8 t p else .enc4 t p) s
      (s.encoded is8 (encodeRun is8 s.cfg t.toNat p.toNat s.srcBase s.count s.dstBase s.mem)) := by
  cases is8 with
  | true => exact effect_enc8 t p s
  | false => exact effect_enc4 t p s

theorem codeLen_le (is8 : Bool) (n : Nat) : codeLen is8 n ≤ n := by
  cases is8
  · simp only [codeLen, packedLen_eq, Bool.false_eq_true, if_false]
    omega
  · exact le_rfl

theorem encoded_voices (s : State) (is8 : Bool) (r : EncRun) : (s.encoded is8 r).complete.voices = s.voices := by
  simp [State.encoded, State.setError]

theorem encoded_wbuf (s : State) (is8 : Bool) (r : EncRun) : (s.encoded is8 r).complete.wbuf = s.wbuf := by
  simp [State.encoded, State.setError]

theorem State.count_lt (s : State) : s.count < 2 ^ 32 := (s.arg 1).isLt

theorem encoded_res0 (s : State) (is8 : Bool) (r : EncRun) :
    (s.encoded is8 r).complete.res[0].toNat = codeLen is8 s.count := by
  have hlt := lt_of_le_of_lt (codeLen_le is8 s.count) s.count_lt
  simpa [State.encoded, State.setError] using hlt

/-- What an encoding command leaves where its checks pass (42_codec.md R95, R97). -/
theorem encResult (is8 : Bool) (t : BitVec 4) (p : BitVec 2) (s : State) (h : CanEncode is8 t p s) :
    ∃ u, exec (if is8 then .enc8 t p else .enc4 t p) s = .next u ∧ Completed s u ∧ u.voices = s.voices ∧ u.wbuf = s.wbuf ∧
      u.res[0].toNat = codeLen is8 s.count ∧ UnchangedOutside (s.codeOut is8) s u ∧
      (s.quiet →
        let values := samplesAt s.mem s.srcBase s.count
        bytesAt u.mem s.dstBase (codeLen is8 s.count) = encodedBytes s.cfg is8 t.toNat p.toNat values ∧
          errorResults u (encodedSSE s.cfg is8 t.toNat p.toNat values) s.count ∧ u.mem.draws = s.mem.draws) := by
  have hwithin := encodeRun_within is8 s.cfg t.toNat p.toNat s.srcBase s.count s.dstBase s.mem
  refine ⟨_, exec_enc h, (effect_enc is8 t p s).completed, encoded_voices s is8 _, encoded_wbuf s is8 _, encoded_res0 s is8 _,
    fun a ha => hwithin.peek a ha, ?_⟩
  rintro ⟨hq, hw⟩ values
  obtain ⟨-, ht, -, -, -, -, hdisjoint⟩ := h
  obtain ⟨hbytes, hsse⟩ := encodeRun_spec is8 s.cfg t.toNat p.toNat s.srcBase s.count s.dstBase hw hq hdisjoint
  refine ⟨hbytes, ?_, hwithin.quiet hq⟩
  have hle : encodedSSE s.cfg is8 t.toNat p.toNat values ≤ s.count * 65535 ^ 2 := by
    have := sseOf_le (samplesAt_bounds (p := s.mem) (a := s.srcBase) (n := s.count))
      (encodedRecs_bounds (is8 := is8) (pred := p.toNat) (values := values) ht)
    rwa [samplesAt_length] at this
  rw [← hsse] at hle ⊢
  exact errorResults_complete (errorResults_setError _ s.count_lt hle)

/-- Settles O40: the 4-bit case of `encResult`. -/
theorem enc4Result : Obligations.Enc4Result := by
  intro t p s h
  simpa only [codeLen, State.codeOut, packedLen_eq, Bool.false_eq_true, if_false] using encResult false t p s h

/-- Settles O41: the 8-bit case of `encResult`. -/
theorem enc8Result : Obligations.Enc8Result := fun t p s h => encResult true t p s h

/-! ### Decoding -/

/-- The decoding pass of DEC4 or DEC8. -/
def decodeRun (is8 : Bool) (cfg : Config) (t pred src n dst vol : Nat) (add ove : Bool) (port : MemPort) : DecRun :=
  if is8 then decode8 cfg t pred src n dst vol add ove port else decode4 cfg t pred src n dst vol add ove port

theorem decodeRun_within (is8 : Bool) (cfg : Config) (t pred src n dst vol : Nat) (add ove : Bool) (port : MemPort) :
    Within ⟨dst, 8 * n⟩ port (decodeRun is8 cfg t pred src n dst vol add ove port).port := by
  cases is8 with
  | true => exact decode8_within cfg t pred src n dst vol add ove port
  | false => exact decode4_within cfg t pred src n dst vol add ove port

/-- Without races a decoding pass emits the played values of the codes it reads. -/
theorem decodeRun_port (is8 : Bool) (cfg : Config) (t pred src n dst vol : Nat) (add ove : Bool) {p : MemPort}
    (hq : p.races = []) (hd : (Region.mk dst (8 * n)).overlaps ⟨src, codeLen is8 n⟩ = false) :
    (decodeRun is8 cfg t pred src n dst vol add ove p).port =
      emitAll add dst 0 (playAll cfg t (decStart cfg pred vol ove) (codesAt p is8 src n)).1 p := by
  cases is8 with
  | true => exact decode8_spec cfg t pred src n dst vol add ove hq hd
  | false => exact decode4_spec cfg t pred src n dst vol add ove hq hd

theorem emitAll_framesMixed {p : MemPort} (hw : p.wf = true) (hq : p.races = []) (add : Bool) (d : Nat) {os : List Int}
    (hb : ∀ o ∈ os, -2147483648 ≤ o ∧ o ≤ 2147483647) : FramesMixed add p (emitAll add d 0 os p) d os := by
  intro k hk
  have hframe := fun w hwd => emitAll_frame hw hq add d 0 os hb hk (w := w) hwd
  simp only [Nat.zero_add] at hframe
  exact ⟨hframe 0 (.inl rfl), hframe 4 (.inr rfl)⟩

/-- What DEC4 or DEC8 leaves of `s` before it completes. -/
def State.decoded (s : State) (r : DecRun) : State := { s with mem := r.port }.setRes 0 (BitVec.ofNat 32 s.count)

theorem exec_dec {is8 : Bool} {t : BitVec 4} {p : BitVec 2} (add ove : Bool) {s : State} (h : Decodable is8 t p s) :
    exec (if is8 then .dec8 t p add ove else .dec4 t p add ove) s =
      .next (s.decoded (decodeRun is8 s.cfg t.toNat p.toNat s.srcBase s.count s.dstBase s.decVolume add ove s.mem)).complete := by
  cases is8 <;> exact plainCommand_pass (validate_decChecks.2 h)

theorem effect_dec (is8 : Bool) (t : BitVec 4) (p : BitVec 2) (add ove : Bool) (s : State) :
    EffectWithin (if is8 then .dec8 t p add ove else .dec4 t p add ove) s
      (s.decoded (decodeRun is8 s.cfg t.toNat p.toNat s.srcBase s.count s.dstBase s.decVolume add ove s.mem)) := by
  cases is8 with
  | true => exact effect_dec8 t p add ove s
  | false => exact effect_dec4 t p add ove s

theorem decoded_res0 (s : State) (r : DecRun) : (s.decoded r).res[0].toNat = s.count := by
  simpa [State.decoded] using s.count_lt

/-- RES0 is the only RES register a decoding command writes. -/
theorem decoded_res_other (s : State) (r : DecRun) {k : Fin 4} (h : k ≠ 0) : (s.decoded r).res[k] = s.res[k] :=
  setRes_res_other _ _ h

/-- What a decoding command leaves where its checks pass (42_codec.md R96, R98). -/
theorem decResult (is8 : Bool) (t : BitVec 4) (p : BitVec 2) (add ove : Bool) (s : State) (h : Decodable is8 t p s) :
    ∃ u, exec (if is8 then .dec8 t p add ove else .dec4 t p add ove) s = .next u ∧ Completed s u ∧ u.voices = s.voices ∧
      u.wbuf = s.wbuf ∧ u.res[0].toNat = s.count ∧ u.res[1] = s.res[1] ∧ u.res[2] = s.res[2] ∧ u.res[3] = s.res[3] ∧
      UnchangedOutside ⟨s.dstBase, 8 * s.count⟩ s u ∧
      (s.quiet →
        FramesMixed add s.mem u.mem s.dstBase (playAll s.cfg t.toNat ((seeded s.cfg p.toNat 0x10000).volSet s.decVolume ove)
          (codesAt s.mem is8 s.srcBase s.count)).1 ∧ u.mem.draws = s.mem.draws) := by
  have hwithin := decodeRun_within is8 s.cfg t.toNat p.toNat s.srcBase s.count s.dstBase s.decVolume add ove s.mem
  have hother := fun k => decoded_res_other s
    (decodeRun is8 s.cfg t.toNat p.toNat s.srcBase s.count s.dstBase s.decVolume add ove s.mem) (k := k)
  refine ⟨_, exec_dec add ove h, (effect_dec is8 t p add ove s).completed, rfl, rfl, decoded_res0 s _, hother 1 (by decide),
    hother 2 (by decide), hother 3 (by decide), fun a ha => hwithin.peek a ha, ?_⟩
  rintro ⟨hq, hw⟩
  obtain ⟨-, -, -, -, -, -, -, hdisjoint⟩ := h
  have hport := decodeRun_port is8 s.cfg t.toNat p.toNat s.srcBase s.count s.dstBase s.decVolume add ove hq hdisjoint
  have hmixed := emitAll_framesMixed hw hq add s.dstBase (playAll_bounds s.cfg t.toNat (decStart s.cfg p.toNat s.decVolume ove)
    (codesAt s.mem is8 s.srcBase s.count))
  rw [← hport] at hmixed
  exact ⟨hmixed, hwithin.quiet hq⟩

/-- Settles O42: the 4-bit case of `decResult`. -/
theorem dec4Result : Obligations.Dec4Result := fun t p add ove s h => decResult false t p add ove s h

/-- Settles O43: the 8-bit case of `decResult`. -/
theorem dec8Result : Obligations.Dec8Result := fun t p add ove s h => decResult true t p add ove s h

/-! ### Decoding what an encode wrote, at unity volume (42_codec.md R99) -/

/-- Both volume fields are at unity, so that easing and scaling do nothing. -/
def Predictor.AtUnity (p : Predictor) : Prop := p.volsh = 0x10000 ∧ p.voltgt = 0x10000

theorem decodeOne_atUnity {cfg : Config} {t : Nat} {p : Predictor} (c : Code) (h : p.AtUnity) :
    (decodeOne cfg t p c).2.AtUnity := by
  cases c <;> exact h

theorem Predictor.AtUnity.ease {p : Predictor} (h : p.AtUnity) (cfg : Config) : p.ease cfg = p := by
  simp [Predictor.ease, h.1, h.2]

theorem Predictor.AtUnity.scale {p : Predictor} (h : p.AtUnity) (r : Int) : p.scale r = r := by
  rw [scale_eq_div, h.1]
  exact Int.mul_ediv_cancel r (by decide)

theorem playOne_of_atUnity {cfg : Config} {t : Nat} {p : Predictor} (c : Code) (h : p.AtUnity) :
    playOne cfg t p c = decodeOne cfg t p c := by
  have hnext := decodeOne_atUnity (cfg := cfg) (t := t) c h
  simp only [playOne, hnext.ease, hnext.scale]

theorem playAll_of_atUnity {cfg : Config} {t : Nat} {p : Predictor} (cs : List Code) (h : p.AtUnity) :
    playAll cfg t p cs = runOver (decodeOne cfg t) p cs := by
  induction cs generalizing p with
  | nil => rfl
  | cons c cs ih =>
    have htail := ih (decodeOne_atUnity (cfg := cfg) (t := t) c h)
    rw [playAll] at htail ⊢
    simp only [runOver, playOne_of_atUnity c h, htail]

theorem atUnity_volSet (cfg : Config) (pred : Nat) (ove : Bool) : ((seeded cfg pred 0x10000).volSet 256 ove).AtUnity := by
  cases ove <;> exact ⟨rfl, rfl⟩

theorem FramesMixed.framesHold {p q : MemPort} {d : Nat} {outs : List Int} (h : FramesMixed false p q d outs) :
    FramesHold q d outs := h

/-- Settles O57: the frames hold what playing the buffer's codes gives; at unity that is decoding them, and they are the codes of
the encoding. -/
theorem encodeThenDecode : Obligations.EncodeThenDecode := by
  intro is8 ove t p s d hs hsq hd hdq hcfg hsrc hcount hvol
  obtain ⟨u, hu, -, -, -, -, -, hresult⟩ := encResult is8 t p s hs
  obtain ⟨hbytes, herror, -⟩ := hresult hsq
  refine ⟨u, hu, fun hcopy => ?_⟩
  obtain ⟨w, hw, -, -, -, -, -, -, -, -, hframes⟩ := decResult is8 t p false ove d hd
  obtain ⟨hmixed, -⟩ := hframes hdq
  refine ⟨w, hw, ?_⟩
  intro values recs
  have hlen : values.length = s.count := samplesAt_length _ _ _
  have hread : bytesAt d.mem s.dstBase (codeLen is8 values.length) = encodedBytes s.cfg is8 t.toNat p.toNat values := by
    rw [← hbytes, hlen]
    exact List.map_congr_left fun i hi => hcopy _ (Nat.le_add_right _ _) (Nat.add_lt_add_left (List.mem_range.1 hi) _)
  have hvolume : d.decVolume = 256 := by rw [State.decVolume, hvol]; rfl
  obtain ⟨-, ht, -⟩ := hs
  have hplayed : (playAll d.cfg t.toNat ((seeded d.cfg p.toNat 0x10000).volSet d.decVolume ove)
      (codesAt d.mem is8 d.srcBase d.count)).1 = recs := by
    rw [hvolume, hcfg, hsrc, hcount, playAll_of_atUnity _ (atUnity_volSet _ _ _), ← hlen, codesAt_encodedBytes hread]
    exact decode_encodedCodes s.cfg is8 values ht ⟨rfl, rfl, rfl⟩
  rw [hplayed] at hmixed
  exact ⟨hmixed.framesHold, (encodedRecs_length _ _ _ _ _).trans hlen, herror⟩

end Sys2Proof.Machine

/-! The invariant under every step. Each operation of the host port, each command's effect and each end of a command keeps
`StateInv`; a step is one of these. -/

namespace Sys2Proof.Machine

/-! ### The host port -/

theorem StateInv.withScript {s : State} (h : StateInv s) (rest : List Turn) : StateInv { s with script := rest } := { h with }

theorem StateInv.withDraws {s : State} (h : StateInv s) (n : Nat) : StateInv { s with mem := { s.mem with draws := n } } :=
  { h with }

theorem StateInv.returned {r : Word × State} (h : StateInv r.2) : StateInv (State.returned r) := { h with }

theorem StateInv.withOvr {s : State} (h : StateInv s) : StateInv { s with ovr := true } := { h with }

theorem StateInv.writeStatus {s : State} (h : StateInv s) (v : Word) : StateInv (s.writeStatus v) :=
  { h with
    ecode := by
      rw [State.writeStatus_err, State.writeStatus_ecode]
      cases v.getLsbD 2 <;> simp [h.ecode]
    busyClear := fun hb => by
      obtain ⟨hd, he⟩ := h.busyClear hb
      simp [hd, he] }

theorem StateInv.accept {s : State} (h : StateInv s) (w : Word) : StateInv (s.accept w) :=
  { h with
    ecode := by simp
    busyClear := fun _ => ⟨rfl, rfl⟩
    busyArgs := fun _ => rfl
    idleRaces := nofun }

theorem StateInv.writeCmd {s : State} (h : StateInv s) (v : Word) : StateInv (s.writeCmd v) := by
  unfold State.writeCmd
  split
  · exact h.withOvr
  · exact h.accept v

/-- An ARG is written only while IDLE, when no snapshot stands for it. -/
theorem StateInv.writeArg {s : State} (h : StateInv s) (k : Fin 8) (v : Word) : StateInv (s.writeArg k v) := by
  unfold State.writeArg
  split
  · exact h.withOvr
  · rename_i hb
    exact { h with busyArgs := fun hp => absurd ((busy_iff s).2 hp) hb }

/-! ### Reset -/

theorem wf_scrambleAll (rs : List Region) {p : MemPort} (h : p.wf = true) :
    (rs.foldl (fun p r => p.scramble r.base r.len) p).wf = true := by
  induction rs generalizing p with
  | nil => exact h
  | cons r rs ih => exact ih (MemPort.scramble_wf _ _ h)

theorem mem_scrambleAll {rs : List Region} {p : MemPort} {c : Host.Cell}
    (h : c ∈ (rs.foldl (fun p r => p.scramble r.base r.len) p).cells) : c ∈ p.cells ∨ ∃ r ∈ rs, r.has c.1 = true := by
  induction rs generalizing p with
  | nil => exact .inl h
  | cons r rs ih =>
    obtain hc | ⟨q, hq, hin⟩ := ih h
    · exact (MemPort.scramble_cells p _ _ c hc).imp_right fun hin => ⟨r, List.mem_cons_self, Region.has_mk.2 hin⟩
    · exact .inr ⟨q, List.mem_cons_of_mem r hq, hin⟩

theorem lt_memSize_of_inRange {m a : Nat} {r : Region} (h : r.inRange m = true) (ha : r.has a = true) : a < m := by
  have hr := Region.inRange_iff.1 h
  have hin := Region.has_mk.1 ha
  omega

/-- An abandoned command leaves MEM canonical and inside MEM_SIZE: the buffers it writes are in range. -/
theorem StateInv.abandon {s : State} (h : StateInv s) :
    s.abandon.mem.wf = true ∧ ∀ c ∈ s.abandon.mem.cells, c.1 < s.cfg.raw.memSize := by
  refine ⟨wf_scrambleAll _ h.memWf, fun c hc => ?_⟩
  obtain hc | ⟨r, hr, hin⟩ := mem_scrambleAll hc
  · exact h.memIn c hc
  · exact lt_memSize_of_inRange (writtenNow_inRange s r hr) hin

theorem voice_resetBlock (s : State) (v : Nat) : s.resetBlock.voice v = .reset := by
  simp only [State.voice, State.resetBlock_voices, Vector.toList_replicate, List.getD_eq_getElem?_getD,
    List.getElem?_replicate]
  split <;> rfl

/-- The block at its reset values keeps the invariant over any MEM that does. -/
theorem stateInv_resetBlock {s : State} (hw : s.mem.wf = true) (hm : ∀ c ∈ s.mem.cells, c.1 < s.cfg.raw.memSize) :
    StateInv s.resetBlock where
  memWf := hw
  memIn := hm
  wbuf := by simp
  absent v _ := voice_resetBlock s v
  unbound v _ := voice_resetBlock s v
  bound v hv := by
    rw [voice_resetBlock] at hv
    cases hv
  ecode := by simp
  busyClear := nofun
  busyArgs := nofun
  idleRaces _ := rfl

theorem StateInv.hardReset {s : State} (h : StateInv s) : StateInv s.hardReset :=
  stateInv_resetBlock h.abandon.1 h.abandon.2

theorem StateInv.writeCtrl {s : State} (h : StateInv s) (v : Word) : StateInv (s.writeCtrl v) := by
  unfold State.writeCtrl
  split
  · exact h.hardReset
  · exact { h with }

theorem StateInv.writeReg {s : State} (h : StateInv s) (v : Word) (r : Reg) : StateInv (s.writeReg v r) := by
  cases r with
  | ctrl => exact h.writeCtrl v
  | status => exact h.writeStatus v
  | cmd => exact h.writeCmd v
  | arg k => exact h.writeArg k v
  | res | cfg0 | cfg1 | cfg2 | window | reserved => exact h

/-! ### Host writes to MEM -/

theorem footprint_of_idle {s : State} (h : s.phase = .idle) : s.footprint = [] := by
  simp [State.footprint, State.running, h]

theorem poke_memIn {p : MemPort} {m a : Nat} (h : ∀ c ∈ p.cells, c.1 < m) (ha : a < m) (b : Byte) :
    ∀ c ∈ (p.poke a b).cells, c.1 < m := by
  intro c hc
  obtain hc | hc := Cells.mem_write hc
  · exact h c hc
  · exact hc ▸ ha

/-- A race opens only inside a footprint, which an IDLE machine does not have. -/
theorem StateInv.writeMem {s : State} (h : StateInv s) {a : Nat} (ha : a < s.cfg.raw.memSize) (b : Byte) :
    StateInv (s.writeMem a b) := by
  unfold State.writeMem
  split
  · rename_i hin
    exact { h with
      memWf := MemPort.wf_race h.memWf a b
      memIn := poke_memIn h.memIn ha b
      idleRaces := fun hi => by
        rw [footprint_of_idle (s := s) hi] at hin
        cases hin }
  · exact { h with
      memWf := MemPort.wf_poke a b h.memWf
      memIn := poke_memIn h.memIn ha b }

theorem StateInv.of_hostTurn {a : HostAction} {s t : State} (h : StateInv s) (ht : hostTurn a s = .next t) : StateInv t := by
  cases a with
  | readReg addr width =>
    simp only [hostTurn] at ht
    split at ht
    · cases ht
    · rename_i off _
      cases ht
      obtain ⟨n, hn⟩ := readReg_state s (regAt s.cfg off)
      exact StateInv.returned (hn ▸ h.withDraws n)
  | writeReg addr width v =>
    simp only [hostTurn] at ht
    split at ht
    · cases ht
    · cases ht
      exact h.writeReg v _
  | readMem addr =>
    simp only [hostTurn] at ht
    split_ifs at ht
    cases ht
    obtain ⟨n, hn⟩ := readMem_state s addr
    exact StateInv.returned (hn ▸ h.withDraws n)
  | writeMem addr b =>
    simp only [hostTurn] at ht
    split_ifs at ht with ha
    cases ht
    exact h.writeMem ha b
  | reset =>
    cases ht
    exact h.hardReset

/-! ### The engine -/

theorem StateInv.complete {s : State} (h : StateInv s) : StateInv s.complete :=
  { h with
    busyClear := nofun
    busyArgs := nofun
    idleRaces := fun _ => rfl }

theorem StateInv.raiseError {s : State} (h : StateInv s) {c : ErrCode} (hc : c ≠ .none) : StateInv (s.raiseError c) :=
  { h with
    ecode := by simp [hc]
    busyClear := nofun
    busyArgs := nofun
    idleRaces := fun _ => rfl }

/-- A validation raises one of the six errors of 40_lifecycle.md R64. -/
theorem ne_none_of_validate_error {i : Instr} {s : State} {c : ErrCode}
    (h : validate s.snapshot (checksOf i s) = .error c) : c ≠ .none := by
  rcases validate_cases s.snapshot (checksOf i s) with hp | ⟨k, hk, -⟩ | ⟨k, hk, hf, ha⟩
  · rw [hp] at h
    cases h
  · rw [hk] at h
    cases h
  · have hmet : (conditionsOf i s).met c := (conditionsOf_met_iff i s c).2 ⟨k, hk, ha.symm.trans h, hf⟩
    rintro rfl
    exact hmet

/-- A command that passed its checks writes inside MEM. -/
theorem EffectWithin.mem_within {i : Instr} {s t : State} (hw : EffectWithin i s t)
    (hp : validate s.snapshot (checksOf i s) = .pass) : Within ⟨0, s.cfg.raw.memSize⟩ s.mem t.mem := by
  refine hw.mem _ fun r hr a ha => Region.has_mk.2 ⟨Nat.zero_le a, ?_⟩
  obtain ⟨q, hq, hqa⟩ := bytesWrittenBy_sub ⟨r, hr, ha⟩
  rw [Nat.zero_add]
  exact lt_memSize_of_inRange (writtenBy_inRange (running_of_pass hp) q hq) hqa

/-- The effect of a command that passed its checks keeps the invariant: the voices it writes exist, are bound and keep
`VoiceInv`, and the others are as they were. -/
theorem StateInv.effect {i : Instr} {s : State} (h : StateInv s) (hp : validate s.snapshot (checksOf i s) = .pass) :
    StateInv (effectOf i s).2 := by
  have hw := (effect_within i s).1
  have hwritten := effect_voices h hp
  have hmem := hw.mem_within hp
  have hin := effect_memIn h hp hw
  generalize (effectOf i s).2 = t at hw hwritten hmem hin
  have hvoice : ∀ v, t.voice v = s.voice v ∨
      (v < s.cfg.raw.nVoices ∧ (t.voice v).bound = true ∧ VoiceInv s.cfg (t.voice v)) :=
    fun v => or_iff_not_imp_right.2 fun hn => hw.voices v fun hv => hn (hwritten v hv)
  obtain ⟨res, voices, wbuf, mem, rfl⟩ : ∃ res voices wbuf mem,
      t = { s with res := res, voices := voices, wbuf := wbuf, mem := mem } := ⟨_, _, _, _, hw.fields⟩
  exact
    { h with
      memWf := hmem.wf h.memWf
      memIn := hin
      wbuf := hw.wbuf h.wbuf
      absent := fun v hv => by
        obtain hs | ⟨hlt, -⟩ := hvoice v
        · exact hs.trans (h.absent v hv)
        · exact absurd hlt (Nat.not_lt.2 hv)
      unbound := fun v hv => by
        obtain hs | ⟨-, hb, -⟩ := hvoice v
        · exact hs.trans (h.unbound v (hs ▸ hv))
        · exact absurd (hb.symm.trans hv) nofun
      bound := fun v hv => by
        obtain hs | ⟨-, -, hinv⟩ := hvoice v
        · exact hs.symm ▸ h.bound v (hs ▸ hv)
        · exact hinv
      idleRaces := fun hi => hmem.races.trans (h.idleRaces hi) }

theorem StateInv.of_exec {i : Instr} {s t : State} (h : StateInv s) (ht : exec i s = .next t) : StateInv t := by
  rw [exec_eq] at ht
  obtain ⟨c, hc, rfl⟩ | ⟨hp, hend⟩ := command_next ht
  · exact h.raiseError (ne_none_of_validate_error hc)
  · have heff := h.effect hp
    obtain ⟨s', hs, rfl⟩ | ⟨c, s', hs, rfl⟩ := hend
    · rw [hs] at heff
      exact heff.complete
    · obtain hnone | ⟨himage, -⟩ := (effect_within i s).2
      · rw [hs] at hnone
        cases hnone
      · rw [hs] at himage heff
        cases himage
        exact heff.raiseError nofun

theorem StateInv.of_engineTurn {s t : State} (h : StateInv s) (ht : engineTurn s = .next t) : StateInv t := by
  cases hp : s.phase with
  | idle =>
    rw [engineTurn_of_idle hp] at ht
    cases ht
    exact h
  | busy =>
    cases hd : decode s.cmd with
    | ok i => exact h.of_exec ((engineTurn_of_decode hp hd).symm.trans ht)
    | error e =>
      rw [engineTurn_of_decode_error hp hd] at ht
      cases ht
      exact h.raiseError nofun

theorem StateInv.of_turn {x : Turn} {s t : State} (h : StateInv s) (ht : turn x s = .next t) : StateInv t := by
  cases x with
  | host a => exact h.of_hostTurn ht
  | engine => exact h.of_engineTurn ht

/-- Settles O56: a step is one turn, and both agents' turns keep the invariant. -/
theorem invariantIsKept : Obligations.InvariantIsKept := by
  intro s t h hstep
  obtain he | ⟨x, rest, -, ht⟩ := step_next hstep
  · exact h.of_engineTurn he
  · exact (h.withScript rest).of_turn ht

end Sys2Proof.Machine

/-! The expander's commands (43_expander.md R101..R109): what BIND, REWIND, EXPAND and FILL leave where their checks pass. -/

namespace Sys2Proof.Machine

theorem voice_complete (s : State) (v : Nat) : s.complete.voice v = s.voice v := rfl

/-! ### BIND and REWIND -/

/-- A seed fits its predictor fields (00_scope.md R9). -/
theorem seeded_history (cfg : Config) (pred vol : Nat) :
    (seeded cfg pred vol).prev1.toInt = (cfg.seed pred).prev1 ∧ (seeded cfg pred vol).prev2.toInt = (cfg.seed pred).prev2 ∧
      (seeded cfg pred vol).shift.toNat = (cfg.seed pred).shift := by
  obtain ⟨h1, h1', h2, h2', hs⟩ := cfg.seed_bounds pred
  refine ⟨toInt_ofInt16 h1 h1', toInt_ofInt16 h2 h2', ?_⟩
  simp only [seeded, BitVec.toNat_ofNat]
  omega

theorem exec_bind {v t : BitVec 4} {p : BitVec 2} {is8 odd : Bool} {s : State} (h : Bindable v t p is8 odd s) :
    exec (.bind v t p is8 odd) s = .next (bindEffect v t p is8 odd s).complete :=
  plainCommand_pass (validate_bindChecks.2 h)

theorem effect_bind (v t : BitVec 4) (p : BitVec 2) (is8 odd : Bool) (s : State) :
    EffectWithin (.bind v t p is8 odd) s (bindEffect v t p is8 odd s) := (effect_within (.bind v t p is8 odd) s).1

theorem bindEffect_voice {v t : BitVec 4} {p : BitVec 2} {is8 odd : Bool} {s : State} (h : Bindable v t p is8 odd s) :
    (bindEffect v t p is8 odd s).voice v.toNat = boundVoice s.cfg t p is8 odd (s.arg 0) (s.arg 1) := by
  obtain ⟨-, -, -, hv, -⟩ := h
  have hN := s.cfg.nVoices_bounds
  exact State.voice_setVoice_same s _ (by omega)

theorem bindEffect_res0 (v t : BitVec 4) (p : BitVec 2) (is8 odd : Bool) (s : State) :
    (bindEffect v t p is8 odd s).res[0] = (boundVoice s.cfg t p is8 odd (s.arg 0) (s.arg 1)).total :=
  setRes_res_same (s.setVoice v.toNat _) 0 _

/-- Settles O44: the voice is `boundVoice`, whose TOTAL is in range by its invariant and whose predictor is the seed's. -/
theorem bindResult : Obligations.BindResult := by
  intro v t p is8 odd s h
  have heff := effect_bind v t p is8 odd s
  have hres := bindEffect_res0 v t p is8 odd s
  obtain ⟨hprev1, hprev2, hshift⟩ := seeded_history s.cfg p.toNat unityVol
  refine ⟨_, exec_bind h, heff.completed, rfl, rfl, ?_, heff.res 1 (by simp [resWrittenBy]), heff.res 2 (by simp [resWrittenBy]),
    heff.res 3 (by simp [resWrittenBy]), fun w hw => heff.voices w (by simpa [voicesWrittenBy] using hw),
    seeded s.cfg p.toNat unityVol, ?_, hprev1, hprev2, hshift, rfl, rfl, rfl, rfl⟩
  · exact (congrArg BitVec.toNat hres).trans (boundVoice_inv h).total
  · rw [voice_complete, bindEffect_voice h, State.complete_res, hres]
    rfl

theorem exec_rewind {v : BitVec 4} {s : State} (h : Rewindable v s) :
    exec (.rewind v) s = .next (rewindEffect v s).complete := plainCommand_pass (validate_rewindChecks.2 h)

theorem effect_rewind (v : BitVec 4) (s : State) : EffectWithin (.rewind v) s (rewindEffect v s) :=
  (effect_within (.rewind v) s).1

theorem rewindEffect_voice {v : BitVec 4} {s : State} (h : Rewindable v s) :
    (rewindEffect v s).voice v.toNat = (s.voice v.toNat).rewound s.cfg := by
  have hN := s.cfg.nVoices_bounds
  have hv := h.1
  exact State.voice_setVoice_same s _ (by omega)

/-- Settles O46: the voice is `Voice.rewound`, whose predictor is the seed's but for the volume. -/
theorem rewindResult : Obligations.RewindResult := by
  intro v s h
  have heff := effect_rewind v s
  obtain ⟨hprev1, hprev2, hshift⟩ := seeded_history s.cfg (s.voice v.toNat).pred.toNat 0
  exact ⟨_, exec_rewind h, heff.completed, rfl, rfl, rfl, fun w hw => heff.voices w (by simpa [voicesWrittenBy] using hw),
    ((s.voice v.toNat).rewound s.cfg).p, rewindEffect_voice h, hprev1, hprev2, hshift, rfl, rfl, rfl, rfl⟩

/-! ### EXPAND -/

/-- What ExpandCore answers for EXPAND (43_expander.md R105). -/
def State.expandRun (s : State) (v : BitVec 4) (add ove : Bool) : Nat × VoiceRun :=
  expandCore s.cfg s.base0 s.count s.expandVolume add ove ⟨s.voice v.toNat, s.wbuf, s.mem⟩

/-- What EXPAND plays: the output values and the voice after them (43_expander.md R103). -/
def State.expandPlay (s : State) (v : BitVec 4) (ove : Bool) : List Int × Voice :=
  (s.voice v.toNat).play s.cfg s.mem s.count s.expandVolume ove

theorem exec_expand {v : BitVec 4} (add ove : Bool) {s : State} (h : Expandable v s) :
    exec (.expand v add ove) s = .next (expandEffect v add ove s).complete := plainCommand_pass (validate_expandChecks.2 h)

theorem expandEffect_mem (v : BitVec 4) (add ove : Bool) (s : State) :
    (expandEffect v add ove s).mem = (s.expandRun v add ove).2.port := rfl

theorem expandEffect_voice {v : BitVec 4} (add ove : Bool) {s : State} (h : Expandable v s) :
    (expandEffect v add ove s).voice v.toNat = (s.expandRun v add ove).2.v := by
  obtain ⟨-, -, hv, -⟩ := h
  have hN := s.cfg.nVoices_bounds
  exact State.voice_setVoice_same { s with wbuf := _, mem := _ } _ (by omega)

theorem expandEffect_res0 (v : BitVec 4) (add ove : Bool) (s : State) :
    (expandEffect v add ove s).res[0] = BitVec.ofNat 32 (s.expandRun v add ove).1 :=
  (setRes_res_other (State.setRes _ 0 _) _ (by decide)).trans (setRes_res_same _ 0 _)

theorem expandEffect_res1 (v : BitVec 4) (add ove : Bool) (s : State) :
    (expandEffect v add ove s).res[1] = ((expandEffect v add ove s).voice v.toNat).pos := setRes_res_same _ 1 _

/-- Only the frames produced are written (43_expander.md R105). -/
theorem expandEffect_peek (v : BitVec 4) (add ove : Bool) (s : State) {a : Nat}
    (h : (Region.mk s.base0 (8 * s.wanted v.toNat)).has a = false) :
    (expandEffect v add ove s).mem.peek a = s.mem.peek a :=
  (effect_expand v add ove s).peek fun r hr => by
    obtain rfl : r = s.producedFrames v.toNat := by simpa [bytesWrittenBy] using hr
    exact h

theorem expandVolume_le (s : State) : s.expandVolume ≤ 65535 := by
  unfold State.expandVolume lowHalf
  omega

theorem expandRun_inv {v : BitVec 4} (add ove : Bool) {s : State} (hinv : VoiceInv s.cfg (s.voice v.toNat)) :
    (s.expandRun v add ove).1 = s.wanted v.toNat ∧ VoiceInv s.cfg (s.expandRun v add ove).2.v ∧
      SameBinding (s.voice v.toNat) (s.expandRun v add ove).2.v ∧
      (s.expandRun v add ove).2.v.pos.toNat = (s.voice v.toNat).pos.toNat + (s.expandRun v add ove).1 :=
  expandCore_inv s.cfg s.base0 s.count s.expandVolume add ove _ (expandVolume_le s) hinv

theorem expandPlay_length (s : State) (v : BitVec 4) (ove : Bool) : (s.expandPlay v ove).1.length = s.wanted v.toNat :=
  play_length _ _ _

/-- Without races EXPAND plays the voice and emits what it plays. -/
theorem expandRun_play {v : BitVec 4} (add ove : Bool) {s : State} (h : Expandable v s)
    (hinv : VoiceInv s.cfg (s.voice v.toNat)) (hq : s.mem.races = []) :
    (s.expandRun v add ove).2.v = (s.expandPlay v ove).2 ∧
      (s.expandRun v add ove).2.port = emitAll add s.base0 0 (s.expandPlay v ove).1 s.mem := by
  obtain ⟨-, -, -, -, -, -, hdisjoint, -⟩ := h
  exact (expandCore_play add s.expandVolume ove ⟨s.voice v.toNat, s.wbuf, s.mem⟩ hinv hq hdisjoint).2

theorem wanted_lt (s : State) (v : Nat) : s.wanted v < 2 ^ 32 := lt_of_le_of_lt (Nat.min_le_left _ _) s.count_lt

/-- The stream of a voice that EXPAND plays is as it was: its frames lie elsewhere. -/
theorem expandEffect_stream {v : BitVec 4} (add ove : Bool) {s : State} (h : Expandable v s) {k : Nat}
    (hk : k < (s.voice v.toNat).size.toNat) :
    (expandEffect v add ove s).mem.peek ((s.voice v.toNat).base.toNat + k) = s.mem.peek ((s.voice v.toNat).base.toNat + k) := by
  obtain ⟨-, -, -, -, -, -, hdisjoint, -⟩ := h
  have hout : s.expandFrames.has ((s.voice v.toNat).base.toNat + k) = false :=
    Region.has_of_disjoint hdisjoint (Region.has_mk.2 (by omega))
  refine expandEffect_peek v add ove s (Region.has_mk_false ?_)
  rw [← Bool.not_eq_true, State.expandFrames, Region.has_mk] at hout
  unfold State.wanted
  omega

/-- Settles O45: EXPAND is `expandRun`, which keeps the invariant, and without races is `expandPlay`. -/
theorem expandResult : Obligations.ExpandResult := by
  intro v add ove s h x g
  have heff := effect_expand v add ove s
  have hvoice := expandEffect_voice add ove h
  refine ⟨_, exec_expand add ove h, heff.completed, heff.res 2 (by simp [resWrittenBy]), heff.res 3 (by simp [resWrittenBy]),
    expandEffect_res1 v add ove s, fun w hw => heff.voices w (by simpa [voicesWrittenBy] using hw), fun a ha => ?_, fun hinv => ?_⟩
  · refine expandEffect_peek v add ove s (Region.has_mk_false ?_)
    rw [← Bool.not_eq_true, Region.has_mk] at ha
    unfold State.wanted
    omega
  · obtain ⟨hcount, hkept, -, hpos⟩ := expandRun_inv add ove hinv
    refine ⟨?_, ?_, ?_, fun ⟨hq, hw⟩ => ?_⟩
    · rw [State.complete_res, expandEffect_res0, hcount, BitVec.toNat_ofNat, Nat.mod_eq_of_lt (wanted_lt s _)]
      rfl
    · rw [State.complete_res, expandEffect_res1, hvoice, hpos, hcount]
      rfl
    · rw [voice_complete, hvoice]
      exact hkept
    · obtain ⟨hv, hport⟩ := expandRun_play add ove h hinv hq
      have hmixed : FramesMixed add s.mem (expandEffect v add ove s).mem s.base0 (s.expandPlay v ove).1 := by
        rw [expandEffect_mem, hport]
        exact emitAll_framesMixed hw hq add s.base0 (play_bounds _ _ _)
      have hleft := codesLeft_play hinv s.count s.expandVolume ove (fun k hk => expandEffect_stream add ove h hk)
      refine ⟨fun a ha => expandEffect_peek v add ove s ha, hmixed, expandPlay_length s v ove, ?_, ?_, ?_⟩
      · rw [voice_complete, hvoice, hv]
        rfl
      · rw [voice_complete, hvoice, hv]
        exact hleft
      · exact (heff.mem_within (validate_expandChecks.2 h)).quiet hq

/-! ### FILL -/

/-- The state in which FILL's voice loop starts: its frames zeroed (43_expander.md R109). -/
def State.silenced (s : State) : State := { s with mem := forUp (zeroFrame s.fillFrames.base) s.fillCount 0 s.mem }

/-- The voice loop of FILL (43_expander.md R109). -/
def State.fillRun (s : State) (ove : Bool) : FillRun :=
  s.fillVoices.foldl (fillOne s.fillFrames.base s.fillCount ove) ⟨0, 0, s.silenced⟩

theorem silenced_within (s : State) : Within s.fillFrames s.mem s.silenced.mem :=
  zeroFrames_within s.fillFrames.base s.fillCount s.mem

theorem exec_fill (ove : Bool) {s : State} (h : Fillable s) : exec (.fill ove) s = .next (fillEffect ove s).complete :=
  plainCommand_pass (validate_fillChecks.2 h)

theorem fillEffect_mem (ove : Bool) (s : State) : (fillEffect ove s).mem = (s.fillRun ove).s.mem := rfl

theorem fillEffect_voice (ove : Bool) (s : State) (v : Nat) : (fillEffect ove s).voice v = (s.fillRun ove).s.voice v := rfl

theorem fillEffect_res0 (ove : Bool) (s : State) : (fillEffect ove s).res[0] = (s.fillRun ove).ended :=
  (setRes_res_other (State.setRes _ 0 _) _ (by decide)).trans (setRes_res_same _ 0 _)

theorem fillEffect_res1 (ove : Bool) (s : State) : (fillEffect ove s).res[1] = (s.fillRun ove).rewound :=
  setRes_res_same _ 1 _

theorem mem_fillVoices {s : State} {v : Nat} : v ∈ s.fillVoices ↔ v < 8 ∧ s.inFill v = true := by
  simp [State.fillVoices]

/-- The voices of FILL keep their invariant, whatever is read. -/
theorem fillRun_inv (ove : Bool) {s : State} (h : ∀ v ∈ s.fillVoices, VoiceInv s.cfg (s.voice v)) :
    ∀ v ∈ s.fillVoices, VoiceInv s.cfg ((s.fillRun ove).s.voice v) := by
  obtain ⟨-, -, -, -, hkept⟩ := fillFold_keeps s.fillFrames.base s.fillCount ove s.fillVoices
    ⟨0, 0, s.silenced⟩ (fillVoices_lt s) h
  exact fun v hv => (hkept v hv).1

/-- Without races the voices of FILL are played and mixed into silence. -/
theorem fillRun_play (ove : Bool) {s : State} (h : Fillable s) (hinv : ∀ v ∈ s.fillVoices, VoiceInv s.cfg (s.voice v))
    (hq : s.quiet) :
    (∀ v ∈ s.fillVoices, (s.fillRun ove).s.voice v = (s.fillPlay ove v).2.2) ∧
      FramesHold (s.fillRun ove).s.mem s.fillFrames.base (s.fillMix ove) ∧
      (∀ v, (s.fillRun ove).ended.getLsbD v = (decide (v ∈ s.fillVoices) && (s.fillPlay ove v).1.ended)) ∧
      ∀ v, (s.fillRun ove).rewound.getLsbD v = (decide (v ∈ s.fillVoices) && (s.fillPlay ove v).1.rewound) := by
  obtain ⟨hraces, hw⟩ := hq
  obtain ⟨-, -, -, -, -, hvoices⟩ := h
  have hzero := silenced_within s
  have hplay := fillFold_play s ove s.fillVoices (fillVoices_nodup s) (fillVoices_lt s) hinv
    (fun v hv => (hvoices v hv).2.2.2.1) hraces
    ⟨0, 0, s.silenced⟩ (List.replicate s.fillCount 0)
    rfl (fun _ _ => rfl) (hzero.wf hw) hzero List.length_replicate (zeroFrames_hold hw hraces _ _)
  obtain ⟨-, -, hvoice, hframes, hended, hrewound⟩ := hplay
  exact ⟨hvoice, hframes, fun v => (hended v).trans (by simp), fun v => (hrewound v).trans (by simp)⟩

theorem foldl_mixIn_length {α : Type} (outs : α → List Int) (vs : List α) (fs : List Int) :
    (vs.foldl (fun frames v => mixIn frames (outs v)) fs).length = fs.length := by
  induction vs generalizing fs with
  | nil => rfl
  | cons v vs ih => rw [List.foldl_cons, ih, mixIn_length]

theorem fillMix_length (s : State) (ove : Bool) : (s.fillMix ove).length = s.fillCount :=
  (foldl_mixIn_length (fun v => (s.fillPlay ove v).2.1) _ _).trans List.length_replicate

/-- Settles O47: FILL is `fillRun`, which keeps the invariant of its voices, and without races is `fillPlay` of each and
`fillMix`. -/
theorem fillResult : Obligations.FillResult := by
  intro ove s h
  have heff := effect_fill ove s
  have hvoices : ∀ v, (fillEffect ove s).complete.voice v = (s.fillRun ove).s.voice v := fillEffect_voice ove s
  refine ⟨_, exec_fill ove h, heff.completed, heff.res 2 (by simp [resWrittenBy]), heff.res 3 (by simp [resWrittenBy]),
    fun v hv => heff.voices v ?_, fun a ha => heff.peek ?_, fun hinv => ?_⟩
  · simp [voicesWrittenBy, mem_fillVoices, hv]
  · simpa [bytesWrittenBy, State.fillFrames] using ha
  · simp only [hvoices, State.complete_res, State.complete_mem, fillEffect_res0, fillEffect_res1, fillEffect_mem]
    refine ⟨fillRun_inv ove hinv, fun hq => ?_⟩
    obtain ⟨hplayed, hframes, hended, hrewound⟩ := fillRun_play ove h hinv hq
    exact ⟨hframes, fillMix_length s ove, hplayed, hended, hrewound,
      (heff.mem_within (validate_fillChecks.2 h)).quiet hq.1⟩

end Sys2Proof.Machine

/-! EXPANDs one after the other (43_expander.md R106, R108): without races a run of EXPANDs plays its voice in pieces, whatever
BUFFER_SIZE is, and a voice rewound plays as one bound afresh. -/

namespace Sys2Proof.Machine

/-! ### One EXPAND without races -/

/-- Without races EXPAND completes, moves the voice on by what it plays, and emits that. -/
theorem exec_expand_quiet {v : BitVec 4} (add ove : Bool) {s : State} (h : Expandable v s)
    (hinv : VoiceInv s.cfg (s.voice v.toNat)) (hq : s.quiet) :
    ∃ t, exec (.expand v add ove) s = .next t ∧ t.cfg = s.cfg ∧ t.quiet ∧ t.voice v.toNat = (s.expandPlay v ove).2 ∧
      t.mem = emitAll add s.base0 0 (s.expandPlay v ove).1 s.mem := by
  obtain ⟨hraces, hw⟩ := hq
  obtain ⟨hvoice, hport⟩ := expandRun_play add ove h hinv hraces
  have hwithin := emitAll_within add s.base0 0 (s.expandPlay v ove).1 s.mem
  rw [← hport, ← expandEffect_mem] at hwithin
  have hnone : (expandEffect v add ove s).mem.races = [] := hwithin.races.trans hraces
  refine ⟨_, exec_expand add ove h, (effect_expand v add ove s).cfg, ⟨rfl, hwithin.wf hw⟩, ?_, ?_⟩
  · rw [voice_complete, expandEffect_voice add ove h, hvoice]
  · rw [State.complete_mem, ← hnone, ← hport]
    rfl

/-! ### BUFFER_SIZE -/

/-- A configuration with another BUFFER_SIZE. -/
def withBufferSize (c : Config) (n : Nat) (ok : RawConfig.wf { c.raw with bufferSize := n } = true) : Config := ⟨_, ok⟩

theorem exists_withBufferSize {c c' : Config} (h : c'.raw = { c.raw with bufferSize := c'.raw.bufferSize }) :
    ∃ n ok, c' = withBufferSize c n ok := by
  obtain ⟨raw, ok⟩ := c'
  exact ⟨raw.bufferSize, h ▸ ok, by simp only [withBufferSize, ← h]⟩

section BufferSize
variable {c : Config} {n : Nat} {ok : RawConfig.wf { c.raw with bufferSize := n } = true}

theorem playOne_withBufferSize : playOne (withBufferSize c n ok) = playOne c := by
  funext t p code
  cases code <;> rfl

theorem play_withBufferSize (v : Voice) (m : MemPort) (k vol : Nat) (ove : Bool) :
    v.play (withBufferSize c n ok) m k vol ove = v.play c m k vol ove := by
  unfold Voice.play playAll
  rw [playOne_withBufferSize]

theorem VoiceInv.withBufferSize {v : Voice} (h : VoiceInv c v) : VoiceInv (withBufferSize c n ok) v := { h with }

end BufferSize

/-- Settles O59: both EXPANDs play the voice alike, and RES0, RES1 follow from what is played. -/
theorem bufferSizeIsInvisible : Obligations.BufferSizeIsInvisible := by
  intro v add ove s c wbuf h hq hinv hc
  obtain ⟨n, ok, rfl⟩ := exists_withBufferSize hc
  generalize hs' : { s with cfg := withBufferSize s.cfg n ok, wbuf := wbuf } = s'
  have h' : Expandable v s' := hs' ▸ h
  have hinv' : VoiceInv s'.cfg (s'.voice v.toNat) := hs' ▸ hinv.withBufferSize
  have hplay : s'.expandPlay v ove = s.expandPlay v ove := hs' ▸ play_withBufferSize _ _ _ _ _
  obtain ⟨hmem, hbase, hres, hvoices⟩ : s'.mem = s.mem ∧ s'.base0 = s.base0 ∧ s'.res = s.res ∧ s'.voices = s.voices :=
    hs' ▸ ⟨rfl, rfl, rfl, rfl⟩
  have hwanted : s'.wanted v.toNat = s.wanted v.toNat := hs' ▸ rfl
  obtain ⟨t, ht, -, -, htv, htm⟩ := exec_expand_quiet add ove h hinv hq
  obtain ⟨u, hu, -, -, huv, hum⟩ := exec_expand_quiet add ove h' hinv' (by rw [State.quiet, hmem]; exact hq)
  obtain ⟨_, ht', -, ht2, ht3, ht1, hto, -, htr⟩ := expandResult v add ove s h
  obtain ⟨_, hu', -, hu2, hu3, hu1, huo, -, hur⟩ := expandResult v add ove s' h'
  obtain rfl := Host.Outcome.next.inj (ht.symm.trans ht')
  obtain rfl := Host.Outcome.next.inj (hu.symm.trans hu')
  have hvoice : u.voice v.toNat = t.voice v.toNat := by rw [huv, htv, hplay]
  refine ⟨t, u, ht, hu, voices_ext fun w _ => ?_, Vector.ext fun i hi => ?_, fun a => ?_⟩
  · by_cases hw : w = v.toNat
    · rw [hw, hvoice]
    · rw [huo w hw, hto w hw, State.voice_congr hvoices]
  · have hres0 : u.res[0] = t.res[0] := BitVec.eq_of_toNat_eq ((hur hinv').1.trans (hwanted.trans (htr hinv).1.symm))
    have hres1 : u.res[1] = t.res[1] := by rw [hu1, ht1, hvoice]
    have hres2 : u.res[2] = t.res[2] := by rw [hu2, ht2, hres]
    have hres3 : u.res[3] = t.res[3] := by rw [hu3, ht3, hres]
    interval_cases i
    · exact hres0
    · exact hres1
    · exact hres2
    · exact hres3
  · rw [hum, htm, hplay, hmem, hbase]

/-! ### A voice played in pieces -/

/-- A voice played in pieces of the given sizes: the output values in a row and the voice after them. -/
def Voice.playPieces (cfg : Config) (m : MemPort) (vol : Nat) (ove : Bool) : List Nat → Voice → List Int × Voice
  | [], v => ([], v)
  | n :: ns, v =>
    ((v.play cfg m n vol ove).1 ++ ((v.play cfg m n vol ove).2.playPieces cfg m vol ove ns).1,
      ((v.play cfg m n vol ove).2.playPieces cfg m vol ove ns).2)

section Pieces
variable {cfg : Config} {v : Voice} {m m' : MemPort}

theorem play_binding (n vol : Nat) (ove : Bool) : SameBinding v (v.play cfg m n vol ove).2 :=
  ⟨rfl, rfl, rfl, rfl, rfl, rfl, rfl, rfl⟩

/-- What is left of the stream after playing. -/
theorem play_left (h : VoiceInv cfg v) (n vol : Nat) (ove : Bool) :
    (v.play cfg m n vol ove).2.total.toNat - (v.play cfg m n vol ove).2.pos.toNat = v.total.toNat - v.pos.toNat - n := by
  have hleft := congrArg List.length (codesLeft_play (m := m) (m' := m) h n vol ove fun _ _ => rfl)
  simp only [List.length_drop, Voice.codesLeft_length] at hleft
  omega

theorem playPieces_congr (h : VoiceInv cfg v) {vol : Nat} (ove : Bool) (hv : vol ≤ 65535) (hm : m.races = [])
    (hs : ∀ k < v.size.toNat, m'.peek (v.base.toNat + k) = m.peek (v.base.toNat + k)) (ns : List Nat) :
    v.playPieces cfg m' vol ove ns = v.playPieces cfg m vol ove ns := by
  induction ns generalizing v with
  | nil => rfl
  | cons n ns ih => rw [Voice.playPieces, play_congr h n vol ove hs, ih (play_inv h hv hm) hs, Voice.playPieces]

theorem playPieces_length (h : VoiceInv cfg v) {vol : Nat} (ove : Bool) (hv : vol ≤ 65535) (hm : m.races = []) (ns : List Nat) :
    (v.playPieces cfg m vol ove ns).1.length = min ns.sum (v.total.toNat - v.pos.toNat) := by
  induction ns generalizing v with
  | nil => simp [Voice.playPieces]
  | cons n ns ih =>
    have hrest := ih (play_inv (n := n) (ove := ove) h hv hm)
    rw [play_left h] at hrest
    rw [Voice.playPieces, List.length_append, play_length, hrest, List.sum_cons]
    omega

/-- Pieces at one volume with OVE = 0 are one play of their sum, while samples are left (43_expander.md R106). -/
theorem playPieces_eq_play (h : VoiceInv cfg v) {vol : Nat} (hv : vol ≤ 65535) (hm : m.races = []) {ns : List Nat}
    (hne : ns ≠ []) (hn : ns.sum ≤ v.total.toNat - v.pos.toNat) :
    v.playPieces cfg m vol false ns = v.play cfg m ns.sum vol false := by
  induction ns generalizing v with
  | nil => exact absurd rfl hne
  | cons n ns ih =>
    rw [List.sum_cons] at hn ⊢
    cases ns with
    | nil => simp [Voice.playPieces]
    | cons n' ns =>
      have hrest := ih (play_inv (n := n) (ove := false) h hv hm) (List.cons_ne_nil _ _) (by rw [play_left h]; omega)
      rw [Voice.playPieces, hrest, play_add (m' := m) h _ _ _ hn fun _ _ => rfl]

/-- A voice moved on to where it stands, with its packing fields, has another predictor only. -/
theorem movedTo_pos (h : VoiceInv cfg v) {p : Predictor} (hhigh : p.high = v.p.high) (hheld : p.held = v.p.held) :
    v.movedTo m p v.pos.toNat = { v with p := p } := by
  simp only [Voice.movedTo, ← h.cursor_eq, ← h.high, ← hhigh, ← hheld, Nat.le_refl, decide_true, Bool.or_true, if_true,
    BitVec.ofNat_toNat, BitVec.setWidth_eq]

/-- Playing no sample only sets the volume (43_expander.md R103). -/
theorem play_zero (h : VoiceInv cfg v) (vol : Nat) (ove : Bool) :
    v.play cfg m 0 vol ove = ([], { v with p := v.p.volSet vol ove }) :=
  congrArg (Prod.mk []) (movedTo_pos h (p := v.p.volSet vol ove) rfl rfl)

end Pieces

/-! ### Runs of EXPAND -/

/-- `s` with the arguments of an EXPAND of `n` samples into frames at `d`. -/
abbrev State.forExpand (s : State) (d n : Nat) (vol : Word) : State :=
  s.withArgs [BitVec.ofNat 32 d, BitVec.ofNat 32 n, vol]

theorem withArgs_arg (s : State) (as : List Word) (k : Fin 8) : (s.withArgs as).arg k = as.getD k.val 0 := by
  simp [State.arg, State.withArgs]

theorem withArgs_wrote (s : State) (as : List Word) (ks : List (Fin 8)) : (s.withArgs as).wrote ks := fun k _ => by
  simp [State.withArgs]

theorem forExpand_base0 (s : State) {d : Nat} (n : Nat) (vol : Word) (hd : d < 2 ^ 32) : (s.forExpand d n vol).base0 = d := by
  rw [State.base0, withArgs_arg]
  exact Nat.mod_eq_of_lt hd

theorem forExpand_count (s : State) (d : Nat) {n : Nat} (vol : Word) (hn : n < 2 ^ 32) : (s.forExpand d n vol).count = n := by
  rw [State.count, withArgs_arg]
  exact Nat.mod_eq_of_lt hn

theorem forExpand_volume (s : State) (d n : Nat) (vol : Word) : (s.forExpand d n vol).expandVolume = lowHalf vol := by
  rw [State.expandVolume, withArgs_arg]
  rfl

theorem forExpand_play (s : State) (v : BitVec 4) (ove : Bool) (d : Nat) {n : Nat} (vol : Word) (hn : n < 2 ^ 32) :
    (s.forExpand d n vol).expandPlay v ove = (s.voice v.toNat).play s.cfg s.mem n (lowHalf vol) ove := by
  rw [State.expandPlay, forExpand_count s d vol hn, forExpand_volume]
  rfl

/-- An EXPAND into frames at `d` passes its checks. -/
theorem expandable_forExpand_iff {v : BitVec 4} {s : State} {d n : Nat} {vol : Word} (hd : d < 2 ^ 32) (hn : n < 2 ^ 32) :
    Expandable v (s.forExpand d n vol) ↔ vol.toNat < 2 ^ 16 ∧ v.toNat < s.cfg.raw.nVoices ∧ (s.voice v.toNat).bound = true ∧
      d % 4 = 0 ∧ (Region.mk d (8 * n)).inRange s.cfg.raw.memSize = true ∧
      (Region.mk d (8 * n)).overlaps (s.voice v.toNat).stream = false ∧
      (s.voice v.toNat).stream.inRange s.cfg.raw.memSize = true := by
  rw [Expandable, State.expandFrames, forExpand_base0 s n vol hd, forExpand_count s d vol hn, withArgs_arg]
  exact and_iff_right (withArgs_wrote _ _ _)

theorem Region.inRange_of_sub {m : Nat} {r q : Region} (hr : r.inRange m = true) (h1 : r.base ≤ q.base)
    (h2 : q.base + q.len ≤ r.base + r.len) : q.inRange m = true := by
  rw [inRange_iff] at hr ⊢
  omega

theorem Region.disjoint_of_sub {r q x : Region} (hr : r.overlaps x = false) (h1 : r.base ≤ q.base)
    (h2 : q.base + q.len ≤ r.base + r.len) : q.overlaps x = false := by
  rw [overlaps_eq_false] at hr ⊢
  omega

/-- The first of two pieces passes its checks where EXPAND of both does. -/
theorem Expandable.piece {v : BitVec 4} {s : State} {d n k : Nat} {vol : Word} (hd : d < 2 ^ 32) (hn : n + k < 2 ^ 32)
    (h : Expandable v (s.forExpand d (n + k) vol)) : Expandable v (s.forExpand d n vol) := by
  rw [expandable_forExpand_iff hd hn] at h
  rw [expandable_forExpand_iff hd (by omega)]
  obtain ⟨hvol, hv, hbound, halign, hrange, hdisjoint, hstream⟩ := h
  have hsub : d + 8 * n ≤ d + 8 * (n + k) := by omega
  exact ⟨hvol, hv, hbound, halign, Region.inRange_of_sub hrange le_rfl hsub, Region.disjoint_of_sub hdisjoint le_rfl hsub,
    hstream⟩

/-- The second of two pieces passes its checks, on the voice as the first leaves it, and its frames need no wrap. -/
theorem Expandable.rest {v : BitVec 4} {s t : State} {d n k : Nat} {vol : Word} (hd : d < 2 ^ 32) (hn : n + k < 2 ^ 32)
    (h : Expandable v (s.forExpand d (n + k) vol)) (hcfg : t.cfg = s.cfg)
    (hb : SameBinding (s.voice v.toNat) (t.voice v.toNat)) :
    d + 8 * n < 2 ^ 32 ∧ Expandable v (t.forExpand (d + 8 * n) k vol) := by
  obtain ⟨hvol, hv, hbound, halign, hrange, hdisjoint, hstream⟩ := (expandable_forExpand_iff hd hn).1 h
  have hd' : d + 8 * n < 2 ^ 32 := by
    have hmem := s.cfg.memSize_bounds
    have hend := Region.inRange_iff.1 hrange
    dsimp only at hend
    omega
  have hsame : (t.voice v.toNat).stream = (s.voice v.toNat).stream := by rw [Voice.stream, hb.base, hb.size]; rfl
  have hbase : d ≤ d + 8 * n := by omega
  have hsub : d + 8 * n + 8 * k ≤ d + 8 * (n + k) := by omega
  rw [expandable_forExpand_iff hd' (by omega), hcfg, hb.bound, hsame]
  exact ⟨hd', hvol, hv, hbound, by omega, Region.inRange_of_sub hrange hbase hsub, Region.disjoint_of_sub hdisjoint hbase hsub,
    hstream⟩

/-- `exec_expand_quiet` for these arguments; the stream is as it was. -/
theorem exec_forExpand_quiet {v : BitVec 4} (add ove : Bool) {s : State} {d n : Nat} {vol : Word} (hd : d < 2 ^ 32)
    (hn : n < 2 ^ 32) (h : Expandable v (s.forExpand d n vol)) (hinv : VoiceInv s.cfg (s.voice v.toNat)) (hq : s.quiet) :
    ∃ t, exec (.expand v add ove) (s.forExpand d n vol) = .next t ∧ t.cfg = s.cfg ∧ t.quiet ∧
      t.voice v.toNat = ((s.voice v.toNat).play s.cfg s.mem n (lowHalf vol) ove).2 ∧
      t.mem = emitAll add d 0 ((s.voice v.toNat).play s.cfg s.mem n (lowHalf vol) ove).1 s.mem ∧
      ∀ k < (s.voice v.toNat).size.toNat,
        t.mem.peek ((s.voice v.toNat).base.toNat + k) = s.mem.peek ((s.voice v.toNat).base.toNat + k) := by
  obtain ⟨t, ht, hcfg, htq, htv, htm⟩ := exec_expand_quiet add ove h hinv hq
  rw [forExpand_play s v ove d vol hn] at htv htm
  rw [forExpand_base0 s n vol hd] at htm
  obtain ⟨-, -, -, -, -, hdisjoint, -⟩ := (expandable_forExpand_iff hd hn).1 h
  exact ⟨t, ht, hcfg, htq, htv, htm, fun k hk => stream_peek add hdisjoint htm (by rw [play_length]; omega) hk⟩

theorem ExpandRun.unique {v : BitVec 4} {add ove : Bool} {vol : Word} {s u u' : State} {d : Nat} {ns : List Nat}
    (h : ExpandRun v add ove vol s d ns u) (h' : ExpandRun v add ove vol s d ns u') : u = u' := by
  induction h with
  | nil s d =>
    cases h'
    rfl
  | cons first _ ih =>
    cases h' with
    | cons first' rest' =>
      obtain rfl := Host.Outcome.next.inj (first.symm.trans first')
      exact ih rest'

theorem lowHalf_le (w : Word) : lowHalf w ≤ 65535 := by
  unfold lowHalf
  omega

/-- Two pieces emitted one after the other are one, when the first is whole or the second is empty. -/
theorem emitAll_pieces (add : Bool) (d n : Nat) {os us : List Int} (p : MemPort) (h : os.length = n ∨ us = []) :
    emitAll add (d + 8 * n) 0 us (emitAll add d 0 os p) = emitAll add d 0 (os ++ us) p := by
  obtain rfl | rfl := h
  · rw [emitAll_shift, emitAll_append, Nat.zero_add]
  · rw [List.append_nil]
    rfl

/-- Without races a run of EXPANDs plays its voice in pieces and emits them in a row (43_expander.md R106). -/
theorem exists_expandRun {v : BitVec 4} (add ove : Bool) {vol : Word} (ns : List Nat) {s : State} {d : Nat} (hq : s.quiet)
    (hinv : VoiceInv s.cfg (s.voice v.toNat)) (hd : d < 2 ^ 32) (hn : ns.sum < 2 ^ 32)
    (h : Expandable v (s.forExpand d ns.sum vol)) :
    ∃ u, ExpandRun v add ove vol s d ns u ∧
      u.voice v.toNat = ((s.voice v.toNat).playPieces s.cfg s.mem (lowHalf vol) ove ns).2 ∧
      u.mem = emitAll add d 0 ((s.voice v.toNat).playPieces s.cfg s.mem (lowHalf vol) ove ns).1 s.mem := by
  induction ns generalizing s d with
  | nil => exact ⟨s, .nil s d, rfl, rfl⟩
  | cons n ns ih =>
    rw [List.sum_cons] at hn h
    obtain ⟨t, ht, htcfg, htq, htv, htm, hstream⟩ :=
      exec_forExpand_quiet add ove hd (by omega) (h.piece hd hn) hinv hq
    have hbinding : SameBinding (s.voice v.toNat) (t.voice v.toNat) := htv ▸ play_binding n _ ove
    have hplayed : VoiceInv s.cfg (t.voice v.toNat) := htv ▸ play_inv hinv (lowHalf_le vol) hq.1
    obtain ⟨hd', hrest⟩ := h.rest hd hn htcfg hbinding
    obtain ⟨u, hu, huv, hum⟩ := ih htq (htcfg ▸ hplayed) hd' (by omega) hrest
    rw [← hbinding.base, ← hbinding.size] at hstream
    rw [htcfg, playPieces_congr hplayed ove (lowHalf_le vol) hq.1 hstream, htv] at huv hum
    have hlen := playPieces_length hplayed ove (lowHalf_le vol) hq.1 ns
    rw [htv, play_left hinv] at hlen
    refine ⟨u, .cons ht hu, huv, ?_⟩
    rw [hum, htm, Voice.playPieces]
    refine emitAll_pieces add d n s.mem ?_
    rw [play_length, ← List.length_eq_zero_iff, hlen]
    omega

/-- Settles O58: a run of EXPANDs plays its voice in pieces, which are one play of their sum. -/
theorem chunkEquivalence : Obligations.ChunkEquivalence := by
  intro v add vol s u w d ns whole hq hinv hd h hsum hrun hw hne
  have hn : ns.sum < 2 ^ 32 := by
    have := (s.voice v.toNat).total.isLt
    omega
  obtain ⟨_, hrun', huv, hum⟩ := exists_expandRun add false ns hq hinv hd hn h
  obtain rfl := hrun.unique hrun'
  obtain ⟨_, hw', -, -, hwv, hwm, -⟩ := exec_forExpand_quiet add false hd hn h hinv hq
  obtain rfl := Host.Outcome.next.inj (hw.symm.trans hw')
  rw [playPieces_eq_play hinv (lowHalf_le vol) hq.1 hne hsum] at huv hum
  exact ⟨huv.trans hwv.symm, fun a => congrArg (·.peek a) (hum.trans hwm.symm)⟩

/-! ### Passes of equal voices (43_expander.md R108) -/

/-- A frame word holds its four bytes. -/
theorem peek_of_frameWord_eq {p q : MemPort} {a : Nat} (h : frameWord p a = frameWord q a) {i : Nat} (hi : i < 4) :
    p.peek (a + i) = q.peek (a + i) := by
  have hwords := congrArg BitVec.toNat (BitVec.eq_of_toInt_eq h)
  simp only [word32At, byte_append_toNat] at hwords
  have hp0 := (p.peek a).isLt
  have hp1 := (p.peek (a + 1)).isLt
  have hp2 := (p.peek (a + 2)).isLt
  have hq0 := (q.peek a).isLt
  have hq1 := (q.peek (a + 1)).isLt
  have hq2 := (q.peek (a + 2)).isLt
  apply BitVec.eq_of_toNat_eq
  obtain rfl | hpos := Nat.eq_zero_or_pos i
  · rw [Nat.add_zero]
    omega
  · interval_cases i <;> omega

/-- The same values mixed into two buffers leave the same frames, if with ADD the frames were the same before. -/
theorem FramesMixed.peek_eq {add : Bool} {p q p' q' : MemPort} {d : Nat} {outs : List Int} (hp : FramesMixed add p p' d outs)
    (hq : FramesMixed add q q' d outs)
    (hadd : add = true → ∀ a, d ≤ a → a < d + 8 * outs.length → p.peek a = q.peek a) {a : Nat} (h1 : d ≤ a)
    (h2 : a < d + 8 * outs.length) : p'.peek a = q'.peek a := by
  have hmixed : ∀ o x, x + 4 ≤ 8 * outs.length →
      mixed add (frameWord p (d + x)) o = mixed add (frameWord q (d + x)) o := by
    intro o x hx
    cases add with
    | false => simp [mixed]
    | true => rw [frameWord_congr fun i hi => hadd rfl (d + x + i) (by omega) (by omega)]
  have hk : (a - d) / 8 < outs.length := by omega
  obtain ⟨hpl, hpr⟩ := hp _ hk
  obtain ⟨hql, hqr⟩ := hq _ hk
  rcases Nat.lt_or_ge ((a - d) % 8) 4 with hw | hw
  · have hword := (hpl.trans (hmixed _ _ (by omega))).trans hql.symm
    have hbyte := peek_of_frameWord_eq hword hw
    rwa [show d + 8 * ((a - d) / 8) + (a - d) % 8 = a by omega] at hbyte
  · rw [Nat.add_assoc] at hpr hqr
    have hword := (hpr.trans (hmixed _ _ (by omega))).trans hqr.symm
    have hbyte := peek_of_frameWord_eq (i := (a - d) % 8 - 4) hword (by omega)
    rwa [show d + (8 * ((a - d) / 8) + 4) + ((a - d) % 8 - 4) = a by omega] at hbyte

theorem playPieces_bounds {cfg : Config} {m : MemPort} (vol : Nat) (ove : Bool) (ns : List Nat) (v : Voice) :
    ∀ o ∈ (v.playPieces cfg m vol ove ns).1, -2147483648 ≤ o ∧ o ≤ 2147483647 := by
  induction ns generalizing v with
  | nil => exact fun o ho => absurd ho List.not_mem_nil
  | cons n ns ih =>
    intro o ho
    obtain ho | ho := List.mem_append.1 ho
    · exact play_bounds n vol ove o ho
    · exact ih _ o ho

/-- Equal voices over the same stream give the same passes: both are played in the same pieces. -/
theorem samePasses_of_voice_eq {v : BitVec 4} {s t : State} (hs : s.quiet) (ht : t.quiet) (hcfg : t.cfg = s.cfg)
    (hinv : VoiceInv s.cfg (s.voice v.toNat)) (hvoice : t.voice v.toNat = s.voice v.toNat)
    (hstream : ∀ k < (s.voice v.toNat).size.toNat,
      t.mem.peek ((s.voice v.toNat).base.toNat + k) = s.mem.peek ((s.voice v.toNat).base.toNat + k)) : SamePasses v s t := by
  intro add ove vol d ns h hd hn hadd
  have ht' : Expandable v (t.forExpand d ns.sum vol) := by
    rw [expandable_forExpand_iff hd hn] at h ⊢
    rwa [hcfg, hvoice]
  obtain ⟨s', hrun, hsv, hsm⟩ := exists_expandRun add ove ns hs hinv hd hn h
  obtain ⟨t', hrun', htv, htm⟩ := exists_expandRun add ove ns ht (by rwa [hcfg, hvoice]) hd hn ht'
  rw [hcfg, hvoice, playPieces_congr hinv ove (lowHalf_le vol) hs.1 hstream] at htv htm
  refine ⟨s', t', hrun, hrun', hsv.trans htv.symm, fun a h1 h2 => ?_⟩
  have hlen := playPieces_length hinv ove (lowHalf_le vol) hs.1 ns
  have hbounds := playPieces_bounds (cfg := s.cfg) (m := s.mem) (lowHalf vol) ove ns (s.voice v.toNat)
  have hsmixed := emitAll_framesMixed hs.2 hs.1 add d hbounds
  have htmixed := emitAll_framesMixed ht.2 ht.1 add d hbounds
  rw [← hsm] at hsmixed
  rw [← htm] at htmixed
  rw [← hlen] at h2
  exact hsmixed.peek_eq htmixed (fun ha b hb1 hb2 => hadd ha b hb1 (by omega)) h1 h2

/-! ### REWIND and BIND -/

theorem VoiceInv.bindable {v : BitVec 4} {s : State} {x : Voice} (h : VoiceInv s.cfg x) (hv : v.toNat < s.cfg.raw.nVoices)
    (hbase : s.arg 0 = x.base) (hsize : s.arg 1 = x.size) (hw : s.wrote [0, 1]) :
    Bindable v x.table x.pred x.is8 x.odd s := by
  have hstream := h.stream
  rw [Bindable, State.count, State.base0, hbase, hsize]
  refine ⟨hw, fun ⟨h8, ho⟩ => ?_, fun ho => (h.odd ho).2, hv, h.table, h.pred, hstream⟩
  exact absurd ((h.odd ho).1.symm.trans h8) nofun

/-- A voice rewound is the voice bound afresh, but for the volume (43_expander.md R107). -/
theorem rewound_eq_boundVoice {cfg : Config} {x : Voice} (h : VoiceInv cfg x) (hb : x.bound = true) :
    x.rewound cfg = { boundVoice cfg x.table x.pred x.is8 x.odd x.base x.size with
      p := { (boundVoice cfg x.table x.pred x.is8 x.odd x.base x.size).p with volsh := x.p.volsh, voltgt := x.p.voltgt } } := by
  have htotal : x.total = BitVec.ofNat 32 (streamTotal x.is8 x.odd x.size.toNat) := by
    rw [← h.total, BitVec.ofNat_toNat, BitVec.setWidth_eq]
  simp only [Voice.rewound, boundVoice, ← htotal, hb]
  rfl

theorem Voice.stream_has {v : Voice} {k : Nat} (hk : k < v.size.toNat) : v.stream.has (v.base.toNat + k) = true :=
  Region.has_mk.2 (by omega)

/-- A volume that has settled at a target is the one VolSet with OVE = 1 gives (41_datapath.md R89). -/
theorem volSet_settled (p : Predictor) {vol : Word} {volsh : BitVec 24}
    (h : volsh.toNat = vol.toNat * 256) : p.volSet (lowHalf vol) true = { p with volsh := volsh, voltgt := volsh } := by
  have htarget : BitVec.ofNat 24 (lowHalf vol <<< vshift) = volsh := by
    apply BitVec.eq_of_toNat_eq
    rw [BitVec.toNat_ofNat, h, lowHalf, vshift, Nat.shiftLeft_eq]
    omega
  simp only [Predictor.volSet, htarget, if_true]

/-- An EXPAND of no sample with OVE = 1 sets its voice's volume and leaves MEM (43_expander.md R108). -/
theorem exec_expand_zero {v : BitVec 4} {s : State} {d vol : Word} (hq : s.quiet) (hinv : VoiceInv s.cfg (s.voice v.toNat))
    (hv : v.toNat < s.cfg.raw.nVoices) (hb : (s.voice v.toNat).bound = true) (hvol : vol.toNat < 2 ^ 16)
    (hd : d.toNat % 4 = 0) :
    ∃ w, exec (.expand v false true) (s.withArgs [d, 0, vol]) = .next w ∧ w.cfg = s.cfg ∧ w.quiet ∧
      w.voice v.toNat = { s.voice v.toNat with p := (s.voice v.toNat).p.volSet (lowHalf vol) true } ∧ w.mem = s.mem := by
  have hargs : s.withArgs [d, 0, vol] = s.forExpand d.toNat 0 vol := by simp [State.forExpand]
  have h : Expandable v (s.forExpand d.toNat 0 vol) := by
    rw [expandable_forExpand_iff d.isLt (by decide)]
    exact ⟨hvol, hv, hb, hd, rfl, rfl, hinv.stream⟩
  obtain ⟨w, hw, hcfg, hwq, hwv, hwm, -⟩ := exec_forExpand_quiet false true d.isLt (by decide) h hinv hq
  rw [play_zero hinv] at hwv hwm
  rw [hargs]
  exact ⟨w, hw, hcfg, hwq, hwv, hwm⟩

/-- REWIND rewinds its voice and leaves MEM. -/
theorem exists_exec_rewind {v : BitVec 4} {s : State} (h : Rewindable v s) :
    ∃ t, exec (.rewind v) s = .next t ∧ t.cfg = s.cfg ∧ t.voice v.toNat = (s.voice v.toNat).rewound s.cfg ∧
      (s.quiet → t.quiet) ∧ MemUnchanged s t :=
  ⟨_, exec_rewind h, rfl, rewindEffect_voice h, fun hq => ⟨rfl, hq.2⟩, fun _ => rfl⟩

/-- BIND binds its voice and leaves MEM. -/
theorem exists_exec_bind {v t : BitVec 4} {p : BitVec 2} {is8 odd : Bool} {s : State} (h : Bindable v t p is8 odd s) :
    ∃ u, exec (.bind v t p is8 odd) s = .next u ∧ u.cfg = s.cfg ∧
      u.voice v.toNat = boundVoice s.cfg t p is8 odd (s.arg 0) (s.arg 1) ∧ (s.quiet → u.quiet) ∧ MemUnchanged s u :=
  ⟨_, exec_bind h, rfl, bindEffect_voice h, fun hq => ⟨rfl, hq.2⟩, fun _ => rfl⟩

/-- Settles O60: the rewound voice is the fresh one but for its volume; where the volumes agree, both play alike. -/
theorem rewindIsRebind : Obligations.RewindIsRebind := by
  intro v s b h hinv x hcfg hbase hsize hw
  have hbind : Bindable v x.table x.pred x.is8 x.odd b :=
    VoiceInv.bindable (hcfg ▸ hinv) (hcfg ▸ h.1) hbase hsize hw
  have hfresh := boundVoice_inv hbind
  obtain ⟨t, ht, htcfg, htv, htq, htm⟩ := exists_exec_rewind h
  obtain ⟨u, hu, hucfg, huv, huq, hum⟩ := exists_exec_bind hbind
  rw [hbase, hsize, hcfg] at huv hfresh
  rw [hcfg] at hucfg
  have hrewound : t.voice v.toNat = { u.voice v.toNat with
      p := { (u.voice v.toNat).p with volsh := x.p.volsh, voltgt := x.p.voltgt } } := by
    rw [htv, huv]
    exact rewound_eq_boundVoice hinv h.2
  have hunity : x.p.volsh = 0x10000 → x.p.voltgt = 0x10000 → t.voice v.toNat = u.voice v.toNat := fun h1 h2 => by
    rw [hrewound, h1, h2, huv]
    rfl
  refine ⟨t, u, ht, hu, hrewound, hunity, fun hs hb hstream => ?_⟩
  have htinv : VoiceInv t.cfg (t.voice v.toNat) := by
    rw [htcfg, htv]
    exact rewound_inv hinv
  have hsame : ∀ k < (t.voice v.toNat).size.toNat,
      u.mem.peek ((t.voice v.toNat).base.toNat + k) = t.mem.peek ((t.voice v.toNat).base.toNat + k) := by
    rw [htv]
    exact fun k hk => (hum _).trans ((hstream _ (Voice.stream_has hk)).symm.trans (htm _).symm)
  refine ⟨fun h1 h2 => samePasses_of_voice_eq (htq hs) (huq hb) (hucfg.trans htcfg.symm) htinv (hunity h1 h2).symm hsame,
    fun vol d hvol hd hvolsh hvoltgt => ?_⟩
  obtain ⟨w, hw, hwcfg, hwq, hwv, hwm⟩ := exec_expand_zero (s := u) (d := d) (vol := vol) (huq hb) (by rwa [hucfg, huv])
    (hucfg ▸ h.1) (by rw [huv]; rfl) hvol hd
  have hvoice : w.voice v.toNat = t.voice v.toNat := by rw [hwv, volSet_settled _ hvolsh, hrewound, hvoltgt]
  exact ⟨w, hw, hvoice, samePasses_of_voice_eq (htq hs) hwq (hwcfg.trans (hucfg.trans htcfg.symm)) htinv hvoice (hwm ▸ hsame)⟩

end Sys2Proof.Machine

/-! Table selection (44_select.md R110..R112): SELECT is the encoding pass of the pair its trials choose, so its results are those
of ENC4 and ENC8 but for RES0. -/

namespace Sys2Proof.Machine

/-! ### The pairs tried -/

/-- Settles O49: the filters keep the order of the two ranges, tables outside and predictors inside. -/
theorem selectTriesTheMasks : Obligations.SelectTriesTheMasks := by
  intro tmask pmask
  refine ⟨fun t p => candidatePairs_mem, List.pairwise_flatMap.2 ⟨fun t _ => ?_, ?_⟩⟩
  · rw [List.pairwise_map]
    exact (List.pairwise_lt_range.filter _).imp fun hlt => .inr ⟨rfl, hlt⟩
  · refine (List.pairwise_lt_range.filter _).imp fun hlt a ha b hb => .inl ?_
    obtain ⟨_, -, rfl⟩ := List.mem_map.1 ha
    obtain ⟨_, -, rfl⟩ := List.mem_map.1 hb
    exact hlt

/-! ### The effect of SELECT -/

/-- What SELECT leaves of `s` before it completes: the winner's results, and MEM after its encoding (44_select.md R110). -/
def State.selected (s : State) (w : Candidate) (port : MemPort) : State :=
  ({ s with mem := port }.setRes 0 (BitVec.ofNat 32 (w.t + 256 * w.p))).setError w.sse s.count

theorem selectEffect_eq (is8 : Bool) (s : State) : selectEffect is8 s = s.selected (bestPair s is8).1
    (encodeRun is8 s.cfg (bestPair s is8).1.t (bestPair s is8).1.p s.srcBase s.count s.dstBase (bestPair s is8).2).port := by
  cases is8 <;> rfl

theorem exec_select {is8 : Bool} {s : State} (h : Selectable is8 s) :
    exec (.select is8) s = .next (selectEffect is8 s).complete := plainCommand_pass (validate_selectChecks.2 h)

theorem selectEffect_voices (is8 : Bool) (s : State) : (selectEffect is8 s).voices = s.voices := by
  simp [selectEffect_eq, State.selected, State.setError]

theorem selectEffect_wbuf (is8 : Bool) (s : State) : (selectEffect is8 s).wbuf = s.wbuf := by
  simp [selectEffect_eq, State.selected, State.setError]

theorem selected_res0 (s : State) {t p : Nat} (sse : Nat) (port : MemPort) (ht : t < 16) (hp : p < 4) :
    (s.selected ⟨t, p, sse⟩ port).complete.res[0].toNat = t + 256 * p := by
  have hlt : t + 256 * p < 4294967296 := by omega
  simpa [State.selected, State.setError] using hlt

/-- RES1..RES3 are those an encoding command leaves after the same pass (44_select.md R112). -/
theorem selected_errorRes (s : State) (is8 : Bool) (t p : Nat) (r : EncRun) :
    let u := (s.selected ⟨t, p, r.sse⟩ r.port).complete
    let w := (s.encoded is8 r).complete
    u.res[1] = w.res[1] ∧ u.res[2] = w.res[2] ∧ u.res[3] = w.res[3] := by
  simp [State.selected, State.encoded, State.setError]

/-! ### SELECT without races -/

/-- A pair SELECT tries is a pair of the configuration. -/
theorem Selectable.pair_lt {is8 : Bool} {s : State} (h : Selectable is8 s) {t p : Nat}
    (hm : (t, p) ∈ candidatePairs (s.arg 3) (s.arg 4)) : t < s.cfg.nTables ∧ p < s.cfg.nPred := by
  obtain ⟨-, -, -, -, -, ht, hp, -⟩ := h
  obtain ⟨⟨-, htbit⟩, -, hpbit⟩ := candidatePairs_mem.1 hm
  exact ⟨lt_of_mask ht htbit, lt_of_mask hp hpbit⟩

/-- Without races SELECT encodes the first least pair from MEM as it was, and the trial's error is the encoding's (R112). -/
theorem selectEffect_quiet {is8 : Bool} {s : State} (h : Selectable is8 s) (hs : s.quiet) :
    ∃ t p, FirstLeast (fun tp => encodedSSE s.cfg is8 tp.1 tp.2 (samplesAt s.mem s.srcBase s.count))
        (candidatePairs (s.arg 3) (s.arg 4)) (t, p) ∧
      let r := encodeRun is8 s.cfg t p s.srcBase s.count s.dstBase s.mem
      selectEffect is8 s = s.selected ⟨t, p, r.sse⟩ r.port := by
  obtain ⟨hq, hw⟩ := hs
  obtain ⟨-, ht16, hp4, ht0, hp0, htn, -, -, -, -, hdisjoint⟩ := h
  obtain ⟨hport, hsse, hleast⟩ := bestPair_spec s is8 hq ht0 hp0 ht16 hp4 htn
  have hrun := (encodeRun_spec is8 s.cfg (bestPair s is8).1.t (bestPair s is8).1.p _ _ _ hw hq hdisjoint).2
  refine ⟨_, _, hleast, ?_⟩
  rw [selectEffect_eq, hport]
  simp only [hrun, ← hsse]

/-- The error sum of an encoding of samples fits its registers (41_datapath.md R88). -/
theorem encodedSSE_samplesAt_le (cfg : Config) (is8 : Bool) {t : Nat} (pred : Nat) (m : MemPort) (a n : Nat)
    (ht : t < cfg.nTables) : encodedSSE cfg is8 t pred (samplesAt m a n) ≤ n * 65535 ^ 2 := by
  have hrecs := encodedRecs_bounds (is8 := is8) (pred := pred) (values := samplesAt m a n) ht
  simpa only [encodedSSE, samplesAt_length] using sseOf_le samplesAt_bounds hrecs

/-! ### The statements -/

/-- Settles O48: the frame is the effect's; without races the results are those of the first least pair's encoding pass. -/
theorem selectResult : Obligations.SelectResult := by
  intro is8 s h
  have heff := effect_select is8 s
  refine ⟨_, exec_select h, heff.completed, selectEffect_voices is8 s, selectEffect_wbuf is8 s,
    fun a ha => heff.peek (by simpa [bytesWrittenBy] using ha), ?_⟩
  intro hs values
  obtain ⟨t, p, hleast, heq⟩ := selectEffect_quiet h hs
  obtain ⟨⟨ht, -⟩, hp, -⟩ := candidatePairs_mem.1 hleast.mem
  have hle := encodedSSE_samplesAt_le s.cfg is8 p s.mem s.srcBase s.count (h.pair_lt hleast.mem).1
  obtain ⟨hq, hw⟩ := hs
  obtain ⟨-, -, -, -, -, -, -, -, -, -, hdisjoint⟩ := h
  obtain ⟨hbytes, hsse⟩ := encodeRun_spec is8 s.cfg t p s.srcBase s.count s.dstBase hw hq hdisjoint
  rw [heq]
  refine ⟨t, p, hleast, ht, hp, selected_res0 s _ _ ht hp, ?_, hbytes, (encodeRun_within ..).quiet hq⟩
  simp only [hsse]
  exact errorResults_complete (errorResults_setError _ s.count_lt hle)

/-- The masks of one table and one predictor leave one pair to try. -/
theorem eq_of_mem_candidatePairs_single {t : BitVec 4} {p : BitVec 2} {a b : Nat}
    (h : (a, b) ∈ candidatePairs (BitVec.ofNat 32 (2 ^ t.toNat)) (BitVec.ofNat 32 (2 ^ p.toNat))) :
    a = t.toNat ∧ b = p.toNat := by
  obtain ⟨⟨-, ha⟩, -, hb⟩ := candidatePairs_mem.1 h
  simp only [BitVec.getLsbD_ofNat, Nat.testBit_two_pow, Bool.and_eq_true, decide_eq_true_eq] at ha hb
  exact ⟨ha.2.symm, hb.2.symm⟩

/-- Settles O50: the winner is the one pair tried, and SELECT's encoding pass is the command's. -/
theorem selectOfOnePairIsEncode : Obligations.SelectOfOnePairIsEncode := by
  intro is8 t p s h hs ht hp
  obtain ⟨t', p', hleast, heq⟩ := selectEffect_quiet h hs
  have hmem := hleast.mem
  have hlt := h.pair_lt hmem
  rw [ht, hp] at hmem
  obtain ⟨rfl, rfl⟩ := eq_of_mem_candidatePairs_single hmem
  have henc : CanEncode is8 t p s := by
    obtain ⟨hwrote, -, -, -, -, -, -, halign, hsrc, hdst, hdisjoint⟩ := h
    exact ⟨fun k hk => hwrote k (List.mem_append_left [3, 4] hk), hlt.1, hlt.2, halign, hsrc, hdst, hdisjoint⟩
  refine ⟨_, _, exec_select h, exec_enc henc, ?_⟩
  obtain ⟨hres1, hres2, hres3⟩ := selected_errorRes s is8 t.toNat p.toNat
    (encodeRun is8 s.cfg t.toNat p.toNat s.srcBase s.count s.dstBase s.mem)
  rw [heq]
  exact ⟨rfl, hres1, hres2, hres3, selected_res0 s _ _ t.isLt p.isLt⟩

end Sys2Proof.Machine

/-! The lookups (45_manifest.md R113..R119): without races the scans find the record the name search names, and the results are
read from it; whatever a racing read returns, a lookup completes and leaves voices and MEM. -/

namespace Sys2Proof.Machine

/-! ### The scans without races -/

theorem isDir.unique {cfg : Config} {m : MemPort} {i : Nat} {name : List Byte} {j k : Nat} (hj : isDir cfg m i name j)
    (hk : isDir cfg m i name k) : j = k := by
  obtain ⟨-, -, hjname, hjfirst⟩ := hj
  obtain ⟨-, -, hkname, hkfirst⟩ := hk
  exact le_antisymm (not_lt.1 fun hlt => hjfirst k hlt hkname) (not_lt.1 fun hlt => hkfirst j hlt hjname)

theorem isFile.unique {cfg : Config} {m : MemPort} {i first count : Nat} {name : List Byte} {j k : Nat}
    (hj : isFile cfg m i first count name j) (hk : isFile cfg m i first count name k) : j = k := by
  obtain ⟨hjfrom, -, hjname, hjfirst⟩ := hj
  obtain ⟨hkfrom, -, hkname, hkfirst⟩ := hk
  exact le_antisymm (not_lt.1 fun hlt => hjfirst k hkfrom hlt hkname) (not_lt.1 fun hlt => hkfirst j hjfrom hlt hjname)

section Scans
variable {cfg : Config} {m : MemPort} {i first count : Nat} {name : List Byte} {k : Nat} (hq : m.races = [])
include hq

theorem dirScan_of_isDir (h : isDir cfg m i name k) : dirScan i name cfg.raw.numDir 0 m = (some k, m) := by
  obtain ⟨_ | j, hscan, hr⟩ := dirScan_spec cfg i name hq cfg.raw.numDir 0 (Nat.zero_add _) nofun nofun
  · exact absurd h (hr k)
  · rw [hscan, isDir.unique hr h]

theorem dirScan_of_forall_not_isDir (h : ∀ k, ¬ isDir cfg m i name k) :
    dirScan i name cfg.raw.numDir 0 m = (none, m) := by
  obtain ⟨_ | j, hscan, hr⟩ := dirScan_spec cfg i name hq cfg.raw.numDir 0 (Nat.zero_add _) nofun nofun
  · exact hscan
  · exact absurd hr (h j)

theorem fileScan_of_isFile (h : isFile cfg m i first count name k) :
    fileScan cfg i name count first m = (some k, m) := by
  obtain ⟨_ | j, hscan, hr⟩ := fileScan_spec cfg i name hq first count count first rfl le_rfl fun _ _ _ => by omega
  · exact absurd h (hr k)
  · rw [hscan, isFile.unique hr h]

theorem fileScan_of_forall_not_isFile (h : ∀ k, ¬ isFile cfg m i first count name k) :
    fileScan cfg i name count first m = (none, m) := by
  obtain ⟨_ | j, hscan, hr⟩ := fileScan_spec cfg i name hq first count count first rfl le_rfl fun _ _ _ => by omega
  · exact hscan
  · exact absurd hr (h j)

end Scans

/-! ### The effects without races -/

/-- The results of a LOOKUP_FILE that finds nothing (R119). -/
def State.fileNotFound (s : State) : State := (s.setRes012 notFound 0 0).setRes 3 0

/-- The results of a LOOKUP_FILE that finds file record j (R119). -/
def State.fileFound (s : State) (j : Nat) : State :=
  let off := word32At s.mem (fileRecord s.cfg s.base0 j + 8)
  (s.setRes012 (BitVec.ofNat 32 j) off (word32At s.mem (fileRecord s.cfg s.base0 j + 12))).setRes 3
    (BitVec.ofNat 32 (s.base0 + s.cfg.raw.heapOffset + off.toNat))

section Effects
variable {s : State} {j k : Nat} (hq : s.mem.races = [])
include hq

theorem lookupDirEffect_notFound (h : ∀ k, ¬ isDir s.cfg s.mem s.base0 (s.name 1 2) k) :
    lookupDirEffect s = (none, s.setRes012 notFound 0 0) := by
  simp only [lookupDirEffect, dirScan_of_forall_not_isDir hq h]

theorem lookupFileEffect_dirNotFound (h : ∀ k, ¬ isDir s.cfg s.mem s.base0 (s.name 1 2) k) :
    lookupFileEffect s = (none, s.fileNotFound) := by
  simp only [lookupFileEffect, dirScan_of_forall_not_isDir hq h, State.fileNotFound]

variable (hdir : isDir s.cfg s.mem s.base0 (s.name 1 2) k)
include hdir

theorem lookupDirEffect_image (hbad : s.cfg.raw.numFiles < dirFirst s.mem s.base0 k + dirCount s.mem s.base0 k) :
    lookupDirEffect s = (some .image, s) := by
  simp only [lookupDirEffect, dirScan_of_isDir hq hdir, dirRun_quiet hq, gt_iff_lt, if_pos hbad]

theorem lookupFileEffect_image (hbad : s.cfg.raw.numFiles < dirFirst s.mem s.base0 k + dirCount s.mem s.base0 k) :
    lookupFileEffect s = (some .image, s) := by
  simp only [lookupFileEffect, dirScan_of_isDir hq hdir, dirRun_quiet hq, gt_iff_lt, if_pos hbad]

variable (hfits : dirFirst s.mem s.base0 k + dirCount s.mem s.base0 k ≤ s.cfg.raw.numFiles)
include hfits

theorem lookupDirEffect_found : lookupDirEffect s = (none, s.setRes012 (BitVec.ofNat 32 k)
    (BitVec.ofNat 32 (dirFirst s.mem s.base0 k)) (BitVec.ofNat 32 (dirCount s.mem s.base0 k))) := by
  simp only [lookupDirEffect, dirScan_of_isDir hq hdir, dirRun_quiet hq, gt_iff_lt, if_neg (not_lt.2 hfits)]

theorem lookupFileEffect_fileNotFound (h : ∀ j, ¬ isFile s.cfg s.mem s.base0 (dirFirst s.mem s.base0 k)
    (dirCount s.mem s.base0 k) (s.name 3 4) j) : lookupFileEffect s = (none, s.fileNotFound) := by
  simp only [lookupFileEffect, dirScan_of_isDir hq hdir, dirRun_quiet hq, gt_iff_lt, if_neg (not_lt.2 hfits),
    fileScan_of_forall_not_isFile hq h, State.fileNotFound]

theorem lookupFileEffect_found (h : isFile s.cfg s.mem s.base0 (dirFirst s.mem s.base0 k) (dirCount s.mem s.base0 k)
    (s.name 3 4) j) : lookupFileEffect s = (none, s.fileFound j) := by
  simp only [lookupFileEffect, dirScan_of_isDir hq hdir, dirRun_quiet hq, gt_iff_lt, if_neg (not_lt.2 hfits),
    fileScan_of_isFile hq h, readLE4_quiet hq, BitVec.ofNat_toNat, BitVec.setWidth_eq, State.fileFound]

end Effects

/-! ### What a lookup leaves, whatever it reads -/

theorem lookupDirEffect_voices_wbuf (s : State) :
    (lookupDirEffect s).2.voices = s.voices ∧ (lookupDirEffect s).2.wbuf = s.wbuf := by
  simp only [lookupDirEffect]
  split
  · exact ⟨rfl, rfl⟩
  · split <;> exact ⟨rfl, rfl⟩

theorem lookupFileEffect_voices_wbuf (s : State) :
    (lookupFileEffect s).2.voices = s.voices ∧ (lookupFileEffect s).2.wbuf = s.wbuf := by
  simp only [lookupFileEffect]
  split
  · exact ⟨rfl, rfl⟩
  · split
    · exact ⟨rfl, rfl⟩
    · split <;> exact ⟨rfl, rfl⟩

/-- A command whose checks pass and which writes no byte is complete, and its registers are those its effect leaves. -/
theorem exec_noBytes {i : Instr} {s : State} (hpass : validate s.snapshot (checksOf i s) = .pass)
    (hbytes : bytesWrittenBy i s = []) :
    ∃ u, exec i s = .next u ∧ u.phase = .idle ∧ u.done = true ∧ u.voices = (effectOf i s).2.voices ∧
      u.wbuf = (effectOf i s).2.wbuf ∧ u.mem.cells = s.mem.cells ∧ u.res = (effectOf i s).2.res := by
  obtain ⟨heff, herr⟩ := effect_within i s
  have hcells : (effectOf i s).2.mem.cells = s.mem.cells := (heff.mem ⟨0, 0⟩ (by simp [hbytes])).empty rfl
  rw [exec_eq]
  obtain hnone | ⟨himage, -⟩ := herr
  · exact ⟨_, command_pass hpass (Prod.ext hnone rfl), rfl, rfl, rfl, rfl, hcells, rfl⟩
  · exact ⟨_, command_error hpass (Prod.ext himage rfl), rfl, rfl, rfl, rfl, hcells, rfl⟩

/-- A command whose checks pass and whose effect raises no error completes with what the effect leaves. -/
theorem exec_completed {i : Instr} {s s' : State} (hpass : validate s.snapshot (checksOf i s) = .pass)
    (he : effectOf i s = (none, s')) : exec i s = .next s'.complete ∧ Completed s s'.complete := by
  have heff := (effect_within i s).1
  rw [he] at heff
  exact ⟨(exec_eq i s).trans (command_pass hpass he), heff.completed⟩

theorem exec_image {i : Instr} {s : State} (hpass : validate s.snapshot (checksOf i s) = .pass)
    (he : effectOf i s = (some .image, s)) : exec i s = .next (s.raiseError .image) :=
  (exec_eq i s).trans (command_error hpass he)

/-! ### The results -/

theorem setRes012_res (s : State) (a b c : Word) :
    (s.setRes012 a b c).res[0] = a ∧ (s.setRes012 a b c).res[1] = b ∧ (s.setRes012 a b c).res[2] = c := by
  simp [State.setRes012]

theorem setRes012_setRes3_res (s : State) (a b c d : Word) :
    let u := (s.setRes012 a b c).setRes 3 d
    u.res[0] = a ∧ u.res[1] = b ∧ u.res[2] = c ∧ u.res[3] = d := by
  simp [State.setRes012]

theorem isDir.lt_word {cfg : Config} {m : MemPort} {i : Nat} {name : List Byte} {k : Nat} (h : isDir cfg m i name k) :
    k < 2 ^ 32 := by
  have := h.1
  have := cfg.image_bounds
  omega

/-- Settles O51: whether the scan finds a record and whether its run fits decide the effect, which `State.setRes012` describes. -/
theorem lookupDirResult : Obligations.LookupDirResult := by
  intro s h
  have hpass : validate s.snapshot (checksOf .lookupDir s) = .pass := validate_lookupChecks.2 h
  constructor
  · obtain ⟨u, hu, hidle, hdone, hvoices, hwbuf, hcells, hres⟩ := exec_noBytes hpass rfl
    obtain ⟨hv, hw⟩ := lookupDirEffect_voices_wbuf s
    have hres3 : (lookupDirEffect s).2.res[3] = s.res[3] := (effect_lookupDir s).1.res 3 (by decide)
    refine ⟨u, hu, hidle, hdone, hvoices.trans hv, hwbuf.trans hw, hcells, ?_⟩
    rw [hres]
    exact hres3
  rintro ⟨hq, -⟩
  refine ⟨fun k hdir => ⟨fun hfits => ?_, fun hbad => exec_image hpass (lookupDirEffect_image hq hdir hbad)⟩, fun hno => ?_⟩
  · obtain ⟨hexec, hcompleted⟩ := exec_completed hpass (lookupDirEffect_found hq hdir hfits)
    obtain ⟨h0, h1, h2⟩ := setRes012_res s (BitVec.ofNat 32 k) (BitVec.ofNat 32 (dirFirst s.mem s.base0 k))
      (BitVec.ofNat 32 (dirCount s.mem s.base0 k))
    have hnum := s.cfg.image_bounds
    refine ⟨_, hexec, hcompleted, ?_, ?_, ?_⟩
    · rw [State.complete_res, h0, BitVec.toNat_ofNat, Nat.mod_eq_of_lt hdir.lt_word]
    · rw [State.complete_res, h1, BitVec.toNat_ofNat, Nat.mod_eq_of_lt (by omega)]
    · rw [State.complete_res, h2, BitVec.toNat_ofNat, Nat.mod_eq_of_lt (by omega)]
  · obtain ⟨hexec, hcompleted⟩ := exec_completed hpass (lookupDirEffect_notFound hq hno)
    exact ⟨_, hexec, hcompleted, setRes012_res s notFound 0 0⟩

/-- Settles O52: as O51, and the search of the run decides between the two results of a directory found. -/
theorem lookupFileResult : Obligations.LookupFileResult := by
  intro s h
  have hpass : validate s.snapshot (checksOf .lookupFile s) = .pass := validate_lookupChecks.2 h
  constructor
  · obtain ⟨u, hu, hidle, hdone, hvoices, hwbuf, hcells, -⟩ := exec_noBytes hpass rfl
    obtain ⟨hv, hw⟩ := lookupFileEffect_voices_wbuf s
    exact ⟨u, hu, hidle, hdone, hvoices.trans hv, hwbuf.trans hw, hcells⟩
  rintro ⟨hq, -⟩ notFoundIn
  have hnone (he : lookupFileEffect s = (none, s.fileNotFound)) : ∃ u, notFoundIn u := by
    obtain ⟨hexec, hcompleted⟩ := exec_completed hpass he
    exact ⟨_, hexec, hcompleted, setRes012_setRes3_res s notFound 0 0 0⟩
  refine ⟨fun k hdir => ⟨fun hbad => exec_image hpass (lookupFileEffect_image hq hdir hbad), fun hfits =>
    ⟨fun j hfile => ?_, fun hno => hnone (lookupFileEffect_fileNotFound hq hdir hfits hno)⟩⟩,
    fun hno => hnone (lookupFileEffect_dirNotFound hq hno)⟩
  obtain ⟨hexec, hcompleted⟩ := exec_completed hpass (lookupFileEffect_found hq hdir hfits hfile)
  obtain ⟨h0, h1, h2, h3⟩ := setRes012_setRes3_res s (BitVec.ofNat 32 j) _ _ _
  refine ⟨_, hexec, hcompleted, ?_, h1, h2, h3⟩
  have hj : j < 2 ^ 32 := by
    have := hfile.2.1
    have := s.cfg.image_bounds
    omega
  rw [State.complete_res, State.fileFound, h0, BitVec.toNat_ofNat, Nat.mod_eq_of_lt hj]

end Sys2Proof.Machine

/-! Errors and the interrupt output (60_exceptions.md R124, R126): what a command that raises an error leaves, and IRQ after
each event that moves it. -/

namespace Sys2Proof.Machine

/-! ### Errors -/

/-- A command that ends with ERR set raised an error over the state before it, every byte of MEM included: validation fails
before any effect, and IMAGE comes before any result is written. -/
theorem exec_raises {i : Instr} {s t : State} (h : exec i s = .next t) (hs : s.err = false) (ht : t.err = true) :
    ∃ c p, c ≠ .none ∧ p.cells = s.mem.cells ∧ t = { s with mem := p }.raiseError c := by
  obtain ⟨c, hc, rfl⟩ | ⟨-, s', hw, rfl | ⟨rfl, heq, hcells⟩⟩ := exec_next h
  · exact ⟨c, s.mem, ne_none_of_validate_error hc, rfl, rfl⟩
  · exact absurd (hw.completed.err.symm.trans ht) (by simp [hs])
  · exact ⟨.image, s'.mem, nofun, hcells, congrArg (State.raiseError · .image) heq⟩

/-- Settles O11: the error is raised over the state before the command, and `State.raiseError` changes STATUS, the phase
and the races only. -/
theorem errorsArePrecise : Obligations.ErrorsArePrecise := by
  intro i s t h hs ht
  obtain ⟨c, p, hc, hcells, rfl⟩ := exec_raises h hs ht
  exact ⟨hc, rfl, rfl, rfl, rfl, rfl, rfl, hcells, rfl, rfl, rfl, rfl, rfl, rfl, rfl⟩

/-! ### The interrupt output -/

theorem State.irq_iff (s : State) : s.irq = true ↔ s.ie = true ∧ (s.done = true ∨ s.err = true) := by
  simp [State.irq]

/-- With DONE set IRQ shows IE. -/
theorem State.irq_of_done {s : State} (h : s.done = true) : s.irq = s.ie := by
  simp [State.irq, h]

@[simp] theorem State.writeStatus_irq (s : State) (v : Word) :
    (s.writeStatus v).irq = (s.ie && (s.done && !v.getLsbD 1 || s.err && !v.getLsbD 2)) := rfl

@[simp] theorem State.writeIE_irq (s : State) (v : Word) : (s.writeIE v).irq = (v.getLsbD 0 && (s.done || s.err)) := rfl

@[simp] theorem State.accept_irq (s : State) (w : Word) : (s.accept w).irq = false := by
  simp [State.irq]

@[simp] theorem State.hardReset_irq (s : State) : s.hardReset.irq = false := by
  simp [State.irq, State.hardReset]

/-- A write to CTRL with IE = 0 brings IRQ down, by the new IE or by the reset. -/
theorem writeCtrl_irq_of_ie_false (s : State) {v : Word} (h : v.getLsbD 0 = false) : (s.writeCtrl v).irq = false := by
  unfold State.writeCtrl
  split
  · exact s.hardReset_irq
  · rw [State.writeIE_irq, h, Bool.false_and]

theorem writeCtrl_irq_of_ie_true (s : State) {v : Word} (h : v.getLsbD 0 = true) (hr : v.getLsbD 1 = false) :
    (s.writeCtrl v).irq = (s.done || s.err) := by
  rw [State.writeCtrl, if_neg (by rw [hr]; exact Bool.false_ne_true), State.writeIE_irq, h, Bool.true_and]

theorem hostTurn_writeStatus (s : State) (v : Word) :
    hostTurn (.writeReg (s.cfg.raw.engineBase + 0x004) 4 v) s = .next (s.writeStatus v) := by
  rw [hostTurn_write s v (by decide) rfl, regAt_status]
  rfl

theorem exec_ie {i : Instr} {s t : State} (h : exec i s = .next t) : t.ie = s.ie := by
  obtain ⟨s', hw, rfl | ⟨c, rfl⟩⟩ := exec_within h <;> exact hw.completed.ie

/-- A BUSY engine's turn completes: a decoded command and an illegal word alike set DONE, and neither writes IE. -/
theorem engineTurn_completes {s t : State} (hb : s.phase = .busy) (h : engineTurn s = .next t) :
    t.done = true ∧ t.ie = s.ie := by
  cases hd : decode s.cmd with
  | ok i =>
    have hexec : exec i s = .next t := (engineTurn_of_decode hb hd).symm.trans h
    exact ⟨(exec_completes hexec).2, exec_ie hexec⟩
  | error e =>
    rw [engineTurn_of_decode_error hb hd] at h
    cases h
    exact ⟨rfl, rfl⟩

/-- Settles O14: each event is one named operation, whose IRQ is said above. -/
theorem interruptOutput : Obligations.InterruptOutput := by
  intro s
  refine ⟨s.irq_iff, fun _ => rfl, fun t hb ht => ?completion, fun v t ht => ?status, fun v t hv ht => ?ieOff,
    fun v t hv hr ht => ?ieOn, fun w t hi ht => ?issue, fun t ht => ?reset⟩
  case completion =>
    obtain ⟨hdone, hie⟩ := engineTurn_completes hb ht
    exact (State.irq_of_done hdone).trans hie
  case status =>
    rw [hostTurn_writeStatus] at ht
    cases ht
    exact ⟨s.writeStatus_irq v, fun h1 h2 => by simp [h1, h2]⟩
  case ieOff =>
    rw [hostTurn_writeCtrl] at ht
    cases ht
    exact writeCtrl_irq_of_ie_false s hv
  case ieOn =>
    rw [hostTurn_writeCtrl] at ht
    cases ht
    exact writeCtrl_irq_of_ie_true s hv hr
  case issue =>
    rw [hostTurn_writeCmd, writeCmd_of_idle hi] at ht
    cases ht
    exact s.accept_irq w
  case reset =>
    cases ht
    exact s.hardReset_irq

end Sys2Proof.Machine

/-! Reset (70_reset_and_hazards.md R134..R136) and the canonical form of MEM (log 5): what the reset input and a write of CTRL
leave, the invariant after reset, and why equal bytes are equal cells. -/

namespace Sys2Proof.Machine

/-! ### Canonical cells -/

theorem Cells.wfFrom_cons {lo k : Nat} {v : Byte} {cs : List Host.Cell} :
    Cells.wfFrom lo ((k, v) :: cs) = true ↔ lo ≤ k ∧ v ≠ unlisted ∧ Cells.wfFrom (k + 1) cs = true := by
  simp [Cells.wfFrom, and_assoc]

@[simp] theorem Cells.read_cons_same (k : Nat) (v : Byte) (cs : List Host.Cell) : Cells.read ((k, v) :: cs) k = v := by
  simp [Cells.read]

theorem Cells.read_cons_other {k a : Nat} (v : Byte) (cs : List Host.Cell) (h : k ≠ a) :
    Cells.read ((k, v) :: cs) a = Cells.read cs a := by
  simp [Cells.read, h]

theorem Cells.read_first_ne {lo k : Nat} {v : Byte} {cs : List Host.Cell}
    (h : Cells.wfFrom lo ((k, v) :: cs) = true) : Cells.read ((k, v) :: cs) k ≠ unlisted := by
  rw [Cells.read_cons_same]
  exact (Cells.wfFrom_cons.1 h).2.1

/-- No address below the first cell of a canonical list reads as anything but unlisted. -/
theorem Cells.first_le_of_read_ne {lo k a : Nat} {v : Byte} {cs : List Host.Cell}
    (h : Cells.wfFrom lo ((k, v) :: cs) = true) (ha : Cells.read ((k, v) :: cs) a ≠ unlisted) : k ≤ a := by
  obtain ⟨-, hv, hcs⟩ := Cells.wfFrom_cons.1 h
  exact not_lt.1 fun hlt => ha (Cells.read_below (Cells.wfFrom_cons.2 ⟨le_rfl, hv, hcs⟩) hlt)

/-- Without their common first cell, canonical lists still read alike: up to that cell both read as unlisted. -/
theorem Cells.tails_read_alike {k : Nat} {v : Byte} {cs ds : List Host.Cell} (hc : Cells.wfFrom (k + 1) cs = true)
    (hd : Cells.wfFrom (k + 1) ds = true) (h : ∀ a, Cells.read ((k, v) :: cs) a = Cells.read ((k, v) :: ds) a) (a : Nat) :
    Cells.read cs a = Cells.read ds a := by
  by_cases ha : k = a
  · rw [Cells.read_below hc (by omega), Cells.read_below hd (by omega)]
  · have := h a
    rwa [Cells.read_cons_other v cs ha, Cells.read_cons_other v ds ha] at this

/-- Canonical lists of cells that read alike are equal. -/
theorem Cells.eq_of_read_alike {cs ds : List Host.Cell} {lo : Nat} (hc : Cells.wfFrom lo cs = true)
    (hd : Cells.wfFrom lo ds = true) (h : ∀ a, Cells.read cs a = Cells.read ds a) : cs = ds := by
  induction cs generalizing ds lo with
  | nil =>
    cases ds with
    | nil => rfl
    | cons d ds => exact absurd (h d.1).symm (Cells.read_first_ne hd)
  | cons c cs ih =>
    cases ds with
    | nil => exact absurd (h c.1) (Cells.read_first_ne hc)
    | cons d ds =>
      obtain ⟨k, v⟩ := c
      obtain ⟨k', v'⟩ := d
      have hkk' : k = k' := le_antisymm
        (Cells.first_le_of_read_ne hc (h k' ▸ Cells.read_first_ne hd))
        (Cells.first_le_of_read_ne hd (h k ▸ Cells.read_first_ne hc))
      subst hkk'
      have hvv' : v = v' := by simpa using h k
      subst hvv'
      obtain ⟨-, -, hcs⟩ := Cells.wfFrom_cons.1 hc
      obtain ⟨-, -, hds⟩ := Cells.wfFrom_cons.1 hd
      rw [ih hcs hds (Cells.tails_read_alike hcs hds h)]

/-- Settles O25: by induction on the cells, the two lists share their first cell, and so do their rests. -/
theorem canonicalMemIsUnique : Obligations.CanonicalMemIsUnique :=
  fun _ _ hp hq h => Cells.eq_of_read_alike hp hq h

/-! ### The reset input -/

theorem peek_scrambleAll {rs : List Region} {a : Nat} (h : ∀ r ∈ rs, r.has a = false) (p : MemPort) :
    (rs.foldl (fun p r => p.scramble r.base r.len) p).peek a = p.peek a := by
  induction rs generalizing p with
  | nil => rfl
  | cons r rs ih =>
    obtain ⟨hr, hrs⟩ := List.forall_mem_cons.1 h
    have hout : a < r.base ∨ r.base + r.len ≤ a := by
      have : ¬ (r.base ≤ a ∧ a < r.base + r.len) := fun hin => by simp [Region.has_mk.2 hin] at hr
      omega
    exact (ih hrs _).trans (p.scramble_peek r.base r.len a hout)

theorem State.hardReset_peek {s : State} {a : Nat} (h : ∀ r ∈ s.writtenNow, r.has a = false) :
    s.hardReset.mem.peek a = s.mem.peek a := peek_scrambleAll h s.mem

theorem writtenNow_of_idle {s : State} (h : s.phase = .idle) : s.writtenNow = [] := by
  simp [State.writtenNow, State.running, h]

@[simp] theorem State.hardReset_ctrlWord (s : State) : s.hardReset.ctrlWord = 0 := by
  simp [ctrlWord_eq, State.hardReset]

@[simp] theorem State.hardReset_statusWord (s : State) : s.hardReset.statusWord = 0 := by
  simp [State.statusWord, State.busy, ErrCode.bits, State.hardReset]

theorem ArgFile.reset_written (k : Fin 8) : ArgFile.reset.written[k] = false := by
  simp [ArgFile.reset]

theorem State.hardReset_unbound (s : State) (v : Nat) : (s.hardReset.voice v).bound = false := by
  rw [State.hardReset, voice_resetBlock]
  rfl

/-- Settles O15: the registers are those of `resetBlock`; only the buffers of the command in progress lose their bytes, and an
IDLE engine has none. -/
theorem hardwareReset : Obligations.HardwareReset := fun s =>
  ⟨s.hardReset, rfl, s.hardReset_ctrlWord, s.hardReset_statusWord, rfl, rfl, s.hardReset_unbound, ArgFile.reset_written, rfl,
    s.hardReset_irq, fun _ => State.hardReset_peek,
    fun hi _ => State.hardReset_peek (by simp [writtenNow_of_idle hi])⟩

/-! ### CTRL -/

theorem writeCtrl_of_srst {v : Word} (s : State) (h : v.getLsbD 1 = true) : s.writeCtrl v = s.hardReset :=
  if_pos h

theorem writeCtrl_of_not_srst {v : Word} (s : State) (h : v.getLsbD 1 = false) : s.writeCtrl v = s.writeIE v :=
  if_neg (by simp only [h, Bool.false_eq_true, not_false_eq_true])

/-- Settles O16: an admitted write of CTRL is `writeCtrl`, which SRST splits. -/
theorem softReset : Obligations.SoftReset := by
  refine fun s v => ⟨fun h => ?srst, fun h => ?ie⟩ <;> rw [hostTurn_writeCtrl]
  case srst => rw [writeCtrl_of_srst s h]; rfl
  case ie => rw [writeCtrl_of_not_srst s h]; rfl

/-! ### The invariant after reset -/

/-- The state after reset is a reset block over an empty MEM. -/
theorem resetBlock_resetOf (c : Config) : (State.resetOf c).resetBlock = State.resetOf c := rfl

theorem stateInv_resetOf (c : Config) : StateInv (State.resetOf c) := by
  rw [← resetBlock_resetOf]
  exact stateInv_resetBlock rfl nofun

/-- Settles O55: the block at its reset values keeps the invariant over any canonical MEM, the empty one too. -/
theorem invariantAtReset : Obligations.InvariantAtReset := ⟨stateInv_resetOf, stateInv_resetOf Config.x⟩

end Sys2Proof.Machine
